-- ==== Sys2Proof/Word.lean ====
section
/-! DEFINITION. The two widths the spec has: bytes (R10) and 32-bit registers (R15). -/

namespace Sys2Proof

/-- A byte: 8 bits, unsigned value 0 to 255 (R10). -/
abbrev Byte := BitVec 8

/-- The content of a register: `XLEN = 32` bits (R8, R15). -/
abbrev Word := BitVec 32

end Sys2Proof
end

