-- ==== Sys2Proof/Config.lean ====
section
/-! DEFINITION. What an implementation of the block fixes: the constants of R6, the open parameters of R7 and R8
(a structure that State carries, so that a statement about every state holds for every value of them), and what
of the surroundings the spec does not give and a claim may need (opaque constants). -/

namespace Sys2Proof

/-- Bytes in a status record (R6, R74). -/
def Config.statusLen : Nat := 32

/-- Most bytes in one literal record that COMP emits (R6, R70). -/
def Config.litMax : Nat := 127

/-- A gray value strictly below it is printed (R6, R110). -/
def Config.thresh : Nat := 127

/-- Offset of the model id in the status record (R6, R74). -/
def Config.offModel : Nat := 4

/-- Offset of error bitmask 1 (R6, R74). -/
def Config.offErr1 : Nat := 8

/-- Offset of error bitmask 2 (R6, R74). -/
def Config.offErr2 : Nat := 9

/-- Offset of the media width in millimetres (R6, R74). -/
def Config.offMediaW : Nat := 10

/-- Offset of the media type (R6, R74). -/
def Config.offMediaT : Nat := 11

/-- Model ids known to print at 360 dpi (R6, R93). -/
def Config.dpi360Ids : List Byte := [0x6F, 0x70, 0x71, 0x78]

/-- Model ids known to print at 180 dpi (R6, R93). -/
def Config.dpi180Ids : List Byte := [0x5A]

/-- Resolution of an unknown model id (R6, R93). -/
def Config.dpiDefault : Word := 360

/-- The lower of the two resolutions (R93, R171). -/
def Config.lowerDpi : Nat := 180

/-- The mode code that selects raster mode (R179). -/
def Config.rasterMode : Byte := 0x01

/-- The open parameters of the block, "arguments of the model" (R7, R8, R25).
DESIGN CHOICE (log entry 1): they stand in State and no step changes them. -/
structure Params where
  /-- `RUN_MAX`: most bytes one run record stands for (R7). -/
  runMax : Nat
  /-- `PIX_SIZE` (R8). -/
  pixSize : Nat
  /-- `LINE_SIZE` (R8). -/
  lineSize : Nat
  /-- `CBUF_SIZE` (R8). -/
  cbufSize : Nat
deriving DecidableEq, Repr

/-- The ranges the spec gives the open parameters: `2 <= RUN_MAX <= 255` (R7), each size below `2^32` (R8). -/
def Params.valid (p : Params) : Bool :=
  decide (2 ≤ p.runMax) && decide (p.runMax ≤ 255) && decide (p.pixSize < 2 ^ 32) && decide (p.lineSize < 2 ^ 32)
    && decide (p.cbufSize < 2 ^ 32)

/-- A tape geometry, and the GEO registers that hold one (R17, R66). -/
structure Geometry where
  /-- `width_mm`; GEO_WIDTH_MM, read by no operation (R17). -/
  widthMm : Word
  /-- `width_dots`; GEO_WIDTH_DOTS. -/
  widthDots : Word
  /-- `printable_dots`; GEO_PRINTABLE_DOTS. -/
  printableDots : Word
  /-- `total_pins`; GEO_TOTAL_PINS. -/
  totalPins : Word
  /-- `right_margin_pins`; GEO_RIGHT_MARGIN_PINS. -/
  rightMarginPins : Word
deriving DecidableEq, Repr

/-- A row of the Tape Geometry Table, "keyed by (width class, dpi)" (R66, R171). -/
structure GeometryRow where
  /-- Nominal width in millimetres: the width class. -/
  widthClass : Nat
  /-- Resolution. -/
  dpi : Nat
  /-- What the row holds. -/
  geometry : Geometry
deriving DecidableEq, Repr

/-- The one row the source gives: 12 mm at 360 dpi (R174). -/
def Config.knownRow : GeometryRow := ⟨12, 360, ⟨12, 170, 150, 560, 213⟩⟩

/-- The other rows of the table are not in the source (R171, N3): nothing constrains this constant (log entry 16). Which
of them can be rows of the table says `Sys2Proof.Machine.geometryRows`. -/
opaque Config.furtherRows : List GeometryRow

/-- Whether a compression-select byte enables compression. The values are not in the source (R186, N9): nothing
constrains this constant (log entry 8). -/
opaque Config.selectEnables : Byte → Bool

end Sys2Proof
end

