-- ==== Sys2Proof/Syntax.lean ====
section
/-! DEFINITION. The instructions: one constructor for each row of spec/opcode_table.json. -/

namespace Sys2Proof

/-- One record of a compressed line (R68). -/
inductive Record where
  /-- `RUN L, v`: stands for `len` copies of `value` (R69). -/
  | run (len : Nat) (value : Byte)
  /-- `LIT b0 ... b(k-1)`: stands for its data bytes (R70). -/
  | lit (data : List Byte)
deriving DecidableEq, Repr

/-- The parameter fields of the print-information command in the order of transmission: 1 + 1 + 1 + 1 + 4 + 1 + 1 = 10
bytes (R180, resolved by C2, log entry 21). -/
structure PrintInfo where
  /-- Flags byte; its bit positions are not in the source (N9). -/
  flags : Byte
  /-- Media-type byte. -/
  mediaType : Byte
  /-- Media-width byte, in millimetres (R181). -/
  mediaWidth : Byte
  /-- Media-length byte. -/
  mediaLength : Byte
  /-- Raster-line count, transmitted little endian (R181). -/
  rasterLines : BitVec 32
  /-- Page-type byte; its codes are not in the source (N9). -/
  pageType : Byte
  /-- Reserved byte. -/
  reserved : Byte
deriving DecidableEq, Repr

/-- The instructions of the opcode table: three commands of the block (R62), two records of a compressed line as their
reader sees them (R71), and thirteen commands of the printer protocol at the boundary (R176 to R189). -/
inductive Instr where
  /-- STDEC: decode the status record (R90). -/
  | stdec
  /-- RAST: rasterize the pixel buffer (R105). -/
  | rast
  /-- COMP: compress one window of LINE (R130). -/
  | comp
  /-- RUN record: `len` copies of `value` (R69, R137). -/
  | run (len : Nat) (value : Byte)
  /-- LIT record: the bytes `data` (R70, R137). -/
  | lit (data : List Byte)
  /-- INVALIDATE: 200 zero bytes (R176). -/
  | invalidate
  /-- INITIALIZE: the fixed 2-byte reset of the printer (R177). -/
  | initPrinter
  /-- STATUS_REQUEST: no part of a job's stream (R178). -/
  | statusRequest
  /-- MODE_SWITCH (R179). -/
  | modeSwitch (mode : Byte)
  /-- PRINT_INFO (R180). -/
  | printInfo (info : PrintInfo)
  /-- VARIOUS_MODE (R182). -/
  | variousMode (bits : Byte)
  /-- PAGE_NUMBER: cut interval, 0 disables cutting (R183). -/
  | pageNumber (cutInterval : Byte)
  /-- ADVANCED_MODE (R184). -/
  | advancedMode (bits : Byte)
  /-- MARGIN: feed length in dots, must never be 0 (R185). -/
  | margin (dots : BitVec 16)
  /-- COMPRESSION_SELECT (R186). -/
  | compressionSelect (mode : Byte)
  /-- RASTER_TRANSFER: one line's payload (R187). -/
  | rasterTransfer (payload : List Byte)
  /-- PRINT: terminal command of a continuous label (R188). -/
  | print
  /-- PRINT_FEED: terminal command of the final or only label (R189). -/
  | printFeed
deriving DecidableEq, Repr

end Sys2Proof
end

