-- ==== Sys2Proof/WellFormed.lean ====
section
/-! DEFINITION. Which terms of `Instr` are instructions, that is, which have words that a decoder reads as them. -/

namespace Sys2Proof

/-- A RUN record has `2 <= L <= 129` for its reader (R71: control byte 0x80 to 0xFF), a LIT record 1 to 128 bytes (R71,
R73(a)). A raster-transfer payload has a 16-bit length (R187). Every other term is well formed: its operands are
fixed-width fields, none of whose values the spec rules out as an encoding. -/
def Instr.wf : Instr → Bool
  | .stdec => true
  | .rast => true
  | .comp => true
  | .run len _ => decide (2 ≤ len) && decide (len ≤ 129)
  | .lit data => decide (1 ≤ data.length) && decide (data.length ≤ 128)
  | .invalidate => true
  | .initPrinter => true
  | .statusRequest => true
  | .modeSwitch _ => true
  | .printInfo _ => true
  | .variousMode _ => true
  | .pageNumber _ => true
  | .advancedMode _ => true
  | .margin _ => true
  | .compressionSelect _ => true
  | .rasterTransfer payload => decide (payload.length ≤ 65535)
  | .print => true
  | .printFeed => true

/-- What the block's compressor emits: `2 <= L <= RUN_MAX`, `1 <= k <= LIT_MAX` (R141(d)). A run of 130 bytes or more is
emitted when `RUN_MAX` allows it, and is no well-formed instruction of a reader (R139). -/
def Record.emittable (runMax : Nat) : Record → Bool
  | .run len _ => decide (2 ≤ len) && decide (len ≤ runMax)
  | .lit data => decide (1 ≤ data.length) && decide (data.length ≤ Config.litMax)

end Sys2Proof
end

