-- ==== Sys2Proof/Decode.lean ====
section
/-! DEFINITION. Decoding the words of each space of the opcode table (command words R61, records R71 and R72, protocol
commands R176 to R189), total on any words and rejecting by name, and after it the encoder, written from the same rules.

The three spaces use the same byte values for different instructions. Which space a word belongs to is known from where it
is presented (a write to CMD, the reader of a compressed line, the encoder), so it is part of what is decoded. -/

namespace Sys2Proof

/-! ## Bytes and their order -/

/-- Control byte of a run of `len` bytes: `u8(1 - L)` (R69, R71). -/
def runControl (len : Nat) : Byte := BitVec.ofInt 8 (1 - (len : Int))

/-- Control byte of a literal of `k` bytes: `k - 1` (R70, R71). -/
def litControl (k : Nat) : Byte := BitVec.ofNat 8 (k - 1)

/-- A 16-bit field, least significant byte first (R46, R185, R187). -/
def le16 (v : BitVec 16) : List Byte := [v.extractLsb' 0 8, v.extractLsb' 8 8]

/-- The 16-bit field whose bytes are `lo` then `hi` (R46). -/
def ofLe16 (lo hi : Byte) : BitVec 16 := hi ++ lo

/-- A 32-bit field, least significant byte first (R46, R181). -/
def le32 (v : BitVec 32) : List Byte :=
  [v.extractLsb' 0 8, v.extractLsb' 8 8, v.extractLsb' 16 8, v.extractLsb' 24 8]

/-- The 32-bit field whose bytes are `b0`, `b1`, `b2`, `b3` in this order (R46, R181). -/
def ofLe32 (b0 b1 b2 b3 : Byte) : BitVec 32 := (b3 ++ b2) ++ (b1 ++ b0)

/-! ## Decoding -/

/-- Why words are no instruction. -/
inductive DecodeError where
  /-- A value written to CMD other than 0x01, 0x02, 0x03 (R63). The block answers it with the fault ILLEGAL_CMD. -/
  | illegalCommand (value : Word)
  /-- There are no bytes. -/
  | noBytes
  /-- The bytes end inside the record or command that the first of them begins (R72). -/
  | truncated
  /-- No protocol command begins so (R176 to R189). -/
  | unknownOpcode (opcode : Byte)
deriving DecidableEq, Repr

/-- What a decoder of a byte sequence answers: the instruction and the bytes after it, or why there is none. -/
abbrev Decoded := Except DecodeError (Instr × List Byte)

/-- Command word: bits 7:0 the code, bits 31:8 zero (R61, R62); every other value is illegal (R63). -/
def decodeCommand (value : Word) : Except DecodeError Instr :=
  if value = 0x01 then .ok .stdec
  else if value = 0x02 then .ok .rast
  else if value = 0x03 then .ok .comp
  else .error (.illegalCommand value)

/-- The first record of a compressed line, by the sign of its control byte (R71, R72). -/
def readRecord : List Byte → Except DecodeError (Record × List Byte)
  | [] => .error .noBytes
  | control :: rest =>
    if 0x80 ≤ control.toNat then
      match rest with
      | [] => .error .truncated
      | value :: rest' => .ok (.run (257 - control.toNat) value, rest')
    else if control.toNat + 1 ≤ rest.length then
      .ok (.lit (rest.take (control.toNat + 1)), rest.drop (control.toNat + 1))
    else .error .truncated

/-- A record as an instruction of its reader. -/
def instrOfRecord : Record → Instr
  | .run len value => .run len value
  | .lit data => .lit data

/-- The first record of a compressed line as an instruction. -/
def decodeStream (bytes : List Byte) : Decoded :=
  match readRecord bytes with
  | .ok (r, rest) => .ok (instrOfRecord r, rest)
  | .error e => .error e

/-- An opcode followed by one parameter byte. -/
def decodeParam (mk : Byte → Instr) : List Byte → Decoded
  | param :: rest => .ok (mk param, rest)
  | [] => .error .truncated

/-- The ten parameter bytes of print information (R180, R181). -/
def decodePrintInfo : List Byte → Decoded
  | flags :: mediaType :: mediaWidth :: mediaLength :: n0 :: n1 :: n2 :: n3 :: pageType :: reserved :: rest =>
    .ok (.printInfo ⟨flags, mediaType, mediaWidth, mediaLength, ofLe32 n0 n1 n2 n3, pageType, reserved⟩, rest)
  | _ => .error .truncated

/-- The two parameter bytes of margin (R185). -/
def decodeMargin : List Byte → Decoded
  | lo :: hi :: rest => .ok (.margin (ofLe16 lo hi), rest)
  | _ => .error .truncated

/-- Length and payload of a raster transfer (R187). -/
def decodeTransfer : List Byte → Decoded
  | lo :: hi :: rest =>
    if (ofLe16 lo hi).toNat ≤ rest.length then
      .ok (.rasterTransfer (rest.take (ofLe16 lo hi).toNat), rest.drop (ofLe16 lo hi).toNat)
    else .error .truncated
  | _ => .error .truncated

/-- The 199 zero bytes that follow the first zero byte of INVALIDATE (R176). -/
def decodeInvalidate (rest : List Byte) : Decoded :=
  if rest.take 199 = List.replicate 199 0 then .ok (.invalidate, rest.drop 199) else .error .truncated

/-- The commands that begin `1B 69` (R178 to R185). -/
def decodeEscI : List Byte → Decoded
  | [] => .error .truncated
  | c :: rest =>
    if c = 0x53 then .ok (.statusRequest, rest)
    else if c = 0x61 then decodeParam .modeSwitch rest
    else if c = 0x7A then decodePrintInfo rest
    else if c = 0x4D then decodeParam .variousMode rest
    else if c = 0x41 then decodeParam .pageNumber rest
    else if c = 0x4B then decodeParam .advancedMode rest
    else if c = 0x64 then decodeMargin rest
    else .error (.unknownOpcode c)

/-- The commands that begin `1B` (R177 to R185). -/
def decodeEsc : List Byte → Decoded
  | [] => .error .truncated
  | c :: rest =>
    if c = 0x40 then .ok (.initPrinter, rest)
    else if c = 0x69 then decodeEscI rest
    else .error (.unknownOpcode c)

/-- The first protocol command of a byte sequence (R176 to R189). -/
def decodeProtocol : List Byte → Decoded
  | [] => .error .noBytes
  | c :: rest =>
    if c = 0x1B then decodeEsc rest
    else if c = 0x4D then decodeParam .compressionSelect rest
    else if c = 0x47 then decodeTransfer rest
    else if c = 0x0C then .ok (.print, rest)
    else if c = 0x1A then .ok (.printFeed, rest)
    else if c = 0x00 then decodeInvalidate rest
    else .error (.unknownOpcode c)

/-- Words in the space they are presented in. -/
inductive Words where
  /-- A value written to CMD (R61). -/
  | cmd (value : Word)
  /-- Bytes given to the reader of a compressed line (R137). -/
  | stream (bytes : List Byte)
  /-- Bytes of protocol commands (R176 to R189). -/
  | protocol (bytes : List Byte)
deriving DecidableEq, Repr

/-- The first instruction of the words and the bytes after it. A command word has nothing after it (R61). -/
def decode : Words → Decoded
  | .cmd value =>
    match decodeCommand value with
    | .ok i => .ok (i, [])
    | .error e => .error e
  | .stream bytes => decodeStream bytes
  | .protocol bytes => decodeProtocol bytes

/-! ## Encoding -/

/-- The bytes of a record (R69, R70). Total: a run of 130 bytes or more gets the byte the formula gives (R139). -/
def encodeRecord : Record → List Byte
  | .run len value => [runControl len, value]
  | .lit data => litControl data.length :: data

/-- The ten parameter bytes of print information, in the order of R180. -/
def encodePrintInfo (p : PrintInfo) : List Byte :=
  [p.flags, p.mediaType, p.mediaWidth, p.mediaLength] ++ le32 p.rasterLines ++ [p.pageType, p.reserved]

/-- The bytes of a record or of a protocol command (R69, R70, R176 to R189). A command of the block has no bytes: it is
a register value (R61). -/
def encodeBytes : Instr → List Byte
  | .stdec => []
  | .rast => []
  | .comp => []
  | .run len value => encodeRecord (.run len value)
  | .lit data => encodeRecord (.lit data)
  | .invalidate => List.replicate 200 0x00
  | .initPrinter => [0x1B, 0x40]
  | .statusRequest => [0x1B, 0x69, 0x53]
  | .modeSwitch mode => [0x1B, 0x69, 0x61, mode]
  | .printInfo info => [0x1B, 0x69, 0x7A] ++ encodePrintInfo info
  | .variousMode bits => [0x1B, 0x69, 0x4D, bits]
  | .pageNumber cutInterval => [0x1B, 0x69, 0x41, cutInterval]
  | .advancedMode bits => [0x1B, 0x69, 0x4B, bits]
  | .margin dots => [0x1B, 0x69, 0x64] ++ le16 dots
  | .compressionSelect mode => [0x4D, mode]
  | .rasterTransfer payload => [0x47] ++ le16 (BitVec.ofNat 16 payload.length) ++ payload
  | .print => [0x0C]
  | .printFeed => [0x1A]

/-- The words of an instruction, in its space. -/
def encode : Instr → Words
  | .stdec => .cmd 0x01
  | .rast => .cmd 0x02
  | .comp => .cmd 0x03
  | .run len value => .stream (encodeBytes (.run len value))
  | .lit data => .stream (encodeBytes (.lit data))
  | .invalidate => .protocol (encodeBytes .invalidate)
  | .initPrinter => .protocol (encodeBytes .initPrinter)
  | .statusRequest => .protocol (encodeBytes .statusRequest)
  | .modeSwitch mode => .protocol (encodeBytes (.modeSwitch mode))
  | .printInfo info => .protocol (encodeBytes (.printInfo info))
  | .variousMode bits => .protocol (encodeBytes (.variousMode bits))
  | .pageNumber cutInterval => .protocol (encodeBytes (.pageNumber cutInterval))
  | .advancedMode bits => .protocol (encodeBytes (.advancedMode bits))
  | .margin dots => .protocol (encodeBytes (.margin dots))
  | .compressionSelect mode => .protocol (encodeBytes (.compressionSelect mode))
  | .rasterTransfer payload => .protocol (encodeBytes (.rasterTransfer payload))
  | .print => .protocol (encodeBytes .print)
  | .printFeed => .protocol (encodeBytes .printFeed)

/-- Words followed by more bytes. Nothing can follow a command word: it is one register value (R61). -/
def Words.followedBy : Words → List Byte → Words
  | .cmd value, _ => .cmd value
  | .stream bytes, more => .stream (bytes ++ more)
  | .protocol bytes, more => .protocol (bytes ++ more)

/-! ## The numbers of the opcode table -/

/-- The `n` low bytes of a number, the lowest first. -/
def lowFirst : Nat → Nat → List Byte
  | 0, _ => []
  | n + 1, w => BitVec.ofNat 8 w :: lowFirst n (w / 256)

/-- Whether a decoder answered an instruction. -/
def Decoded.isInstr : Decoded → Bool
  | .ok _ => true
  | .error _ => false

/-- Operand bytes of zeros after a number of the table: as many as the longest fixed-length instruction has. -/
def tablePad : List Byte := List.replicate 200 0

/-- The words of `nbits` bits numbered as the opcode table numbers them, followed by zeros, in the space of the row they
belong to. DESIGN CHOICE (log entry 14), since the rows of the table say their space and a number does not:
32 bits are a command word; a number with bit 7 set is a RUN record (its control byte is the low byte); a number whose
high byte, or low byte, is `1B` and that begins a protocol command is read as that command (the table writes these
opcodes with their first byte highest); 8 bits that are a one-byte protocol opcode are that command (the row that fixes
more bits wins); everything else is a LIT record. -/
def tableWords (nbits w : Nat) : Words :=
  let low := lowFirst (nbits / 8) w
  let lowBytes := low ++ tablePad
  let highBytes := low.reverse ++ tablePad
  if nbits = 32 then .cmd (BitVec.ofNat 32 w)
  else if w.testBit 7 then .stream lowBytes
  else if low.reverse.head? = some 0x1B ∧ (decodeProtocol highBytes).isInstr then .protocol highBytes
  else if low.head? = some 0x1B ∧ (decodeProtocol lowBytes).isInstr then .protocol lowBytes
  else if (nbits = 8 ∨ 1600 ≤ nbits) ∧ (decodeProtocol lowBytes).isInstr then .protocol lowBytes
  else .stream lowBytes

/-- The words without the bytes after their first instruction. -/
def Words.firstOnly (words : Words) : Words :=
  match decode words with
  | .error _ => words
  | .ok (_, rest) =>
    match words with
    | .cmd value => .cmd value
    | .stream bytes => .stream (bytes.take (bytes.length - rest.length))
    | .protocol bytes => .protocol (bytes.take (bytes.length - rest.length))

/-- The instruction that the decoder reads from a number of the opcode table. -/
def decodeTableWord (nbits w : Nat) : Option Instr :=
  match decode (tableWords nbits w) with
  | .ok (i, _) => some i
  | .error _ => none

end Sys2Proof
end

