-- ==== Sys2Proof/Machine/State.lean ====
section
/-! DEFINITION. Everything the spec gives the machine, as plain data: the block's registers (R15 to R22) and buffers (R23,
R40), its open parameters (R7, R8), the surroundings that rows of the opcode table act on (R137, R175, R186, R192), and the
host's side of the interface. -/

namespace Sys2Proof.Machine

/-- The codes that FAULT can hold (R211). Codes 6 to 255 are never produced, so they have no constructor. -/
inductive FaultCode where
  /-- 0 NONE: no fault. -/
  | noFault
  /-- 1 ILLEGAL_CMD, raised by the command dispatch. -/
  | illegalCmd
  /-- 2 BAD_FORMAT, raised by RAST. -/
  | badFormat
  /-- 3 BAD_GEOMETRY, raised by RAST. -/
  | badGeometry
  /-- 4 GEOMETRY_MISMATCH, raised by RAST. -/
  | geometryMismatch
  /-- 5 CAPACITY, raised by RAST and COMP. -/
  | capacity
deriving DecidableEq, Repr

/-- The IMG registers (R18). -/
structure ImageRegs where
  /-- IMG_W: number of columns. -/
  width : Word
  /-- IMG_H: number of rows. -/
  height : Word
  /-- IMG_FMT: pixel format code. -/
  fmt : Word
deriving DecidableEq, Repr

/-- The ST registers (R21). The upper bits of each read 0 (R15), so only the bits used are held. -/
structure StatusRegs where
  /-- ST_VALID: an STDEC has completed since reset. -/
  valid : Bool
  /-- ST_MODEL. -/
  model : Byte
  /-- ST_ERR1. -/
  err1 : Byte
  /-- ST_ERR2. -/
  err2 : Byte
  /-- ST_MEDIA_W. -/
  mediaW : Byte
  /-- ST_MEDIA_T. -/
  mediaT : Byte
  /-- ST_HASERR. -/
  hasErr : Bool
  /-- ST_DPI: 360 or 180, and 0 from reset. -/
  dpi : Word
deriving DecidableEq, Repr

/-- The content of a buffer: its written bytes by offset, offsets strictly rising. An offset that is not listed is
unwritten and holds no value (R23, R53, log entry 17). -/
abbrev Mem := List Host.Cell

/-- The four buffers, each an address space of its own (R40). -/
structure Memory where
  /-- PIX: the pixel buffer (R41). -/
  pix : Mem
  /-- LINE: the raster lines (R42). -/
  line : Mem
  /-- CBUF: one compressed line (R43). -/
  cbuf : Mem
  /-- STREC: one status record (R44). -/
  strec : Mem
deriving DecidableEq, Repr

/-- The names of the four address spaces (R40). -/
inductive Space where
  | pix
  | line
  | cbuf
  | strec
deriving DecidableEq, Repr

/-- The registers of the map of R15. -/
inductive Reg where
  | cmd
  | status
  | fault
  | geoWidthMm
  | geoWidthDots
  | geoPrintableDots
  | geoTotalPins
  | geoRightMarginPins
  | imgW
  | imgH
  | imgFmt
  | nlines
  | lb
  | srcOff
  | srcLen
  | clen
  | stValid
  | stModel
  | stErr1
  | stErr2
  | stMediaW
  | stMediaT
  | stHasErr
  | stDpi
deriving DecidableEq, Repr

/-- The raster protocol encoder at the boundary (R175). -/
structure Encoder where
  /-- The CommandStream: the job's bytes so far. -/
  stream : List Byte
  /-- The stream is built: no further appends. -/
  frozen : Bool
  /-- The parameter of the last compression-select record of the stream, if it has one (R186). -/
  lastSelect : Option Byte
deriving DecidableEq, Repr

/-- How a write through the transport ends: `send(bytes) -> ok|fail` (R192). The spec does not say when it fails, so the
outcome is an input, like the host's actions (log entry 24). -/
inductive SendOutcome where
  /-- `ok`: every byte was written. -/
  | ok
  /-- `fail`: a TransportError (R196, R203). At most `written` bytes went out before it. -/
  | fail (written : Nat)
deriving DecidableEq, Repr

/-- What comes back from a status fetch by each of the two transports (R193, R197): the bytes of the response, or none. It
is an input (log entry 24). -/
inductive FetchOutcome where
  /-- The network transport: out-of-band, nothing is sent in the stream of bytes (R193). -/
  | network (answer : Option (List Byte))
  /-- The USB transport: the status request is sent first (R178, R197); then what the reads gave by the deadline. -/
  | usb (request : SendOutcome) (answer : Option (List Byte))
deriving DecidableEq, Repr

/-- The errors that belong to the transport (R203, C6). They reach the caller unchanged (R204). -/
inductive TransportFailure where
  /-- TransportError: a failed or short write, a failed read, the poll deadline. -/
  | transportError
  /-- ProtocolError: a network response that is not exactly 32 bytes. -/
  | protocolError
deriving DecidableEq, Repr

/-- What a host can do, one action per step (R77; those after `reset` at the boundary, log entries 2, 4, 5, 16, 23, 24). -/
inductive HostAction where
  /-- `wr REG, v`, the register by its number. A write to CMD is a command. -/
  | writeReg (number : Nat) (value : Word)
  /-- `rd REG`. -/
  | readReg (number : Nat)
  /-- `wrm SPACE:off, b0 b1 ... bn`. -/
  | writeMem (space : Space) (off : Nat) (bytes : List Byte)
  /-- `rdm SPACE:off, n`. -/
  | readMem (space : Space) (off n : Nat)
  /-- `reset` (R230, R231). -/
  | reset
  /-- The reader of compressed lines starts on a new line: `out <- []` (R137). -/
  | startLine
  /-- The reader is given bytes of a compressed line; it reads one record a step (R137). -/
  | expand (bytes : List Byte)
  /-- The encoder is given protocol commands; it takes one a step (R175). -/
  | emit (bytes : List Byte)
  /-- The compressed line in CBUF becomes the payload of a raster-transfer record (R187, log entry 23). -/
  | emitLine
  /-- The raw raster line `LINE:x*LB` to `LINE:(x+1)*LB-1` becomes the payload of a raster-transfer record (R186). -/
  | emitRawLine (x : Nat)
  /-- The print information of the page in LINE, whose raster-line count is NLINES (R181, log entry 23). -/
  | emitPageInfo (info : PrintInfo)
  /-- A fresh encoder, for a new job: an encoder is single-use (R175). -/
  | newEncoder
  /-- `build()`: the stream is frozen (R175). -/
  | build
  /-- The built stream goes to the transport in one write, which ends so (R192, R200). -/
  | send (outcome : SendOutcome)
  /-- `status()`: `fetch_status()` alone (R192, R202). -/
  | fetchStatus (outcome : FetchOutcome)
  /-- `fetch_status()`, whose 32 bytes the host writes to STREC (R192). -/
  | loadStatus (outcome : FetchOutcome)
  /-- The host looks a geometry up in the Tape Geometry Table and loads its five fields into the GEO registers (R171). -/
  | loadGeometry (widthClass dpi : Nat)
deriving DecidableEq, Repr

/-- What the host was answered by the action it took last. -/
inductive Response where
  /-- Nothing: the action returns nothing. -/
  | nothing
  /-- The value of a register read. -/
  | value (v : Word)
  /-- The bytes of a buffer read, or of a status record fetched. -/
  | bytes (bs : List Byte)
  /-- The transport's `ok`: everything was sent (R192). -/
  | sent
  /-- The transport's `fail`, with its error (R192, R203). -/
  | failed (error : TransportFailure)
  /-- The encoder rejected the command and appended nothing (R185). -/
  | rejected
  /-- The Tape Geometry Table does not support the combination asked for (R171). -/
  | notSupported
deriving DecidableEq, Repr

/-- The machine. -/
structure State where
  /-- The open parameters (R7, R8): no step changes them. -/
  params : Params
  /-- STATUS.FAULTED (R16, R22). -/
  faulted : Bool
  /-- FAULT (R16, R211). -/
  fault : FaultCode
  /-- The GEO registers (R17). -/
  geo : Geometry
  /-- The IMG registers (R18). -/
  img : ImageRegs
  /-- NLINES (R19). -/
  nlines : Word
  /-- LB (R19). -/
  lb : Word
  /-- SRC_OFF (R20). -/
  srcOff : Word
  /-- SRC_LEN (R20). -/
  srcLen : Word
  /-- CLEN (R20). -/
  clen : Word
  /-- The ST registers (R21). -/
  st : StatusRegs
  /-- The buffers (R23). -/
  mem : Memory
  /-- Bytes the reader has expanded (R137). -/
  expOut : List Byte
  /-- The encoder (R175). -/
  enc : Encoder
  /-- Bytes that the transport has written, in order (R192). -/
  wire : List Byte
  /-- What the host is going to do, in order (the model's own field, log entry 2). -/
  host : List HostAction
  /-- What the host was answered last (the model's own field, log entry 2). -/
  response : Response
deriving DecidableEq, Repr

/-- Why the machine stops with a fault. The block's own faults are no stop: they are next states (R213). -/
inductive Fault where
  /-- Raised by the encoder's commands, by `build` and by `emitLine` after the stream was built: "further use is invalid"
  (R175), and no effect is given. Safe: a claim about such a use cannot be proved. -/
  | streamFrozen
  /-- Raised by RASTER_TRANSFER on a payload of more than 65535 bytes, which "cannot be sent" (R136, R187, log entry 18). Safe. -/
  | payloadTooLong
deriving DecidableEq, Repr

/-- Why there is no next state. But for the first, each is a situation the spec gives no meaning to (R223 for those of the
block). All are safe: nothing can be proved of what follows. -/
inductive Refusal where
  /-- The instruction has no meaning in this model yet; raised by exec's arms alone. -/
  | notModelled (mnemonic : String)
  /-- STDEC with a byte of STREC unwritten (R53, R90). -/
  | statusRecordUnwritten
  /-- RAST that would read an unwritten byte of PIX (R53, R105). -/
  | pixelUnwritten
  /-- COMP that would read an unwritten byte of LINE (R53, R130). -/
  | lineUnwritten
  /-- A host read of an unwritten byte (R53, R223). -/
  | hostReadUnwritten
  /-- A host access to a register number that is not in the map (R15, R223). -/
  | noSuchRegister (number : Nat)
  /-- A host access at or beyond the size of a buffer (R50, R223). -/
  | beyondBuffer (space : Space)
  /-- The reader was given a run of more than 129 or fewer than 2 bytes, or a literal of no byte or more than 128: no
  control byte means it (R71), and a run of 130 or more must not be given that meaning (R139). No words decode to it. -/
  | unreadableRecord
  /-- The reader was given a malformed line: it has no value (R137, log entry 19). -/
  | malformedLine (why : DecodeError)
  /-- The encoder was given bytes that begin no protocol command (R176 to R189 list them all, log entry 19). -/
  | notACommand (why : DecodeError)
  /-- The transport was to be sent a stream that `build` has not yielded (R175, log entry 19). -/
  | streamNotBuilt
deriving DecidableEq, Repr

/-- What an instruction or a step answers. -/
abbrev Result := Host.Outcome State Fault Refusal

/-- The values of the open parameters in `State.reset`: `RUN_MAX` the document's value (R7), each size the largest the
spec admits (R8). DESIGN CHOICE (log entry 1): no statement rests on them. -/
def resetParams : Params := ⟨255, 4294967295, 4294967295, 4294967295⟩

/-- The ST registers after reset (R24). -/
def resetStatus : StatusRegs := ⟨false, 0, 0, 0, 0, 0, false, 0⟩

/-- The buffers after reset: every byte unwritten (R24). -/
def resetMemory : Memory := ⟨[], [], [], []⟩

/-- An encoder nothing was appended to (R175). -/
def freshEncoder : Encoder := ⟨[], false, none⟩

/-- The machine after reset (R24, R230). The last five fields are not the block's (log entries 2, 4, 5). -/
def State.reset : State where
  params := resetParams
  faulted := false
  fault := .noFault
  geo := ⟨0, 0, 0, 0, 0⟩
  img := ⟨0, 0, 0⟩
  nlines := 0
  lb := 0
  srcOff := 0
  srcLen := 0
  clen := 0
  st := resetStatus
  mem := resetMemory
  expOut := []
  enc := freshEncoder
  wire := []
  host := []
  response := .nothing

end Sys2Proof.Machine
end

