-- ==== Sys2Proof/Machine/Ops.lean ====
section
/-! DEFINITION. The named operations over buffers and registers, and taking a block fault (R213) with its only way out,
reset (R215, R230). -/

namespace Sys2Proof.Machine

/-! ## Buffers -/

/-- The byte at an offset, `none` when it is unwritten (R23). -/
def memByte : Mem → Nat → Option Byte
  | [], _ => none
  | (k, v) :: rest, a => if k = a then some v else memByte rest a

/-- Store a byte at an offset. -/
def memPut : Mem → Nat → Byte → Mem
  | [], a, b => [(a, b)]
  | (k, v) :: rest, a, b =>
    if a < k then (a, b) :: (k, v) :: rest
    else if a = k then (a, b) :: rest
    else (k, v) :: memPut rest a b

/-- `MemRead(SPACE:off, n)` (R11), `none` when any of the bytes is unwritten (R53). -/
def memRead (m : Mem) (off : Nat) : Nat → Option (List Byte)
  | 0 => some []
  | n + 1 =>
    match memByte m off with
    | none => none
    | some b =>
      match memRead m (off + 1) n with
      | none => none
      | some bs => some (b :: bs)

/-- `MemWrite(SPACE:off, n, v)` with `n` the length of `v` (R11). -/
def memWrite : Mem → Nat → List Byte → Mem
  | m, _, [] => m
  | m, off, b :: bs => memWrite (memPut m off b) (off + 1) bs

/-- The canonical form of a buffer: offsets strictly rising. An unlisted byte has no value, so no entry can equal it. -/
def Mem.wf : Mem → Bool
  | [] => true
  | [_] => true
  | (k, _) :: (k', v') :: rest => decide (k < k') && Mem.wf ((k', v') :: rest)

/-- Every listed offset is below `size`. -/
def Mem.below (size : Nat) (m : Mem) : Bool := m.all fun c => decide (c.1 < size)

/-- All four buffers are in canonical form. -/
def Memory.wf (m : Memory) : Bool := Mem.wf m.pix && Mem.wf m.line && Mem.wf m.cbuf && Mem.wf m.strec

/-- A buffer by name. -/
def Memory.buf (m : Memory) : Space → Mem
  | .pix => m.pix
  | .line => m.line
  | .cbuf => m.cbuf
  | .strec => m.strec

/-- Replace a buffer by name. -/
def Memory.setBuf (m : Memory) (space : Space) (b : Mem) : Memory :=
  match space with
  | .pix => { m with pix := b }
  | .line => { m with line := b }
  | .cbuf => { m with cbuf := b }
  | .strec => { m with strec := b }

/-- The size of a buffer in bytes (R40). -/
def bufSize (p : Params) : Space → Nat
  | .pix => p.pixSize
  | .line => p.lineSize
  | .cbuf => p.cbufSize
  | .strec => Config.statusLen

/-! ## Registers -/

/-- The register of a number, by the map of R15. -/
def regOfNumber (number : Nat) : Option Reg :=
  if number = 0x00 then some .cmd
  else if number = 0x01 then some .status
  else if number = 0x02 then some .fault
  else if number = 0x10 then some .geoWidthMm
  else if number = 0x11 then some .geoWidthDots
  else if number = 0x12 then some .geoPrintableDots
  else if number = 0x13 then some .geoTotalPins
  else if number = 0x14 then some .geoRightMarginPins
  else if number = 0x20 then some .imgW
  else if number = 0x21 then some .imgH
  else if number = 0x22 then some .imgFmt
  else if number = 0x28 then some .nlines
  else if number = 0x29 then some .lb
  else if number = 0x30 then some .srcOff
  else if number = 0x31 then some .srcLen
  else if number = 0x38 then some .clen
  else if number = 0x40 then some .stValid
  else if number = 0x41 then some .stModel
  else if number = 0x42 then some .stErr1
  else if number = 0x43 then some .stErr2
  else if number = 0x44 then some .stMediaW
  else if number = 0x45 then some .stMediaT
  else if number = 0x46 then some .stHasErr
  else if number = 0x47 then some .stDpi
  else none

/-- The number of a register in the map of R15. -/
def Reg.number : Reg → Nat
  | .cmd => 0x00
  | .status => 0x01
  | .fault => 0x02
  | .geoWidthMm => 0x10
  | .geoWidthDots => 0x11
  | .geoPrintableDots => 0x12
  | .geoTotalPins => 0x13
  | .geoRightMarginPins => 0x14
  | .imgW => 0x20
  | .imgH => 0x21
  | .imgFmt => 0x22
  | .nlines => 0x28
  | .lb => 0x29
  | .srcOff => 0x30
  | .srcLen => 0x31
  | .clen => 0x38
  | .stValid => 0x40
  | .stModel => 0x41
  | .stErr1 => 0x42
  | .stErr2 => 0x43
  | .stMediaW => 0x44
  | .stMediaT => 0x45
  | .stHasErr => 0x46
  | .stDpi => 0x47

/-- The code of a fault, as FAULT holds it (R211). -/
def FaultCode.code : FaultCode → Word
  | .noFault => 0
  | .illegalCmd => 1
  | .badFormat => 2
  | .badGeometry => 3
  | .geometryMismatch => 4
  | .capacity => 5

/-- A one-bit flag as a register holds it: bit 0, bits 31:1 zero (R15). -/
def flagWord (b : Bool) : Word := if b then 1 else 0

/-- A host read of a register (R15). CMD reads 0. A field narrower than 32 bits stands in the low bits, the upper bits
read 0. -/
def readReg (s : State) : Reg → Word
  | .cmd => 0
  | .status => flagWord s.faulted
  | .fault => s.fault.code
  | .geoWidthMm => s.geo.widthMm
  | .geoWidthDots => s.geo.widthDots
  | .geoPrintableDots => s.geo.printableDots
  | .geoTotalPins => s.geo.totalPins
  | .geoRightMarginPins => s.geo.rightMarginPins
  | .imgW => s.img.width
  | .imgH => s.img.height
  | .imgFmt => s.img.fmt
  | .nlines => s.nlines
  | .lb => s.lb
  | .srcOff => s.srcOff
  | .srcLen => s.srcLen
  | .clen => s.clen
  | .stValid => flagWord s.st.valid
  | .stModel => s.st.model.setWidth 32
  | .stErr1 => s.st.err1.setWidth 32
  | .stErr2 => s.st.err2.setWidth 32
  | .stMediaW => s.st.mediaW.setWidth 32
  | .stMediaT => s.st.mediaT.setWidth 32
  | .stHasErr => flagWord s.st.hasErr
  | .stDpi => s.st.dpi

/-- The registers a host write changes: those marked RW (R15). -/
def Reg.writable : Reg → Bool
  | .geoWidthMm | .geoWidthDots | .geoPrintableDots | .geoTotalPins | .geoRightMarginPins => true
  | .imgW | .imgH | .imgFmt | .srcOff | .srcLen => true
  | .cmd | .status | .fault | .nlines | .lb | .clen => false
  | .stValid | .stModel | .stErr1 | .stErr2 | .stMediaW | .stMediaT | .stHasErr | .stDpi => false

/-- A host write of a register's stored value (R15): a register marked RW takes any value, a write to a register marked R
is ignored. CMD stores nothing (R16); the operation a CMD write starts is `runCommand`. -/
def writeReg (s : State) (r : Reg) (v : Word) : State :=
  match r with
  | .geoWidthMm => { s with geo := { s.geo with widthMm := v } }
  | .geoWidthDots => { s with geo := { s.geo with widthDots := v } }
  | .geoPrintableDots => { s with geo := { s.geo with printableDots := v } }
  | .geoTotalPins => { s with geo := { s.geo with totalPins := v } }
  | .geoRightMarginPins => { s with geo := { s.geo with rightMarginPins := v } }
  | .imgW => { s with img := { s.img with width := v } }
  | .imgH => { s with img := { s.img with height := v } }
  | .imgFmt => { s with img := { s.img with fmt := v } }
  | .srcOff => { s with srcOff := v }
  | .srcLen => { s with srcLen := v }
  | .cmd | .status | .fault | .nlines | .lb | .clen => s
  | .stValid | .stModel | .stErr1 | .stErr2 | .stMediaW | .stMediaT | .stHasErr | .stDpi => s

/-! ## Faults of the block -/

/-- `raise F`: STATUS.FAULTED <- 1, FAULT <- code of F, nothing else changes and nothing is saved (R213). -/
def raise (c : FaultCode) (s : State) : State := { s with faulted := true, fault := c }

/-- An operation of the block: ignored while STATUS.FAULTED = 1 (R160, R216). -/
def unlessFaulted (s : State) (operation : Result) : Result := if s.faulted then .next s else operation

/-- Reset of the block, the only way out of a fault (R215, R230): every register 0, every byte unwritten. The parameters
are no state of the block (R25) and the surroundings are outside it (log entry 10). -/
def resetBlock (s : State) : State :=
  { s with
    faulted := false
    fault := .noFault
    geo := ⟨0, 0, 0, 0, 0⟩
    img := ⟨0, 0, 0⟩
    nlines := 0
    lb := 0
    srcOff := 0
    srcLen := 0
    clen := 0
    st := resetStatus
    mem := resetMemory }

/-! ## The reader and the encoder -/

/-- The reader appends bytes to what it has expanded (R137). -/
def appendExpanded (s : State) (bytes : List Byte) : State := { s with expOut := s.expOut ++ bytes }

/-- The encoder appends bytes to the CommandStream (R175). -/
def appendStream (s : State) (bytes : List Byte) : State :=
  { s with enc := { s.enc with stream := s.enc.stream ++ bytes } }

/-- The transport writes bytes (R192). -/
def appendWire (s : State) (bytes : List Byte) : State := { s with wire := s.wire ++ bytes }

/-- The bytes of a write that went out: all of them, or those before the failure (R192, R196). -/
def SendOutcome.written (outcome : SendOutcome) (bytes : List Byte) : List Byte :=
  match outcome with
  | .ok => bytes
  | .fail n => bytes.take n

/-- `send(bytes) -> ok|fail` (R192): what went out, and the answer. A failed write is a TransportError and is not retried
(R196, R203, R204). -/
def transmit (s : State) (bytes : List Byte) (outcome : SendOutcome) : State × Response :=
  (appendWire s (outcome.written bytes),
    match outcome with
    | .ok => .sent
    | .fail _ => .failed .transportError)

/-- A command of the encoder: invalid once the stream is built (R175). -/
def unlessFrozen (s : State) (command : Result) : Result := if s.enc.frozen then .fault .streamFrozen else command

/-- The host is answered. -/
def respond (s : State) (r : Response) : State := { s with response := r }

end Sys2Proof.Machine
end

