-- ==== Sys2Proof/Machine/Operands.lean ====
section
/-! DEFINITION. The operand forms: pixel formats and their gray value (R64, R107 to R110), where a pixel stands (R41), the
printable band (R112, R113) and the pins of a line (R45, R114). -/

namespace Sys2Proof.Machine

/-- The pixel formats (R64). -/
inductive PixelFormat where
  /-- IMG_FMT 0, one byte `g`. -/
  | gray8
  /-- IMG_FMT 1, three bytes `r g b`. -/
  | rgb8
  /-- IMG_FMT 2, four bytes `r g b a`. -/
  | rgba8
deriving DecidableEq, Repr

/-- The format of an IMG_FMT value; 3 and above are reserved (R64, R65). -/
def pixelFormat (fmt : Word) : Option PixelFormat :=
  if fmt = 0 then some .gray8 else if fmt = 1 then some .rgb8 else if fmt = 2 then some .rgba8 else none

/-- Bytes per pixel (R41, R64). -/
def PixelFormat.bpp : PixelFormat → Nat
  | .gray8 => 1
  | .rgb8 => 3
  | .rgba8 => 4

/-- The channel mean, rounded down: the spec's decided default (R108, log entry 11). -/
def grayRgb (r g b : Nat) : Nat := (r + g + b) / 3

/-- A channel composited over white, rounded down: the spec's decided default (R109, log entry 11). -/
def composite (c a : Nat) : Nat := (c * a + 255 * (255 - a)) / 255

/-- The gray value of a pixel (R107, R108, R109). `none` only for a byte sequence that is no pixel of the format. -/
def gray : PixelFormat → List Byte → Option Nat
  | .gray8, [g] => some g.toNat
  | .rgb8, [r, g, b] => some (grayRgb r.toNat g.toNat b.toNat)
  | .rgba8, [r, g, b, a] =>
    some (grayRgb (composite r.toNat a.toNat) (composite g.toNat a.toNat) (composite b.toNat a.toNat))
  | _, _ => none

/-- A pixel is printed when its gray value is below THRESH (R110). -/
def printed (f : PixelFormat) (pixel : List Byte) : Bool :=
  match gray f pixel with
  | some v => decide (v < Config.thresh)
  | none => false

/-- The offset of pixel `(x, y)` in PIX: rows one after another, no padding (R41). -/
def pixelOffset (f : PixelFormat) (w x y : Nat) : Nat := (y * w + x) * f.bpp

/-- The bytes of pixel `(x, y)` in the bytes of the image (R41). -/
def pixelBytes (f : PixelFormat) (w : Nat) (image : List Byte) (x y : Nat) : List Byte :=
  (image.drop (pixelOffset f w x y)).take f.bpp

/-- The first printable row: the band is centred, the odd dot going below. The spec's decided default (R112, log entry
11). -/
def rowMargin (widthDots printableDots : Nat) : Nat := (widthDots - printableDots) / 2

/-- The mask of pin `n` within its byte: `0x80 >> (n mod 8)` (R45). -/
def pinMask (n : Nat) : Byte := (0x80 : Byte) >>> (n % 8)

/-- Set pin `n` of a line (R114). -/
def setPin (line : List Byte) (n : Nat) : List Byte := line.modify (n / 8) fun b => b ||| pinMask n

/-- Pin `n` of a line is printed: bit `7 - (n mod 8)` of byte `n div 8` (R45). -/
def pinSet (line : List Byte) (n : Nat) : Bool :=
  match line.drop (n / 8) with
  | b :: _ => b.getLsbD (7 - n % 8)
  | [] => false

end Sys2Proof.Machine
end

