-- ==== Sys2Proof/Machine/Flags.lean ====
section
/-! DEFINITION. The two results that STDEC computes (R92, R93), and the kinds of error the host reads from the error bytes
(R97, R98). The third flag, STATUS.FAULTED, is set by `raise`. The block has no condition codes (R22). -/

namespace Sys2Proof.Machine

/-- `has_errors()`: either error byte nonzero; every one of the 16 bits counts (R92). -/
def hasErrors (err1 err2 : Byte) : Bool := err1 != 0 || err2 != 0

/-- `printer_dpi()` of a model id (R93). -/
def printerDpi (model : Byte) : Word :=
  if model ∈ Config.dpi180Ids then 180 else if model ∈ Config.dpi360Ids then 360 else Config.dpiDefault

/-- The document's error kinds, and "unnamed" for a bit that has none (R76, R97). -/
inductive ErrKind where
  | noMedia
  | endOfMedia
  | cutterJam
  | lowBattery
  | printerBusy
  | highVoltageAdapter
  | wrongMedia
  | bufferFullFirst
  | bufferFullSecond
  | coverOpen
  | overheating
  | leaderMarkMissing
  | systemError
  | unnamed
deriving DecidableEq, Repr

/-- The default `ERRKIND` table: for each byte the kinds of its bits 0 to 7. PRESUMED: the positions are the spec's
general knowledge, not the document's (R97, log entry 12). -/
def defaultErrKinds : List ErrKind × List ErrKind :=
  ([.noMedia, .endOfMedia, .cutterJam, .lowBattery, .printerBusy, .unnamed, .highVoltageAdapter, .unnamed],
   [.wrongMedia, .bufferFullFirst, .unnamed, .bufferFullSecond, .coverOpen, .overheating, .leaderMarkMissing,
    .systemError])

/-- The kinds of the set bits of one error byte, from bit `bit` upward. -/
def kindsOfByte (e : Byte) : Nat → List ErrKind → List ErrKind
  | _, [] => []
  | bit, k :: ks => if e.getLsbD bit then k :: kindsOfByte e (bit + 1) ks else kindsOfByte e (bit + 1) ks

/-- `error_kinds`: the kinds over every set bit of both error bytes, under an `ERRKIND` table (R98). It is no register:
the host computes it from ST_ERR1 and ST_ERR2. -/
def errorKinds (table : List ErrKind × List ErrKind) (err1 err2 : Byte) : List ErrKind :=
  kindsOfByte err1 0 table.1 ++ kindsOfByte err2 0 table.2

end Sys2Proof.Machine
end

