-- ==== Sys2Proof/Machine/Compressor.lean ====
section
/-! DEFINITION. The raster line compressor: operation COMP (R130 to R136), and the reference expander that the round trip
is stated with (R137). -/

namespace Sys2Proof.Machine

/-- A repeat-run exists at the start of these bytes: there are two and they are equal (R131). -/
def repeatAt : List Byte → Bool
  | b :: c :: _ => b == c
  | _ => false

/-- How many of the next bytes equal `v`, at most `cap` (the inner loop of `RUN` in R134). -/
def runMore (v : Byte) : Nat → List Byte → Nat
  | 0, _ => 0
  | _ + 1, [] => 0
  | cap + 1, b :: rest => if b = v then runMore v cap rest + 1 else 0

/-- How many of the next bytes a literal takes, at most `cap`: it stops where a repeat-run exists (the inner loop of `LIT`
in R134; R133 as C1 resolves it). -/
def litMore : Nat → List Byte → Nat
  | 0, _ => 0
  | _ + 1, [] => 0
  | cap + 1, b :: rest => if repeatAt (b :: rest) then 0 else litMore cap rest + 1

/-- The record chosen at a scan position whose byte is `b` and after which `rest` follows (R131 to R134). -/
def recordAt (runMax : Nat) (b : Byte) (rest : List Byte) : Record :=
  if repeatAt (b :: rest) then .run (2 + runMore b (runMax - 2) (rest.drop 1)) b
  else .lit (b :: rest.take (litMore (Config.litMax - 1) rest))

/-- How many source bytes a record stands for (R131). -/
def recordCount : Record → Nat
  | .run len _ => len
  | .lit data => data.length

/-- The source bytes a record stands for (R69, R70). -/
def recordBytes : Record → List Byte
  | .run len value => List.replicate len value
  | .lit data => data

/-- The scan, with a bound on the number of records: every record stands for at least one byte (R161). -/
def scanRecords (runMax : Nat) : Nat → List Byte → List Record
  | 0, _ => []
  | _ + 1, [] => []
  | bound + 1, b :: rest =>
    recordAt runMax b rest :: scanRecords runMax bound ((b :: rest).drop (recordCount (recordAt runMax b rest)))

/-- The records of a source, in order (R131). -/
def compressRecords (runMax : Nat) (src : List Byte) : List Record := scanRecords runMax src.length src

/-- `compress(src)` (R134). -/
def compress (runMax : Nat) (src : List Byte) : List Byte := (compressRecords runMax src).flatMap encodeRecord

/-- `expand`, with a bound on the number of records. -/
def expandUpTo : Nat → List Byte → Option (List Byte)
  | _, [] => some []
  | 0, _ :: _ => none
  | bound + 1, c :: rest =>
    match readRecord (c :: rest) with
    | .error _ => none
    | .ok (r, rest') =>
      match expandUpTo bound rest' with
      | none => none
      | some out => some (recordBytes r ++ out)

/-- `expand(s)` (R137): `none` when `s` is malformed. Every record is at least one byte, so the bound is never met. -/
def expand (line : List Byte) : Option (List Byte) := expandUpTo line.length line

/-- The state after a COMP that completes (R130, R136): the output at `CBUF:0`, then CLEN. -/
def compDone (s : State) (out : List Byte) : State :=
  { s with mem := { s.mem with cbuf := memWrite s.mem.cbuf 0 out }, clen := BitVec.ofNat 32 out.length }

/-- COMP (R134): the window check, the refusal, the output-size check, in this order (R136, R214). -/
def execComp (s : State) : Result :=
  unlessFaulted s <|
    if s.srcOff.toNat + s.srcLen.toNat > s.params.lineSize then .next (raise .capacity s)
    else
      match memRead s.mem.line s.srcOff.toNat s.srcLen.toNat with
      | none => .refused .lineUnwritten
      | some src =>
        if (compress s.params.runMax src).length > s.params.cbufSize then .next (raise .capacity s)
        else .next (compDone s (compress s.params.runMax src))

end Sys2Proof.Machine
end

