-- ==== Sys2Proof/Machine/Protocol.lean ====
section
/-! DEFINITION. The commands of the printer protocol, as commands of the encoder at the boundary (R175 to R190): each
appends its record to the CommandStream. The encoder is outside the block: STATUS.FAULTED does not stop it. It enforces no
order (log entry 6); which streams are in order says `Sys2Proof.Machine.jobInOrder`. -/

namespace Sys2Proof.Machine

/-- The encoder appends the record of a command (R175). -/
def encodeInto (s : State) (i : Instr) : Result := unlessFrozen s (.next (appendStream s (encodeBytes i)))

/-- INVALIDATE (R176). -/
def execInvalidate (s : State) : Result := encodeInto s .invalidate

/-- INITIALIZE (R177); it leaves the selection of compression alone (log entry 22). -/
def execInitPrinter (s : State) : Result := encodeInto s .initPrinter

/-- STATUS_REQUEST: no part of a job's stream; it is sent through the transport (R178, R197). -/
def execStatusRequest (s : State) : Result := .next (appendWire s (encodeBytes .statusRequest))

/-- MODE_SWITCH (R179). -/
def execModeSwitch (mode : Byte) (s : State) : Result := encodeInto s (.modeSwitch mode)

/-- PRINT_INFO (R180, R181). -/
def execPrintInfo (info : PrintInfo) (s : State) : Result := encodeInto s (.printInfo info)

/-- VARIOUS_MODE (R182). -/
def execVariousMode (bits : Byte) (s : State) : Result := encodeInto s (.variousMode bits)

/-- PAGE_NUMBER (R183). -/
def execPageNumber (cutInterval : Byte) (s : State) : Result := encodeInto s (.pageNumber cutInterval)

/-- ADVANCED_MODE (R184). -/
def execAdvancedMode (bits : Byte) (s : State) : Result := encodeInto s (.advancedMode bits)

/-- MARGIN: an amount of 0 "is rejected by validation, not silently encoded" (R185); the caller is told and nothing is
appended (log entry 7). -/
def execMargin (dots : BitVec 16) (s : State) : Result :=
  if dots = 0 then unlessFrozen s (.next (respond s .rejected)) else encodeInto s (.margin dots)

/-- COMPRESSION_SELECT: the record, and what it says "for subsequent transfers" (R186). -/
def execCompressionSelect (mode : Byte) (s : State) : Result :=
  encodeInto { s with enc := { s.enc with lastSelect := some mode } } (.compressionSelect mode)

/-- RASTER_TRANSFER: a payload of more than 65535 bytes cannot be sent (R136, R187, log entry 18). -/
def execRasterTransfer (payload : List Byte) (s : State) : Result :=
  if (Instr.rasterTransfer payload).wf then encodeInto s (.rasterTransfer payload) else .fault .payloadTooLong

/-- PRINT (R188). -/
def execPrint (s : State) : Result := encodeInto s .print

/-- PRINT_FEED (R189). -/
def execPrintFeed (s : State) : Result := encodeInto s .printFeed

/-! ## A whole job -/

/-- The item number of a command in a job's stream (R176 to R189); a status request is in no job (R178). -/
def jobItem : Instr → Option Nat
  | .invalidate => some 1
  | .initPrinter => some 2
  | .modeSwitch _ => some 3
  | .printInfo _ => some 4
  | .variousMode _ => some 5
  | .pageNumber _ => some 6
  | .advancedMode _ => some 7
  | .margin _ => some 8
  | .compressionSelect _ => some 9
  | .rasterTransfer _ => some 10
  | .print => some 11
  | .printFeed => some 11
  | .stdec => none
  | .rast => none
  | .comp => none
  | .run _ _ => none
  | .lit _ => none
  | .statusRequest => none

/-- The items of an exact stream with `transfers` raster transfers (R190). -/
def jobItems (transfers : Nat) : List (Option Nat) :=
  [some 1, some 2, some 3, some 4, some 5, some 6, some 7, some 8, some 9] ++ List.replicate transfers (some 10)
    ++ [some 11]

/-- The commands stand in the exact order of R190: nine commands once each, the raster transfers, one terminal command. -/
def jobInOrder (commands : List Instr) : Bool := commands.map jobItem == jobItems (commands.length - 10)

/-- The commands of a byte stream, with a bound on their number; `none` when the bytes are no sequence of commands. -/
def commandsUpTo : Nat → List Byte → Option (List Instr)
  | _, [] => some []
  | 0, _ :: _ => none
  | bound + 1, c :: rest =>
    match decodeProtocol (c :: rest) with
    | .error _ => none
    | .ok (i, rest') =>
      match commandsUpTo bound rest' with
      | none => none
      | some more => some (i :: more)

/-- The payload of a command that transfers a raster line (R187). -/
def transferPayload : Instr → Option (List Byte)
  | .rasterTransfer payload => some payload
  | .stdec | .rast | .comp | .run _ _ | .lit _ | .invalidate | .initPrinter | .statusRequest | .modeSwitch _ => none
  | .printInfo _ | .variousMode _ | .pageNumber _ | .advancedMode _ | .margin _ | .compressionSelect _ => none
  | .print | .printFeed => none

/-- The select byte in force after a command, given the one before it (R186). -/
def selectAfter (select : Option Byte) : Instr → Option Byte
  | .compressionSelect mode => some mode
  | .stdec | .rast | .comp | .run _ _ | .lit _ | .invalidate | .initPrinter | .statusRequest | .modeSwitch _ => select
  | .printInfo _ | .variousMode _ | .pageNumber _ | .advancedMode _ | .margin _ | .rasterTransfer _ => select
  | .print | .printFeed => select

/-- How many raster lines the commands transfer (R187). -/
def transferCount (commands : List Instr) : Nat := (commands.filterMap transferPayload).length

/-- The fields that the spec fixes in the commands of a job with `lines` raster lines: the mode switch selects raster mode
(R179), print information counts the lines (R181), the margin is not 0 (R185). -/
def fieldsExact (lines : Nat) : Instr → Bool
  | .modeSwitch mode => mode == Config.rasterMode
  | .printInfo info => info.rasterLines.toNat == lines
  | .margin dots => dots != 0
  | .stdec | .rast | .comp | .run _ _ | .lit _ | .invalidate | .initPrinter | .statusRequest => true
  | .variousMode _ | .pageNumber _ | .advancedMode _ | .compressionSelect _ | .rasterTransfer _ => true
  | .print | .printFeed => true

/-- The commands are one whole job: in the exact order (R190) and with the fields the spec fixes (R179, R181, R185). -/
def jobExact (commands : List Instr) : Bool :=
  jobInOrder commands && commands.all (fieldsExact (transferCount commands))

/-- The stream is one whole job in the exact order of R190, with the fields the spec fixes (R179, R181, R185). -/
def streamInOrder (stream : List Byte) : Bool :=
  match commandsUpTo stream.length stream with
  | none => false
  | some commands => jobExact commands

/-! ## The raster lines of a page and their payloads -/

/-- The payload of a raster line under the select byte in force (R186, R187, R239): with compression enabled the output of
COMP, with compression disabled the raw line, which has `LB` bytes; before any select there is none. -/
def payloadFor (runMax lb : Nat) (select : Option Byte) (line : List Byte) : Option (List Byte) :=
  match select with
  | none => none
  | some mode =>
    if Config.selectEnables mode then some (compress runMax line)
    else if line.length = lb then some line
    else none

/-- The payloads of lines, in their order. -/
def payloadsFor (runMax lb : Nat) (select : Option Byte) : List (List Byte) → Option (List (List Byte))
  | [] => some []
  | line :: more =>
    match payloadFor runMax lb select line with
    | none => none
    | some payload =>
      match payloadsFor runMax lb select more with
      | none => none
      | some payloads => some (payload :: payloads)

/-- The commands transfer exactly these lines in their order (R187), each with the payload that the select byte then in
force asks for (R186, R239). -/
def transfersMatch (runMax lb : Nat) : Option Byte → List Instr → List (List Byte) → Bool
  | _, [], lines => lines.isEmpty
  | select, i :: more, lines =>
    match transferPayload i with
    | none => transfersMatch runMax lb (selectAfter select i) more lines
    | some payload =>
      match lines with
      | [] => false
      | line :: lines' =>
        payloadFor runMax lb select line == some payload && transfersMatch runMax lb (selectAfter select i) more lines'

/-- The stream is one whole job (R190) that prints these raster lines (R186, R187). -/
def streamPrintsLines (runMax lb : Nat) (lines : List (List Byte)) (stream : List Byte) : Bool :=
  match commandsUpTo stream.length stream with
  | none => false
  | some commands => jobExact commands && transfersMatch runMax lb none commands lines

/-- `n` raster lines of `lb` bytes from line `x` on, `none` when a byte of them is unwritten (R42). -/
def readLines (line : Mem) (lb : Nat) : Nat → Nat → Option (List (List Byte))
  | _, 0 => some []
  | x, n + 1 =>
    match memRead line (x * lb) lb with
    | none => none
    | some first =>
      match readLines line lb (x + 1) n with
      | none => none
      | some more => some (first :: more)

/-- The raster lines of the page that the block holds: NLINES lines of LB bytes, column 0 first (R42, R116, R117). -/
def pageLines (s : State) : Option (List (List Byte)) := readLines s.mem.line s.lb.toNat 0 s.nlines.toNat

/-- Print information for the page that the block holds: its count is NLINES (R181). -/
def pageInfo (s : State) (info : PrintInfo) : PrintInfo := { info with rasterLines := s.nlines }

/-- The parameters of the commands of one job (R180 to R186). The mode code is no parameter: a job selects raster mode
(R179). -/
structure JobParams where
  /-- Print information (R180). Its raster-line count is not used: the job has its own (R181). -/
  info : PrintInfo
  /-- Various-mode byte (R182). -/
  various : Byte
  /-- Cut interval (R183). -/
  cutInterval : Byte
  /-- Advanced-mode byte (R184). -/
  advanced : Byte
  /-- Margin in dots (R185). -/
  marginDots : BitVec 16
  /-- Compression-select byte (R186). -/
  select : Byte
deriving DecidableEq, Repr

/-- The terminal command: print when continuous, print with feed for the final or only label (R188, R189, R200). -/
def terminalCommand (continuous : Bool) : Instr := if continuous then .print else .printFeed

/-- The commands of one job in the exact order of R190: raster mode (R179), a count of as many lines as there are payloads
(R181), one raster transfer per payload in their order (R187). -/
def jobCommands (p : JobParams) (payloads : List (List Byte)) (continuous : Bool) : List Instr :=
  [.invalidate, .initPrinter, .modeSwitch Config.rasterMode,
    .printInfo { p.info with rasterLines := BitVec.ofNat 32 payloads.length }, .variousMode p.various,
    .pageNumber p.cutInterval, .advancedMode p.advanced, .margin p.marginDots, .compressionSelect p.select]
    ++ payloads.map Instr.rasterTransfer ++ [terminalCommand continuous]

/-- The commands of the job that prints the page the block holds (R164, R181, R186, R187): one transfer per raster line,
in column order, each payload as the job's own select byte asks. `none` when a byte of a line is unwritten. -/
def jobOfPage (s : State) (p : JobParams) (continuous : Bool) : Option (List Instr) :=
  match pageLines s with
  | none => none
  | some lines =>
    match payloadsFor s.params.runMax s.lb.toNat (some p.select) lines with
    | none => none
    | some payloads => some (jobCommands p payloads continuous)

end Sys2Proof.Machine
end

