-- ==== Sys2Proof/Machine/Rasterizer.lean ====
section
/-! DEFINITION. The bitmap rasterizer: operation RAST (R105 to R118). -/

namespace Sys2Proof.Machine

/-- Bytes per raster line, `total_pins div 8` (R67, R105). -/
def lineBytes (g : Geometry) : Nat := g.totalPins.toNat / 8

/-- Bytes of the image in PIX, `W*H*bpp`, over unbounded numbers (R105, R106). -/
def imageBytes (img : ImageRegs) (f : PixelFormat) : Nat := img.width.toNat * img.height.toNat * f.bpp

/-- The geometry conditions of R106 (2): the two invariants of a TapeGeometry (R17) and whole bytes per line (R48). -/
def geometryValid (g : Geometry) : Bool :=
  decide (g.printableDots.toNat ≤ g.widthDots.toNat)
    && decide (g.rightMarginPins.toNat + g.printableDots.toNat ≤ g.totalPins.toNat)
    && decide (g.totalPins.toNat % 8 = 0)

/-- The checks of RAST in the order of R106 and R214: the first that fails decides the fault. With none failing, the
pixel format. -/
def rastCheck (p : Params) (g : Geometry) (img : ImageRegs) : Except FaultCode PixelFormat :=
  match pixelFormat img.fmt with
  | none => .error .badFormat
  | some f =>
    if geometryValid g = false then .error .badGeometry
    else if img.height ≠ g.widthDots then .error .geometryMismatch
    else if imageBytes img f > p.pixSize ∨ img.width.toNat * lineBytes g > p.lineSize then .error .capacity
    else .ok f

/-- Row `k` of the printable band of column `x` of an image `w` pixels wide: set pin `rm + k` if the pixel is printed
(R113, R114). -/
def placePixel (g : Geometry) (f : PixelFormat) (w : Nat) (image : List Byte) (x : Nat) (line : List Byte) (k : Nat) :
    List Byte :=
  if printed f (pixelBytes f w image x (rowMargin g.widthDots.toNat g.printableDots.toNat + k)) then
    setPin line (g.rightMarginPins.toNat + k)
  else line

/-- The raster line of column `x` (R111 to R115): zeros, then the printable rows in ascending order. -/
def rasterLine (g : Geometry) (f : PixelFormat) (w : Nat) (image : List Byte) (x : Nat) : List Byte :=
  (List.range g.printableDots.toNat).foldl (placePixel g f w image x) (List.replicate (lineBytes g) 0)

/-- Store the lines of columns `0` to `w - 1` in ascending order, line `x` at `LINE:x*LB` (R116). -/
def storeLines (g : Geometry) (f : PixelFormat) (w : Nat) (image : List Byte) (line : Mem) : Mem :=
  (List.range w).foldl (fun m x => memWrite m (x * lineBytes g) (rasterLine g f w image x)) line

/-- The state after a RAST that completes (R105, R117): the lines, then NLINES and LB. -/
def rastDone (s : State) (f : PixelFormat) (image : List Byte) : State :=
  { s with
    mem := { s.mem with line := storeLines s.geo f s.img.width.toNat image s.mem.line }
    nlines := s.img.width
    lb := BitVec.ofNat 32 (lineBytes s.geo) }

/-- RAST (R118). It is refused if any byte of the image is unwritten, rows outside the band included (R53, R105); its
faults come before that refusal (R214). -/
def execRast (s : State) : Result :=
  unlessFaulted s <|
    match rastCheck s.params s.geo s.img with
    | .error c => .next (raise c s)
    | .ok f =>
      match memRead s.mem.pix 0 (imageBytes s.img f) with
      | none => .refused .pixelUnwritten
      | some image => .next (rastDone s f image)

end Sys2Proof.Machine
end

