-- ==== Sys2Proof/Machine/Reader.lean ====
section
/-! DEFINITION. The records of a compressed line as instructions of their reader: one iteration of the loop of `expand`
(R137). The reader is outside the block (log entry 4). -/

namespace Sys2Proof.Machine

/-- A record that some control byte means (R71), expanded (R137). A run of 130 bytes or more must not be given that
meaning (R139). -/
def readerTakes (s : State) (i : Instr) (r : Record) : Result :=
  if i.wf then .next (appendExpanded s (recordBytes r)) else .refused .unreadableRecord

/-- RUN: append `len` copies of `value` (R137). -/
def execRun (len : Nat) (value : Byte) (s : State) : Result := readerTakes s (.run len value) (.run len value)

/-- LIT: append the data bytes (R137). -/
def execLit (data : List Byte) (s : State) : Result := readerTakes s (.lit data) (.lit data)

end Sys2Proof.Machine
end

