-- ==== Sys2Proof/Machine/StatusDecoder.lean ====
section
/-! DEFINITION. The status decoder: operation STDEC (R90 to R96). -/

namespace Sys2Proof.Machine

/-- Byte `k` of a status record. A record has 32 bytes and every offset used is below 32, so the 0 for an absent byte is
never the answer. -/
def recordByte (record : List Byte) (k : Nat) : Byte := record.getD k 0

/-- What STDEC writes to the ST registers for a status record: five bytes taken whole (R91), the two computed results
(R92, R93) and ST_VALID (R21). -/
def decodeStatus (record : List Byte) : StatusRegs where
  valid := true
  model := recordByte record Config.offModel
  err1 := recordByte record Config.offErr1
  err2 := recordByte record Config.offErr2
  mediaW := recordByte record Config.offMediaW
  mediaT := recordByte record Config.offMediaT
  hasErr := hasErrors (recordByte record Config.offErr1) (recordByte record Config.offErr2)
  dpi := printerDpi (recordByte record Config.offModel)

/-- STDEC (R90). It raises no fault; with any of the 32 bytes unwritten it is refused (R53). -/
def execStdec (s : State) : Result :=
  unlessFaulted s <|
    match memRead s.mem.strec 0 Config.statusLen with
    | none => .refused .statusRecordUnwritten
    | some record => .next { s with st := decodeStatus record }

end Sys2Proof.Machine
end

