-- ==== Sys2Proof/Machine/Dispatch.lean ====
section
/-! DEFINITION. What each instruction does: one call of its meaning. -/

namespace Sys2Proof.Machine

def exec (i : Instr) (s : State) : Host.Outcome State Fault Refusal :=
  match i with
  | .stdec => Sys2Proof.Machine.execStdec s
  | .rast => Sys2Proof.Machine.execRast s
  | .comp => Sys2Proof.Machine.execComp s
  | .run len value => Sys2Proof.Machine.execRun len value s
  | .lit data => Sys2Proof.Machine.execLit data s
  | .invalidate => Sys2Proof.Machine.execInvalidate s
  | .initPrinter => Sys2Proof.Machine.execInitPrinter s
  | .statusRequest => Sys2Proof.Machine.execStatusRequest s
  | .modeSwitch mode => Sys2Proof.Machine.execModeSwitch mode s
  | .printInfo info => Sys2Proof.Machine.execPrintInfo info s
  | .variousMode bits => Sys2Proof.Machine.execVariousMode bits s
  | .pageNumber cutInterval => Sys2Proof.Machine.execPageNumber cutInterval s
  | .advancedMode bits => Sys2Proof.Machine.execAdvancedMode bits s
  | .margin dots => Sys2Proof.Machine.execMargin dots s
  | .compressionSelect mode => Sys2Proof.Machine.execCompressionSelect mode s
  | .rasterTransfer payload => Sys2Proof.Machine.execRasterTransfer payload s
  | .print => Sys2Proof.Machine.execPrint s
  | .printFeed => Sys2Proof.Machine.execPrintFeed s

end Sys2Proof.Machine
end

