-- ==== Sys2Proof/Machine/GeometryTable.lean ====
section
/-! DEFINITION. The Tape Geometry Table at the boundary (R171, R172, R174). It is outside the block; the host uses it to
fill the GEO registers. -/

namespace Sys2Proof.Machine

/-- What the spec says of every row: `right_margin_pins + printable_dots <= total_pins` (R174), the other invariant of a
TapeGeometry, `printable_dots <= width_dots`, and that `total_pins` is "eight times the raster line length" (R66). -/
def rowValid (r : GeometryRow) : Bool :=
  decide (r.geometry.printableDots.toNat ≤ r.geometry.widthDots.toNat)
    && decide (r.geometry.rightMarginPins.toNat + r.geometry.printableDots.toNat ≤ r.geometry.totalPins.toNat)
    && decide (r.geometry.totalPins.toNat % 8 = 0)

/-- The largest width class of some rows, 0 when there are none. -/
def largestClass : List GeometryRow → Nat
  | [] => 0
  | r :: rest => max r.widthClass (largestClass rest)

/-- The largest tape class. The source does not name it (N3); it is the largest that has a row (log entry 16). -/
def largestTapeClass : Nat := largestClass (Config.knownRow :: Config.furtherRows.filter rowValid)

/-- Not "the largest tape class at the lower resolution", which is an unsupported combination (R171). -/
def rowSupported (r : GeometryRow) : Bool :=
  !(decide (r.dpi = Config.lowerDpi) && decide (r.widthClass = largestTapeClass))

/-- The table: the row the source gives, and rows of which only what R66, R171 and R174 say of every row is known (log
entry 16). -/
def geometryRows : List GeometryRow :=
  Config.knownRow :: Config.furtherRows.filter fun r => rowValid r && rowSupported r

/-- The first row that passes a test. -/
def findRow (test : GeometryRow → Bool) : List GeometryRow → Option Geometry
  | [] => none
  | r :: rest => if test r then some r.geometry else findRow test rest

/-- `lookup(width_class, dpi)`: `none` is NotSupported (R171). -/
def lookupGeometry (widthClass dpi : Nat) : Option Geometry :=
  findRow (fun r => decide (r.widthClass = widthClass) && decide (r.dpi = dpi)) geometryRows

/-- `from_total_width_dots(dots, dpi)`: the geometry whose `width_dots` is a bitmap's height (R172). -/
def fromTotalWidthDots (dots dpi : Nat) : Option Geometry :=
  findRow (fun r => decide (r.geometry.widthDots.toNat = dots) && decide (r.dpi = dpi)) geometryRows

/-- `from_media_width_mm(mm, dpi)`: the geometry whose `width_mm` is the media width of the status record (R172). -/
def fromMediaWidthMm (mm dpi : Nat) : Option Geometry :=
  findRow (fun r => decide (r.geometry.widthMm.toNat = mm) && decide (r.dpi = dpi)) geometryRows

end Sys2Proof.Machine
end

