-- ==== Sys2Proof/Machine/HostPort.lean ====
section
/-! DEFINITION. The host's side of the interface: what one action of the host does (R15, R49, R50, R54, R77, R160), and at
the boundary how the reader and the encoder are given their bytes. -/

namespace Sys2Proof.Machine

/-- A host write to CMD (R160): ignored while faulted, else the operation of the code, else ILLEGAL_CMD. -/
def runCommand (s : State) (value : Word) : Result :=
  unlessFaulted s <|
    match decodeCommand value with
    | .ok i => exec i s
    | .error _ => .next (raise .illegalCmd s)

/-- `wr` (R15, R160, R223). -/
def hostWriteReg (s : State) (number : Nat) (value : Word) : Result :=
  match regOfNumber number with
  | none => .refused (.noSuchRegister number)
  | some .cmd => runCommand s value
  | some r => .next (writeReg s r value)

/-- `rd`: changes nothing but what the host knows (R15, R49, R223). -/
def hostReadReg (s : State) (number : Nat) : Result :=
  match regOfNumber number with
  | none => .refused (.noSuchRegister number)
  | some r => .next (respond s (.value (readReg s r)))

/-- `wrm`: the host may write any in-range byte of any buffer (R54, log entry 15); at or beyond the size it is refused
(R50). An access to no byte reaches nothing (log entry 20). -/
def hostWriteMem (s : State) (space : Space) (off : Nat) (bytes : List Byte) : Result :=
  if bytes ≠ [] ∧ bufSize s.params space < off + bytes.length then .refused (.beyondBuffer space)
  else .next { s with mem := s.mem.setBuf space (memWrite (s.mem.buf space) off bytes) }

/-- `rdm`: refused at or beyond the size (R50) and for an unwritten byte (R53). -/
def hostReadMem (s : State) (space : Space) (off n : Nat) : Result :=
  if n ≠ 0 ∧ bufSize s.params space < off + n then .refused (.beyondBuffer space)
  else
    match memRead (s.mem.buf space) off n with
    | none => .refused .hostReadUnwritten
    | some bytes => .next (respond s (.bytes bytes))

/-- The state in which the bytes left after an instruction are the next action, if there are any. -/
def requeue (s : State) (again : List Byte → HostAction) (rest : List Byte) : State :=
  if rest = [] then s else { s with host := again rest :: s.host }

/-- The reader takes one record of a compressed line (R137). -/
def readerStep (s : State) (bytes : List Byte) : Result :=
  match decodeStream bytes with
  | .ok (i, rest) => exec i (requeue s .expand rest)
  | .error e => .refused (.malformedLine e)

/-- The encoder takes one command (R175). -/
def encoderStep (s : State) (bytes : List Byte) : Result :=
  match decodeProtocol bytes with
  | .ok (i, rest) => exec i (requeue s .emit rest)
  | .error e => .refused (.notACommand e)

/-- The raster-transfer record of the line in CBUF: `CBUF:0` to `CBUF:CLEN-1` (R187, log entry 23). -/
def emitLine (s : State) : Result :=
  match memRead s.mem.cbuf 0 s.clen.toNat with
  | none => .refused .hostReadUnwritten
  | some payload => exec (.rasterTransfer payload) s

/-- The raster-transfer record of raw line `x` in LINE, `LB` bytes (R42, R186). -/
def emitRawLine (s : State) (x : Nat) : Result :=
  match memRead s.mem.line (x * s.lb.toNat) s.lb.toNat with
  | none => .refused .hostReadUnwritten
  | some payload => exec (.rasterTransfer payload) s

/-- `send` of the built stream, in one write (R192, R200). -/
def sendStream (s : State) (outcome : SendOutcome) : Result :=
  if s.enc.frozen then
    .next (respond (transmit s s.enc.stream outcome).1 (transmit s s.enc.stream outcome).2)
  else .refused .streamNotBuilt

/-- Which response is a Status, and which error any other is (R193, R197, C6): exactly 32 bytes on either transport; on the
network any other length is a ProtocolError; by USB the poll goes on until its deadline, a TransportError. -/
def statusOf (outcome : FetchOutcome) : Except TransportFailure (List Byte) :=
  match outcome with
  | .network none => .error .transportError
  | .network (some answer) => if answer.length = Config.statusLen then .ok answer else .error .protocolError
  | .usb (.fail _) _ => .error .transportError
  | .usb .ok none => .error .transportError
  | .usb .ok (some answer) => if answer.length = Config.statusLen then .ok answer else .error .transportError

/-- The bytes that a status fetch writes: by USB the status request (R178, R197), on the network none (R193). -/
def fetchRequest (outcome : FetchOutcome) : List Byte :=
  match outcome with
  | .network _ => []
  | .usb request _ => request.written (encodeBytes .statusRequest)

/-- `fetch_status() -> Status|fail` (R192). -/
def fetchStatus (s : State) (outcome : FetchOutcome) : Result :=
  match statusOf outcome with
  | .ok record => .next (respond (appendWire s (fetchRequest outcome)) (.bytes record))
  | .error e => .next (respond (appendWire s (fetchRequest outcome)) (.failed e))

/-- `fetch_status()`, and the host writes the 32 bytes it returns to STREC (R192); on `fail` it writes nothing. -/
def loadStatus (s : State) (outcome : FetchOutcome) : Result :=
  match statusOf outcome with
  | .ok record => hostWriteMem (appendWire s (fetchRequest outcome)) .strec 0 record
  | .error e => .next (respond (appendWire s (fetchRequest outcome)) (.failed e))

/-- The host loads the geometry it obtained into the GEO registers; an unsupported combination fails explicitly (R17,
R171). -/
def loadGeometry (s : State) (widthClass dpi : Nat) : Result :=
  match lookupGeometry widthClass dpi with
  | none => .next (respond s .notSupported)
  | some g => .next { s with geo := g }

/-- One action of the host. -/
def runAction (s : State) : HostAction → Result
  | .writeReg number value => hostWriteReg s number value
  | .readReg number => hostReadReg s number
  | .writeMem space off bytes => hostWriteMem s space off bytes
  | .readMem space off n => hostReadMem s space off n
  | .reset => .next (resetBlock s)
  | .startLine => .next { s with expOut := [] }
  | .expand bytes => if bytes = [] then .next s else readerStep s bytes
  | .emit bytes => if bytes = [] then .next s else encoderStep s bytes
  | .emitLine => emitLine s
  | .emitRawLine x => emitRawLine s x
  | .emitPageInfo info => exec (.printInfo (pageInfo s info)) s
  | .newEncoder => .next { s with enc := freshEncoder }
  | .build => unlessFrozen s (.next { s with enc := { s.enc with frozen := true } })
  | .send outcome => sendStream s outcome
  | .fetchStatus outcome => fetchStatus s outcome
  | .loadStatus outcome => loadStatus s outcome
  | .loadGeometry widthClass dpi => loadGeometry s widthClass dpi

/-- The state in which the host's next action has been taken off its list and has no answer yet. -/
def takeAction (s : State) (rest : List HostAction) : State := { s with host := rest, response := .nothing }

/-- The host action that presents words to the decoder of their space (R61, R137, R175). -/
def actionOfWords : Words → HostAction
  | .cmd value => .writeReg 0x00 value
  | .stream bytes => .expand bytes
  | .protocol bytes => .emit bytes

end Sys2Proof.Machine
end

