-- ==== Sys2Proof/Machine/Step.lean ====
section
/-! DEFINITION. One step of the machine, and the placing of one instruction where the next step takes it. -/

namespace Sys2Proof.Machine

/-- One step: the host's next action, or nothing at all when the host does nothing (R13, R51, R218). -/
def step (s : State) : Host.Outcome State Fault Refusal :=
  match s.host with
  | [] => .next s
  | a :: rest => runAction (takeAction s rest) a

/-- The state whose next step runs the instruction of a number of the opcode table: the host is about to present its words
(log entries 2, 14). The block fetches nothing (R2), so what stands for a fetch is the host's next action. -/
def State.withFetchWord (s : State) (nbits w : Nat) : State :=
  { s with host := actionOfWords (tableWords nbits w).firstOnly :: s.host }

end Sys2Proof.Machine
end

