-- ==== Sys2Proof/Safety.lean ====
section
/-! DEFINITION. What claims about the machine are stated with: the invariant of its states, and the duties of a host that a
claim may take as premises. -/

namespace Sys2Proof.Machine

/-! ## The invariant -/

/-- Every listed byte lies inside its buffer (R40, R50). -/
def buffersInRange (s : State) : Bool :=
  Mem.below (bufSize s.params .pix) s.mem.pix && Mem.below (bufSize s.params .line) s.mem.line
    && Mem.below (bufSize s.params .cbuf) s.mem.cbuf && Mem.below (bufSize s.params .strec) s.mem.strec

/-- FAULT holds a fault's code exactly while STATUS.FAULTED = 1 (R16). -/
def faultConsistent (s : State) : Bool := s.faulted == (s.fault != .noFault)

/-- The ST registers are as reset left them, or as some STDEC computed them (R21, R92, R93). -/
def statusConsistent (s : State) : Bool :=
  if s.st.valid then
    s.st.hasErr == hasErrors s.st.err1 s.st.err2 && s.st.dpi == (if s.st.model = 0x5A then 180 else 360)
  else s.st == resetStatus

/-- NLINES lines of LB bytes each lie in LINE, every byte of them written (R19, R26). -/
def linesConsistent (s : State) : Bool :=
  decide (s.nlines.toNat * s.lb.toNat ≤ s.params.lineSize)
    && (memRead s.mem.line 0 (s.nlines.toNat * s.lb.toNat)).isSome

/-- CLEN bytes lie in CBUF, every one of them written (R20, R26). -/
def compressedConsistent (s : State) : Bool :=
  decide (s.clen.toNat ≤ s.params.cbufSize) && (memRead s.mem.cbuf 0 s.clen.toNat).isSome

/-- The invariant of the machine: legal parameters, canonical buffers in range, and result registers that agree with one
another and with the buffers. -/
def State.inv (s : State) : Bool :=
  s.params.valid && s.mem.wf && buffersInRange s && faultConsistent s && statusConsistent s && linesConsistent s
    && compressedConsistent s

/-! ## Premises about inputs -/

/-- Every byte of `SPACE:off` to `SPACE:off+n-1` is written. -/
def writtenBytes (m : Mem) (off n : Nat) : Prop := ∀ a, off ≤ a → a < off + n → memByte m a ≠ none

/-- The source has no `n` equal bytes in a row (R138, R143). -/
def noStretch (n : Nat) (src : List Byte) : Prop := ∀ b : Byte, ¬ List.replicate n b <:+: src

/-- A record is a run of at least `n` bytes (R138). -/
def longRun (n : Nat) : Record → Bool
  | .run len _ => decide (n ≤ len)
  | .lit _ => false

/-- A white pixel of a format: white at any alpha, and any colour at alpha 0 (R119). -/
def whitePixel : PixelFormat → List Byte → Bool
  | .gray8, [g] => g == 255
  | .rgb8, [r, g, b] => r == 255 && g == 255 && b == 255
  | .rgba8, [r, g, b, a] => (r == 255 && g == 255 && b == 255) || a == 0
  | _, _ => false

/-- A black opaque pixel of a format (R119). -/
def blackPixel : PixelFormat → List Byte → Bool
  | .gray8, [g] => g == 0
  | .rgb8, [r, g, b] => r == 0 && g == 0 && b == 0
  | .rgba8, [r, g, b, a] => r == 0 && g == 0 && b == 0 && a == 255
  | _, _ => false

/-- Instructions one after another, without the host between them. -/
def execAll : List Instr → State → Result
  | [], s => .next s
  | i :: more, s =>
    match exec i s with
    | .next t => execAll more t
    | .fault r => .fault r
    | .refused r => .refused r

/-- `n` steps, stopping where a step answers no next state. -/
def stepsFrom : Nat → State → Result
  | 0, s => .next s
  | n + 1, s =>
    match step s with
    | .next t => stepsFrom n t
    | .fault r => .fault r
    | .refused r => .refused r

/-- The numbers of the register map (R15). -/
def mappedNumbers : List Nat :=
  [0x00, 0x01, 0x02, 0x10, 0x11, 0x12, 0x13, 0x14, 0x20, 0x21, 0x22, 0x28, 0x29, 0x30, 0x31, 0x38, 0x40, 0x41, 0x42,
    0x43, 0x44, 0x45, 0x46, 0x47]

/-- The numbers of the registers marked RW (R15). -/
def writableNumbers : List Nat := [0x10, 0x11, 0x12, 0x13, 0x14, 0x20, 0x21, 0x22, 0x30, 0x31]

/-- The bytes of pixel `(x, y)` in PIX (R41). -/
def pixelAt (s : State) (f : PixelFormat) (x y : Nat) : Option (List Byte) :=
  memRead s.mem.pix ((y * s.img.width.toNat + x) * f.bpp) f.bpp

/-! ## Duties of the host -/

/-- The pre-flight check of a print job: a status record was decoded and reports no error (R200, R233). -/
def preflightPasses (s : State) : Bool := s.st.valid && !s.st.hasErr

/-- A good end of a job: no fault (R216). -/
def goodEnd (s : State) : Bool := !s.faulted

/-- What the stream so far has selected for the raster transfers that follow: nothing, or whether compression is enabled
(R186). The values of the select byte are not in the source (N9, log entry 8). -/
def compressionEnabled (s : State) : Option Bool := s.enc.lastSelect.map Config.selectEnables

/-- The payload of a raster transfer fits the selection in force: with compression enabled the compressed form of the line,
with compression disabled the line itself, of LB bytes, and before any selection no payload does (R186, R187, R239). -/
def payloadMatches (s : State) (line payload : List Byte) : Prop :=
  payloadFor s.params.runMax s.lb.toNat s.enc.lastSelect line = some payload

end Sys2Proof.Machine
end

