-- ==== Sys2Proof/Certificates/Slice0/Obligations.lean ====
section
/-! DEFINITION. The statements for the provers. Each docstring names the rules of spec/ it formalises; a clause that rests on
a choice of the model says so and names the log entry (notes/assumptions). -/

open Sys2Proof Sys2Proof.Machine

/-! ## Encodings -/

/-- R62: the three command codes. R63: every other value is no command, and faults with ILLEGAL_CMD when it is written. -/
def Obligations.CommandCodesDecode : Prop :=
  ∀ v : Word,
    (v = 0x01 → decode (.cmd v) = .ok (.stdec, [])) ∧
    (v = 0x02 → decode (.cmd v) = .ok (.rast, [])) ∧
    (v = 0x03 → decode (.cmd v) = .ok (.comp, [])) ∧
    (v ≠ 0x01 → v ≠ 0x02 → v ≠ 0x03 → decode (.cmd v) = .error (.illegalCommand v) ∧
      ∀ s, s.faulted = false → runCommand s v = .next { s with faulted := true, fault := .illegalCmd })

/-- A few words written out from the spec's encodings: R62, R69 (`RUN 70, 00`), R70 (`LIT 42`), R177, R179, R185, R188.
The last clause is the model's choice: how a number of the opcode table is given its space and its byte order (log entry
14). -/
def Obligations.WordsOfTheSpecDecode : Prop :=
  decode (.cmd 0x00000003) = .ok (.comp, []) ∧
  decode (.stream [0xBB, 0x00]) = .ok (.run 70 0x00, []) ∧
  decode (.stream [0x00, 0x42]) = .ok (.lit [0x42], []) ∧
  decode (.protocol [0x1B, 0x40]) = .ok (.initPrinter, []) ∧
  decode (.protocol [0x1B, 0x69, 0x61, 0x01]) = .ok (.modeSwitch 0x01, []) ∧
  decode (.protocol [0x1B, 0x69, 0x64, 0x0E, 0x01]) = .ok (.margin 270, []) ∧
  decode (.protocol [0x0C]) = .ok (.print, []) ∧
  decodeTableWord 16 0x1B40 = some .initPrinter

/-- R71: the control byte of a run and of a literal, and how a reader reads each control byte. -/
def Obligations.ControlBytesRoundTrip : Prop :=
  (∀ len, 2 ≤ len → len ≤ 255 → (runControl len).toNat = (257 - len) % 256) ∧
  (∀ k, 1 ≤ k → k ≤ 128 → (litControl k).toNat = k - 1) ∧
  (∀ (c v : Byte) (rest : List Byte), 0x80 ≤ c.toNat →
    readRecord (c :: v :: rest) = .ok (.run (257 - c.toNat) v, rest)) ∧
  (∀ (c : Byte) (data rest : List Byte), c.toNat < 0x80 → data.length = c.toNat + 1 →
    readRecord (c :: (data ++ rest)) = .ok (.lit data, rest))

/-- Decode and encode agree, for every well-formed instruction and whatever bytes follow it. -/
def Obligations.DecodeOfEncodeIsIdentity : Prop :=
  ∀ (i : Instr) (more : List Byte), i.wf = true →
    match encode i with
    | .cmd v => decode (.cmd v) = .ok (i, [])
    | .stream bytes => decode (.stream (bytes ++ more)) = .ok (i, more)
    | .protocol bytes => decode (.protocol (bytes ++ more)) = .ok (i, more)

/-- Whatever the decoder reads is well formed, and its encoding is the very words it was read from. -/
def Obligations.DecodedWordsReencode : Prop :=
  ∀ (words : Words) (i : Instr) (rest : List Byte), decode words = .ok (i, rest) →
    i.wf = true ∧ (encode i).followedBy rest = words

/-! ## Reset, registers and buffers -/

/-- R24: after reset every register reads 0, every byte of every buffer is unwritten, and the block accepts a command. -/
def Obligations.ResetReadsZeroAndUnwritten : Prop :=
  (∀ r, readReg State.reset r = 0) ∧ (∀ space a, memByte (State.reset.mem.buf space) a = none) ∧
    State.reset.faulted = false

/-- The reset action of the host (R230, R231) restores the block. That the parameters and the surroundings stay is the
model's reading (log entries 1 and 10). -/
def Obligations.HostResetRestoresBlock : Prop :=
  ∀ s rest, s.host = .reset :: rest →
    ∃ t, step s = .next t ∧ (∀ r, readReg t r = 0) ∧ (∀ space a, memByte (t.mem.buf space) a = none) ∧
      t.params = s.params ∧ t.expOut = s.expOut ∧ t.enc = s.enc ∧ t.wire = s.wire ∧ t.host = rest

/-- R15: registers by number. A register marked RW takes any value and reads it back, and no other register changes; a
write to one marked R is ignored; CMD reads 0; a read changes nothing; a number that is not in the map is refused; the upper
bits of narrow registers read 0. -/
def Obligations.RegisterAccessFollowsTheMap : Prop :=
  (∀ s number v rest, number ∈ writableNumbers → s.host = .writeReg number v :: rest →
    ∃ t r, step s = .next t ∧ regOfNumber number = some r ∧ readReg t r = v ∧
      (∀ r', r' ≠ r → readReg t r' = readReg s r') ∧
      t = { s with geo := t.geo, img := t.img, srcOff := t.srcOff, srcLen := t.srcLen, host := rest,
                   response := .nothing }) ∧
  (∀ s number v rest, number ∈ mappedNumbers → number ∉ writableNumbers → number ≠ 0x00 →
    s.host = .writeReg number v :: rest → step s = .next { s with host := rest, response := .nothing }) ∧
  (∀ s number rest, number ∈ mappedNumbers → s.host = .readReg number :: rest →
    ∃ r, regOfNumber number = some r ∧ step s = .next { s with host := rest, response := .value (readReg s r) }) ∧
  (∀ s, readReg s .cmd = 0) ∧
  (∀ s number rest v, number ∉ mappedNumbers →
    (s.host = .writeReg number v :: rest → step s = .refused (.noSuchRegister number)) ∧
    (s.host = .readReg number :: rest → step s = .refused (.noSuchRegister number))) ∧
  (∀ s r, r ∈ [Reg.status, .stValid, .stHasErr] → (readReg s r).toNat < 2) ∧
  (∀ s r, r ∈ [Reg.fault, .stModel, .stErr1, .stErr2, .stMediaW, .stMediaT] → (readReg s r).toNat < 256)

/-- A host write of bytes inside a buffer stores exactly them, in the FAULTED state as well (R54). That CBUF may be written
so is the model's reading of R54 (log entry 15). -/
def Obligations.HostBufferWriteStores : Prop :=
  ∀ s space off bytes rest, s.host = .writeMem space off bytes :: rest → off + bytes.length ≤ bufSize s.params space →
    ∃ t, step s = .next t ∧ memRead (t.mem.buf space) off bytes.length = some bytes ∧
      (∀ a, a < off ∨ off + bytes.length ≤ a → memByte (t.mem.buf space) a = memByte (s.mem.buf space) a) ∧
      (∀ space', space' ≠ space → t.mem.buf space' = s.mem.buf space') ∧
      t = { s with mem := t.mem, host := rest, response := .nothing }

/-- A host read of written bytes inside a buffer answers them and changes nothing (R49, R54). -/
def Obligations.HostBufferReadAnswers : Prop :=
  ∀ s space off n rest, s.host = .readMem space off n :: rest → off + n ≤ bufSize s.params space →
    writtenBytes (s.mem.buf space) off n →
    ∃ bytes, step s = .next { s with host := rest, response := .bytes bytes } ∧ bytes.length = n ∧
      ∀ k, k < n → bytes[k]? = memByte (s.mem.buf space) (off + k)

/-- A host access at or beyond a buffer's size is refused (R50), and so is a host read of an unwritten byte (R53). -/
def Obligations.HostBufferAccessRefused : Prop :=
  (∀ s space off bytes rest, bytes ≠ [] → bufSize s.params space < off + bytes.length →
    s.host = .writeMem space off bytes :: rest → step s = .refused (.beyondBuffer space)) ∧
  (∀ s space off n rest, n ≠ 0 → bufSize s.params space < off + n →
    s.host = .readMem space off n :: rest → step s = .refused (.beyondBuffer space)) ∧
  (∀ s space off n rest a, off + n ≤ bufSize s.params space → off ≤ a → a < off + n →
    memByte (s.mem.buf space) a = none → s.host = .readMem space off n :: rest →
    step s = .refused .hostReadUnwritten)

/-! ## Steps and dispatch -/

/-- A step runs the decoded instruction: a command when the host writes CMD and the block is not faulted, a record given to
the reader, a command given to the encoder; around it the step takes the host's action and leaves the bytes after the
instruction as the next action. That one record or one protocol command is one step, and that the bytes after it become the
next action, is the model's choice (log entries 2 and 4). -/
def Obligations.StepRunsDecodedInstruction : Prop :=
  (∀ s v rest i, s.host = .writeReg 0x00 v :: rest → s.faulted = false → decode (.cmd v) = .ok (i, []) →
    step s = exec i { s with host := rest, response := .nothing }) ∧
  (∀ s bytes rest i more, s.host = .expand bytes :: rest → decode (.stream bytes) = .ok (i, more) →
    step s = exec i { s with host := if more = [] then rest else .expand more :: rest, response := .nothing }) ∧
  (∀ s bytes rest i more, s.host = .emit bytes :: rest → decode (.protocol bytes) = .ok (i, more) →
    step s = exec i { s with host := if more = [] then rest else .emit more :: rest, response := .nothing })

/-- R160: what a host write of a value to CMD does. -/
def Obligations.CommandWriteDispatches : Prop :=
  ∀ s v rest, s.host = .writeReg 0x00 v :: rest →
    (s.faulted = true → step s = .next { s with host := rest, response := .nothing }) ∧
    (s.faulted = false → v = 0x01 → step s = exec .stdec { s with host := rest, response := .nothing }) ∧
    (s.faulted = false → v = 0x02 → step s = exec .rast { s with host := rest, response := .nothing }) ∧
    (s.faulted = false → v = 0x03 → step s = exec .comp { s with host := rest, response := .nothing }) ∧
    (s.faulted = false → v ≠ 0x01 → v ≠ 0x02 → v ≠ 0x03 →
      step s = .next { s with host := rest, response := .nothing, faulted := true, fault := .illegalCmd })

/-- With nothing for the host to do, a step changes nothing: no event is asynchronous (R218). That such a step answers the
same state is the model's choice (log entry 2). -/
def Obligations.IdleStepChangesNothing : Prop := ∀ s, s.host = [] → step s = .next s

/-- A command is ignored while STATUS.FAULTED = 1, whatever it is (R160, R216), at the level of its meaning too. -/
def Obligations.FaultedBlockIgnoresCommands : Prop :=
  ∀ s, s.faulted = true → exec .stdec s = .next s ∧ exec .rast s = .next s ∧ exec .comp s = .next s

/-- R213: a command that faults sets STATUS.FAULTED and FAULT and changes nothing else of the block; the step has also taken
the host's action. -/
def Obligations.FaultingCommandChangesNothingElse : Prop :=
  ∀ s t v rest, s.host = .writeReg 0x00 v :: rest → s.faulted = false → step s = .next t → t.faulted = true →
    ∃ c, c ≠ .noFault ∧ t = { s with host := rest, response := .nothing, faulted := true, fault := c }

/-- R215: FAULTED and FAULT stay as set until reset; no command, register write or other action clears or replaces them. -/
def Obligations.FaultStaysUntilReset : Prop :=
  ∀ s t, step s = .next t → s.faulted = true → (∀ rest, s.host ≠ .reset :: rest) →
    t.faulted = true ∧ t.fault = s.fault

/-- A written byte never becomes unwritten except by reset (R23, R230). -/
def Obligations.WrittenBytesStayWritten : Prop :=
  ∀ s t, step s = .next t → (∀ rest, s.host ≠ .reset :: rest) →
    ∀ space a, memByte (s.mem.buf space) a ≠ none → memByte (t.mem.buf space) a ≠ none

/-! ## The status decoder -/

/-- R90: STDEC writes the eight ST registers from the record and nothing else; with a byte of STREC unwritten it is
refused. -/
def Obligations.StdecDecodesTheRecord : Prop :=
  (∀ s record, s.faulted = false → memRead s.mem.strec 0 32 = some record →
    exec .stdec s = .next { s with st :=
      { valid := true
        model := record.getD 4 0
        err1 := record.getD 8 0
        err2 := record.getD 9 0
        mediaW := record.getD 10 0
        mediaT := record.getD 11 0
        hasErr := decide (record.getD 8 0 ≠ 0 ∨ record.getD 9 0 ≠ 0)
        dpi := if record.getD 4 0 = 0x5A then 180 else 360 } }) ∧
  (∀ s k, s.faulted = false → k < 32 → memByte s.mem.strec k = none →
    exec .stdec s = .refused .statusRecordUnwritten)

/-- Only offsets 4, 8, 9, 10 and 11 of the record influence any result of STDEC (R75, R94). -/
def Obligations.StdecDependsOnFiveOffsets : Prop :=
  ∀ s s' t t', s.faulted = false → s'.faulted = false → exec .stdec s = .next t → exec .stdec s' = .next t' →
    (∀ k, k ∈ [4, 8, 9, 10, 11] → memByte s.mem.strec k = memByte s'.mem.strec k) → t.st = t'.st

/-- R92: ST_HASERR is set exactly when one of the 16 bits of the two error bytes of the record is. -/
def Obligations.HasErrorExactlyWhenABitIsSet : Prop :=
  ∀ s t, s.faulted = false → exec .stdec s = .next t →
    ∃ b8 b9, memByte s.mem.strec 8 = some b8 ∧ memByte s.mem.strec 9 = some b9 ∧
      (t.st.hasErr = true ↔ b8 ≠ 0 ∨ b9 ≠ 0) ∧
      (t.st.hasErr = true ↔ ∃ k, k < 8 ∧ (b8.getLsbD k = true ∨ b9.getLsbD k = true))

/-- R98: the error kinds are those of the set bits under any table of 8 + 8 kinds, and there is one exactly when
`has_errors` is true. -/
def Obligations.ErrorKindsAreThoseOfTheSetBits : Prop :=
  ∀ (kinds1 kinds2 : List ErrKind) (err1 err2 : Byte), kinds1.length = 8 → kinds2.length = 8 →
    (∀ kind, kind ∈ errorKinds (kinds1, kinds2) err1 err2 ↔
      ∃ k, k < 8 ∧ ((err1.getLsbD k = true ∧ kinds1[k]? = some kind) ∨
        (err2.getLsbD k = true ∧ kinds2[k]? = some kind))) ∧
    (hasErrors err1 err2 = true ↔ errorKinds (kinds1, kinds2) err1 err2 ≠ [])

/-! ## The rasterizer -/

/-- R106: the checks of RAST in their order; the first that fails decides the fault, which changes nothing else. -/
def Obligations.RastFirstFailingCheckDecides : Prop :=
  ∀ s, s.faulted = false →
    (3 ≤ s.img.fmt.toNat → exec .rast s = .next { s with faulted := true, fault := .badFormat }) ∧
    (s.img.fmt.toNat < 3 →
      (s.geo.printableDots.toNat > s.geo.widthDots.toNat ∨
        s.geo.rightMarginPins.toNat + s.geo.printableDots.toNat > s.geo.totalPins.toNat ∨
        s.geo.totalPins.toNat % 8 ≠ 0) →
      exec .rast s = .next { s with faulted := true, fault := .badGeometry }) ∧
    (s.img.fmt.toNat < 3 → s.geo.printableDots.toNat ≤ s.geo.widthDots.toNat →
      s.geo.rightMarginPins.toNat + s.geo.printableDots.toNat ≤ s.geo.totalPins.toNat →
      s.geo.totalPins.toNat % 8 = 0 → s.img.height.toNat ≠ s.geo.widthDots.toNat →
      exec .rast s = .next { s with faulted := true, fault := .geometryMismatch }) ∧
    (s.img.fmt.toNat < 3 → s.geo.printableDots.toNat ≤ s.geo.widthDots.toNat →
      s.geo.rightMarginPins.toNat + s.geo.printableDots.toNat ≤ s.geo.totalPins.toNat →
      s.geo.totalPins.toNat % 8 = 0 → s.img.height.toNat = s.geo.widthDots.toNat →
      (s.img.width.toNat * s.img.height.toNat * [1, 3, 4].getD s.img.fmt.toNat 0 > s.params.pixSize ∨
        s.img.width.toNat * (s.geo.totalPins.toNat / 8) > s.params.lineSize) →
      exec .rast s = .next { s with faulted := true, fault := .capacity })

/-- RAST completes exactly as R105, R116 and R117 say when every check of R106 passes and the image is written: line `x`
stands at `LINE:x*LB`, NLINES and LB are set, and nothing else changes (R26). What a line holds says
`RastPrintsExactlyTheDarkPixels`. -/
def Obligations.RastStoresOneLinePerColumn : Prop :=
  ∀ s f image, s.faulted = false → pixelFormat s.img.fmt = some f →
    s.geo.printableDots.toNat ≤ s.geo.widthDots.toNat →
    s.geo.rightMarginPins.toNat + s.geo.printableDots.toNat ≤ s.geo.totalPins.toNat →
    s.geo.totalPins.toNat % 8 = 0 → s.img.height = s.geo.widthDots →
    s.img.width.toNat * s.img.height.toNat * f.bpp ≤ s.params.pixSize →
    s.img.width.toNat * (s.geo.totalPins.toNat / 8) ≤ s.params.lineSize →
    memRead s.mem.pix 0 (s.img.width.toNat * s.img.height.toNat * f.bpp) = some image →
    ∃ t, exec .rast s = .next t ∧ t.nlines = s.img.width ∧ t.lb.toNat = s.geo.totalPins.toNat / 8 ∧
      (∀ x, x < s.img.width.toNat →
        memRead t.mem.line (x * (s.geo.totalPins.toNat / 8)) (s.geo.totalPins.toNat / 8) =
          some (rasterLine s.geo f s.img.width.toNat image x)) ∧
      (∀ a, s.img.width.toNat * (s.geo.totalPins.toNat / 8) ≤ a → memByte t.mem.line a = memByte s.mem.line a) ∧
      t = { s with mem := { s.mem with line := t.mem.line }, nlines := t.nlines, lb := t.lb }

/-- RAST whose checks pass is refused when a byte of the image is unwritten, in a row outside the band too (R53, R105). -/
def Obligations.RastRefusesUnwrittenImage : Prop :=
  ∀ s f a, s.faulted = false → rastCheck s.params s.geo s.img = .ok f →
    a < s.img.width.toNat * s.img.height.toNat * f.bpp → memByte s.mem.pix a = none →
    exec .rast s = .refused .pixelUnwritten

/-- R120: after a RAST that completes, pin `n` of line `x`, which is bit `7 - (n mod 8)` of byte `n div 8` of the line, is 1
exactly when `n = rm + k` for a row `row_margin + k` whose pixel has gray below 127; every other pin is 0. The value of
`row_margin` is the spec's decided default (R112, log entry 11). -/
def Obligations.RastPrintsExactlyTheDarkPixels : Prop :=
  ∀ s t, s.faulted = false → exec .rast s = .next t → t.faulted = false →
    ∃ f, pixelFormat s.img.fmt = some f ∧
      ∀ x n, x < s.img.width.toNat → n < s.geo.totalPins.toNat →
        ∃ b, memByte t.mem.line (x * (s.geo.totalPins.toNat / 8) + n / 8) = some b ∧
          (b.getLsbD (7 - n % 8) = true ↔
            ∃ k p v, k < s.geo.printableDots.toNat ∧ n = s.geo.rightMarginPins.toNat + k ∧
              pixelAt s f x (rowMargin s.geo.widthDots.toNat s.geo.printableDots.toNat + k) = some p ∧
              gray f p = some v ∧ v < 127)

/-- R119: a white pixel has gray 255 and a black opaque one gray 0, in every pixel format; a fully white image gives
all-zero lines, and a fully black one sets exactly the pins of the band in every line. -/
def Obligations.WhiteAndBlackImages : Prop :=
  (∀ f p, (whitePixel f p = true → gray f p = some 255) ∧ (blackPixel f p = true → gray f p = some 0)) ∧
  ∀ s t f, s.faulted = false → exec .rast s = .next t → t.faulted = false → pixelFormat s.img.fmt = some f →
    ((∀ x y, x < s.img.width.toNat → y < s.img.height.toNat →
        ∃ p, pixelAt s f x y = some p ∧ whitePixel f p = true) →
      ∀ a, a < s.img.width.toNat * (s.geo.totalPins.toNat / 8) → memByte t.mem.line a = some 0) ∧
    ((∀ x y, x < s.img.width.toNat → y < s.img.height.toNat →
        ∃ p, pixelAt s f x y = some p ∧ blackPixel f p = true) →
      ∀ x n, x < s.img.width.toNat → n < s.geo.totalPins.toNat →
        ∃ b, memByte t.mem.line (x * (s.geo.totalPins.toNat / 8) + n / 8) = some b ∧
          (b.getLsbD (7 - n % 8) = true ↔
            s.geo.rightMarginPins.toNat ≤ n ∧ n < s.geo.rightMarginPins.toNat + s.geo.printableDots.toNat))

/-- R122: the corner cases of the threshold. -/
def Obligations.ThresholdCornerCases : Prop :=
  printed .gray8 [126] = true ∧ printed .gray8 [127] = false ∧
  gray .rgb8 [126, 127, 127] = some 126 ∧ printed .rgb8 [126, 127, 127] = true ∧
  gray .rgb8 [127, 127, 127] = some 127 ∧ printed .rgb8 [127, 127, 127] = false ∧
  gray .rgb8 [0, 0, 255] = some 85 ∧ printed .rgb8 [0, 0, 255] = true ∧
  gray .rgb8 [255, 255, 0] = some 170 ∧ printed .rgb8 [255, 255, 0] = false ∧
  (∀ a : Byte, gray .rgba8 [0, 0, 0, a] = some (255 - a.toNat) ∧
    (printed .rgba8 [0, 0, 0, a] = true ↔ 129 ≤ a.toNat)) ∧
  (∀ r g b : Byte, gray .rgba8 [r, g, b, 0] = some 255 ∧ printed .rgba8 [r, g, b, 0] = false)

/-- The properties of the channel mean, of compositing and of the row margin that R108, R109 and R112 require of any choice
of them; the functions themselves are the spec's decided defaults (log entry 11). -/
def Obligations.GrayAndMarginProperties : Prop :=
  (∀ v, grayRgb v v v = v) ∧
  (∀ r g b, min r (min g b) ≤ grayRgb r g b ∧ grayRgb r g b ≤ max r (max g b)) ∧
  (∀ c, c ≤ 255 → composite c 255 = c) ∧ (∀ c, composite c 0 = 255) ∧
  (∀ c a, c ≤ 255 → a ≤ 255 → c ≤ composite c a ∧ composite c a ≤ 255) ∧
  (∀ wd pd, pd ≤ wd → rowMargin wd pd + pd ≤ wd ∧ rowMargin wd pd ≤ wd - pd - rowMargin wd pd ∧
    wd - pd - rowMargin wd pd ≤ rowMargin wd pd + 1)

/-! ## The compressor -/

/-- COMP completes as R130 and R136 say: the compressed window stands at `CBUF:0`, CLEN is its length, and nothing else
changes (R26). What `compress` gives say the statements after it. -/
def Obligations.CompStoresTheCompressedWindow : Prop :=
  ∀ s src, s.params.valid = true → s.faulted = false → s.srcOff.toNat + s.srcLen.toNat ≤ s.params.lineSize →
    memRead s.mem.line s.srcOff.toNat s.srcLen.toNat = some src →
    (compress s.params.runMax src).length ≤ s.params.cbufSize →
    ∃ t, exec .comp s = .next t ∧ t.clen.toNat = (compress s.params.runMax src).length ∧
      memRead t.mem.cbuf 0 (compress s.params.runMax src).length = some (compress s.params.runMax src) ∧
      (∀ a, (compress s.params.runMax src).length ≤ a → memByte t.mem.cbuf a = memByte s.mem.cbuf a) ∧
      t = { s with mem := { s.mem with cbuf := t.mem.cbuf }, clen := t.clen }

/-- Where COMP faults and where it is refused, in the order of R214: the window check first, even if the window is
unwritten; then the refusal (R53); then the size of the output (R136). -/
def Obligations.CompFaultsAndRefuses : Prop :=
  ∀ s, s.faulted = false →
    (s.params.lineSize < s.srcOff.toNat + s.srcLen.toNat →
      exec .comp s = .next { s with faulted := true, fault := .capacity }) ∧
    (∀ a, s.srcOff.toNat + s.srcLen.toNat ≤ s.params.lineSize → s.srcOff.toNat ≤ a →
      a < s.srcOff.toNat + s.srcLen.toNat → memByte s.mem.line a = none → exec .comp s = .refused .lineUnwritten) ∧
    (∀ src, s.srcOff.toNat + s.srcLen.toNat ≤ s.params.lineSize →
      memRead s.mem.line s.srcOff.toNat s.srcLen.toNat = some src →
      s.params.cbufSize < (compress s.params.runMax src).length →
      exec .comp s = .next { s with faulted := true, fault := .capacity })

/-- R131, R132, R133: the record at each scan position, and where the scan goes on. At a repeat-run the longest run the data
and `RUN_MAX` allow; otherwise a literal that goes on while it holds fewer than 127 bytes and no repeat-run starts at the
next byte. -/
def Obligations.ScanPrefersTheLongestRun : Prop :=
  ∀ (runMax : Nat) (b : Byte) (rest : List Byte), 2 ≤ runMax →
    compressRecords runMax [] = [] ∧
    (rest.head? = some b → ∃ len, 2 ≤ len ∧ len ≤ runMax ∧ List.replicate len b <+: b :: rest ∧
      (len = runMax ∨ (b :: rest)[len]? ≠ some b) ∧
      compressRecords runMax (b :: rest) = .run len b :: compressRecords runMax ((b :: rest).drop len)) ∧
    (rest.head? ≠ some b → ∃ k, 1 ≤ k ∧ k ≤ 127 ∧ k ≤ (b :: rest).length ∧
      (∀ j, 1 ≤ j → j < k → repeatAt ((b :: rest).drop j) = false) ∧
      (k = 127 ∨ k = (b :: rest).length ∨ repeatAt ((b :: rest).drop k) = true) ∧
      compressRecords runMax (b :: rest) =
        .lit ((b :: rest).take k) :: compressRecords runMax ((b :: rest).drop k))

/-- R138: expanding a compressed line gives the source back, always for `RUN_MAX <= 129`, and otherwise when no emitted run
has 130 bytes or more, which holds when the source has no 130 equal bytes in a row or has at most 129 bytes. -/
def Obligations.ExpandOfCompressIsIdentity : Prop :=
  ∀ (runMax : Nat) (src : List Byte), 2 ≤ runMax → runMax ≤ 255 →
    (runMax ≤ 129 → expand (compress runMax src) = some src) ∧
    ((∀ r, r ∈ compressRecords runMax src → longRun 130 r = false) → expand (compress runMax src) = some src) ∧
    (noStretch 130 src → expand (compress runMax src) = some src) ∧
    (src.length ≤ 129 → expand (compress runMax src) = some src)

/-- R139: a run of 130 to 255 bytes gets a control byte with its sign bit clear, which a reader takes for a literal; the
output then has no expansion. -/
def Obligations.LongRunsDoNotExpand : Prop :=
  ∀ (runMax len : Nat) (v : Byte), 130 ≤ len → len ≤ runMax → runMax ≤ 255 →
    compress runMax (List.replicate len v) = [BitVec.ofNat 8 (257 - len), v] ∧
    (BitVec.ofNat 8 (257 - len)).msb = false ∧ expand (compress runMax (List.replicate len v)) = none

/-- R140: the size bound, a source that reaches it, the alternating line of 70 bytes, and the best case. -/
def Obligations.CompressedSizeBound : Prop :=
  ∀ (runMax : Nat), 2 ≤ runMax → runMax ≤ 255 →
    (∀ src, (compress runMax src).length ≤ src.length + (src.length + 2) / 3) ∧
    (compress runMax [0x01, 0x02, 0x02, 0x01]).length = 4 + (4 + 2) / 3 ∧
    (compress runMax (List.replicate 35 [0x00, 0xFF]).flatten).length = 71 ∧
    (∀ n b, 2 ≤ n → n ≤ runMax → compress runMax (List.replicate n b) = [BitVec.ofNat 8 (257 - n), b])

/-- R141: the shape of the output: (a) a run may follow a run, of the same value too, (b) a literal follows a literal only
when the first holds exactly 127 bytes, (c) a literal of fewer than 127 bytes that is not the last record is followed by a
run, (d) the lengths emitted, (e) the records partition the source. -/
def Obligations.ShapeOfTheCompressedLine : Prop :=
  ∀ (runMax : Nat) (src : List Byte), 2 ≤ runMax → runMax ≤ 255 →
    compress runMax [0x01, 0x01, 0x02, 0x02] = [0xFF, 0x01, 0xFF, 0x02] ∧
    (∀ v, compressRecords runMax (List.replicate (runMax + 2) v) = [.run runMax v, .run 2 v]) ∧
    (∀ j data data', (compressRecords runMax src)[j]? = some (.lit data) →
      (compressRecords runMax src)[j + 1]? = some (.lit data') → data.length = 127) ∧
    (∀ j data, (compressRecords runMax src)[j]? = some (.lit data) → data.length < 127 →
      j + 1 < (compressRecords runMax src).length →
      ∃ len v, (compressRecords runMax src)[j + 1]? = some (.run len v)) ∧
    (∀ r, r ∈ compressRecords runMax src → r.emittable runMax = true) ∧
    (∀ data, Record.lit data ∈ compressRecords runMax src → litControl data.length ≠ 0x7F) ∧
    (compressRecords runMax src).flatMap recordBytes = src

/-- R143: the output does not depend on `RUN_MAX` when no stretch of equal bytes is longer than it; so never for a source of
at most 128 bytes and `RUN_MAX` from 128. -/
def Obligations.RunLimitMattersOnlyForLongStretches : Prop :=
  ∀ (limit runMax runMax' : Nat) (src : List Byte), 2 ≤ runMax → 2 ≤ runMax' →
    (noStretch (limit + 1) src → limit ≤ runMax → limit ≤ runMax' → compress runMax src = compress runMax' src) ∧
    (src.length ≤ 128 → 128 ≤ runMax → 128 ≤ runMax' → compress runMax src = compress runMax' src)

/-- The operations depend on nothing but their own inputs (R142, R165): whatever else two states differ in, equal inputs
give equal results. Where one completes, faults or is refused, the other does the same. -/
def Obligations.OperationsDependOnlyOnTheirInputs : Prop :=
  (∀ s s', s.faulted = false → s'.faulted = false → (∀ a, memByte s.mem.strec a = memByte s'.mem.strec a) →
    (∀ t, exec .stdec s = .next t → ∃ t', exec .stdec s' = .next t' ∧ t.st = t'.st ∧ t'.faulted = false) ∧
    (∀ r, exec .stdec s = .refused r → exec .stdec s' = .refused r)) ∧
  (∀ s s', s.faulted = false → s'.faulted = false → s.params = s'.params → s.srcOff = s'.srcOff →
    s.srcLen = s'.srcLen →
    (∀ a, s.srcOff.toNat ≤ a → a < s.srcOff.toNat + s.srcLen.toNat → memByte s.mem.line a = memByte s'.mem.line a) →
    (∀ t, exec .comp s = .next t → ∃ t', exec .comp s' = .next t' ∧
      t.faulted = t'.faulted ∧ t.fault = (if t.faulted then t'.fault else s.fault) ∧
        (t.faulted = false →
          t.clen = t'.clen ∧ ∀ a, a < t.clen.toNat → memByte t.mem.cbuf a = memByte t'.mem.cbuf a)) ∧
    (∀ r, exec .comp s = .refused r → exec .comp s' = .refused r)) ∧
  (∀ s s', s.faulted = false → s'.faulted = false → s.params = s'.params → s.geo = s'.geo → s.img = s'.img →
    (∀ a, memByte s.mem.pix a = memByte s'.mem.pix a) →
    (∀ t, exec .rast s = .next t → ∃ t', exec .rast s' = .next t' ∧
      t.faulted = t'.faulted ∧ t.fault = (if t.faulted then t'.fault else s.fault) ∧
        (t.faulted = false → t.nlines = t'.nlines ∧ t.lb = t'.lb ∧
          ∀ a, a < t.nlines.toNat * t.lb.toNat → memByte t.mem.line a = memByte t'.mem.line a)) ∧
    (∀ r, exec .rast s = .refused r → exec .rast s' = .refused r))

/-- R26: what an operation may change. -/
def Obligations.OperationsChangeOnlyTheirResults : Prop :=
  ∀ s t, s.params.valid = true →
    (exec .stdec s = .next t → t = { s with st := t.st }) ∧
    (exec .rast s = .next t →
      t = { s with faulted := t.faulted, fault := t.fault, nlines := t.nlines, lb := t.lb,
                   mem := { s.mem with line := t.mem.line } } ∧
      ∀ a, s.img.width.toNat * (s.geo.totalPins.toNat / 8) ≤ a → memByte t.mem.line a = memByte s.mem.line a) ∧
    (exec .comp s = .next t →
      t = { s with faulted := t.faulted, fault := t.fault, clen := t.clen,
                   mem := { s.mem with cbuf := t.mem.cbuf } } ∧
      ∀ a, t.clen.toNat ≤ a → memByte t.mem.cbuf a = memByte s.mem.cbuf a) ∧
    (∀ i, exec i s = .next t → t.faulted = true → s.faulted = false →
      t = { s with faulted := true, fault := t.fault })

/-! ## The reader of compressed lines -/

/-- A record that some control byte means is expanded, and nothing else changes (R71, R137). That the reader's output is
part of the state is the model's choice (log entry 4). -/
def Obligations.ReaderAppendsTheRecord : Prop :=
  (∀ s len v, 2 ≤ len → len ≤ 129 →
    exec (.run len v) s = .next { s with expOut := s.expOut ++ List.replicate len v }) ∧
  (∀ s data, 1 ≤ data.length → data.length ≤ 128 →
    exec (.lit data) s = .next { s with expOut := s.expOut ++ data })

/-- A run length or a literal length that no control byte means has no expansion (R71, R139). That such a record stops as
`unreadableRecord` is the model's form of it (log entry 13). -/
def Obligations.ReaderRefusesOtherLengths : Prop :=
  (∀ s len v, len < 2 ∨ 129 < len → exec (.run len v) s = .refused .unreadableRecord) ∧
  (∀ s data, data.length = 0 ∨ 128 < data.length → exec (.lit data) s = .refused .unreadableRecord)

/-- Reading a compressed line record by record is `expand` (R137): the steps append the expansion and change nothing else. A
malformed line is refused at the record that is cut short, after the records before it have been expanded. That one record
is one step is the model's choice (log entry 4), and that a malformed line is refused there is its form of "no value" (log
entry 19). -/
def Obligations.ReaderStepsComputeExpand : Prop :=
  ∀ s bytes rest, s.host = .expand bytes :: rest →
    (∀ out, expand bytes = some out →
      ∃ n, stepsFrom n s = .next { s with expOut := s.expOut ++ out, host := rest, response := .nothing }) ∧
    (expand bytes = none → ∃ before cut out n t, bytes = before ++ cut ∧ expand before = some out ∧
      readRecord cut = .error .truncated ∧ stepsFrom n s = .next t ∧
      t = { s with expOut := s.expOut ++ out, host := .expand cut :: rest, response := t.response } ∧
      step t = .refused (.malformedLine .truncated))

/-! ## The encoder and the transport at the boundary -/

/-- The commands whose records have no field wider than a byte: each appends its bytes to the stream (R176, R177, R179,
R182, R183, R184, R186, R188, R189) and changes nothing else, but that compression select also records its byte as the
selection in force, in a field of the model's own (log entries 5 and 22). -/
def Obligations.EncoderAppendsByteRecords : Prop :=
  ∀ s, s.enc.frozen = false →
    exec .invalidate s =
      .next { s with enc := { s.enc with stream := s.enc.stream ++ List.replicate 200 0x00 } } ∧
    exec .initPrinter s = .next { s with enc := { s.enc with stream := s.enc.stream ++ [0x1B, 0x40] } } ∧
    (∀ m, exec (.modeSwitch m) s =
      .next { s with enc := { s.enc with stream := s.enc.stream ++ [0x1B, 0x69, 0x61, m] } }) ∧
    (∀ b, exec (.variousMode b) s =
      .next { s with enc := { s.enc with stream := s.enc.stream ++ [0x1B, 0x69, 0x4D, b] } }) ∧
    (∀ c, exec (.pageNumber c) s =
      .next { s with enc := { s.enc with stream := s.enc.stream ++ [0x1B, 0x69, 0x41, c] } }) ∧
    (∀ b, exec (.advancedMode b) s =
      .next { s with enc := { s.enc with stream := s.enc.stream ++ [0x1B, 0x69, 0x4B, b] } }) ∧
    (∀ m, exec (.compressionSelect m) s =
      .next { s with enc := { s.enc with stream := s.enc.stream ++ [0x4D, m], lastSelect := some m } }) ∧
    exec .print s = .next { s with enc := { s.enc with stream := s.enc.stream ++ [0x0C] } } ∧
    exec .printFeed s = .next { s with enc := { s.enc with stream := s.enc.stream ++ [0x1A] } }

/-- The commands with wider fields, which are written least significant byte first (R46, R180, R181, R185, R187). -/
def Obligations.EncoderWritesLittleEndianFields : Prop :=
  ∀ s, s.enc.frozen = false →
    (∀ p : PrintInfo, exec (.printInfo p) s = .next { s with enc := { s.enc with stream := s.enc.stream ++
      [0x1B, 0x69, 0x7A, p.flags, p.mediaType, p.mediaWidth, p.mediaLength,
        BitVec.ofNat 8 (p.rasterLines.toNat % 256), BitVec.ofNat 8 (p.rasterLines.toNat / 256 % 256),
        BitVec.ofNat 8 (p.rasterLines.toNat / 65536 % 256), BitVec.ofNat 8 (p.rasterLines.toNat / 16777216),
        p.pageType, p.reserved] } }) ∧
    (∀ dots : BitVec 16, dots ≠ 0 → exec (.margin dots) s = .next { s with enc := { s.enc with stream :=
      s.enc.stream ++ [0x1B, 0x69, 0x64, BitVec.ofNat 8 (dots.toNat % 256), BitVec.ofNat 8 (dots.toNat / 256)] } }) ∧
    (∀ payload : List Byte, payload.length ≤ 65535 → exec (.rasterTransfer payload) s = .next { s with enc :=
      { s.enc with stream := s.enc.stream ++ ([0x47, BitVec.ofNat 8 (payload.length % 256),
        BitVec.ofNat 8 (payload.length / 256)] ++ payload) } })

/-- A margin of 0 is rejected, not encoded (R185): nothing changes but the answer to the caller. The form of the answer is
the model's choice (log entry 7). -/
def Obligations.MarginOfZeroIsRejected : Prop :=
  ∀ s, s.enc.frozen = false → exec (.margin 0) s = .next { s with response := .rejected }

/-- A status request goes to the transport and is no part of the job's stream (R178, R197, log entry 5). -/
def Obligations.StatusRequestBypassesTheStream : Prop :=
  ∀ s, exec .statusRequest s = .next { s with wire := s.wire ++ [0x1B, 0x69, 0x53] }

/-- After `build()` every use of the encoder is invalid (R175): its commands and a second `build` stop with a fault, which is
the model's form of "invalid" (log entry 6). A payload of more than 65535 bytes cannot be sent (R136, R187); that it stops with
a fault is the model's choice (log entry 18). -/
def Obligations.BuiltEncoderIsUsedUp : Prop :=
  (∀ s i, s.enc.frozen = true → jobItem i ≠ none → i.wf = true → exec i s = .fault .streamFrozen) ∧
  (∀ s rest, s.enc.frozen = true → s.host = .build :: rest → step s = .fault .streamFrozen) ∧
  (∀ s payload, 65535 < payload.length → exec (.rasterTransfer payload) s = .fault .payloadTooLong)

/-- The stream is append-only and, once built, never changes (R175), whatever step is taken, until the host takes a fresh
encoder. That it survives a reset of the block as well is the model's choice (log entry 10). -/
def Obligations.StreamOnlyGrowsUntilBuilt : Prop :=
  ∀ s t, step s = .next t → (∀ rest, s.host ≠ .newEncoder :: rest) →
    s.enc.stream <+: t.enc.stream ∧ (s.enc.frozen = true → t.enc = s.enc)

/-- The compressed line in CBUF becomes the payload of one raster-transfer record, with CLEN as its 16-bit length (R187); so
does a raw raster line of LB bytes (R186). That each is one action of the host is the model's choice (log entry 23). -/
def Obligations.LineOfCbufIsTransferred : Prop :=
  (∀ s rest payload, s.host = .emitLine :: rest → s.enc.frozen = false → s.clen.toNat ≤ 65535 →
    memRead s.mem.cbuf 0 s.clen.toNat = some payload →
    step s = .next { s with host := rest, response := .nothing, enc := { s.enc with stream := s.enc.stream ++
      ([0x47, BitVec.ofNat 8 (s.clen.toNat % 256), BitVec.ofNat 8 (s.clen.toNat / 256)] ++ payload) } }) ∧
  (∀ s rest x payload, s.host = .emitRawLine x :: rest → s.enc.frozen = false → s.lb.toNat ≤ 65535 →
    memRead s.mem.line (x * s.lb.toNat) s.lb.toNat = some payload →
    step s = .next { s with host := rest, response := .nothing, enc := { s.enc with stream := s.enc.stream ++
      ([0x47, BitVec.ofNat 8 (s.lb.toNat % 256), BitVec.ofNat 8 (s.lb.toNat / 256)] ++ payload) } })

/-- The raster-line count in the print information of the page that the block holds is NLINES, four bytes, least significant
first (R181). That this is one action of the host is the model's choice (log entry 23). -/
def Obligations.PageInfoCountsTheLines : Prop :=
  ∀ s rest info, s.host = .emitPageInfo info :: rest → s.enc.frozen = false →
    step s = .next { s with host := rest, response := .nothing, enc := { s.enc with stream := s.enc.stream ++
      [0x1B, 0x69, 0x7A, info.flags, info.mediaType, info.mediaWidth, info.mediaLength,
        BitVec.ofNat 8 (s.nlines.toNat % 256), BitVec.ofNat 8 (s.nlines.toNat / 256 % 256),
        BitVec.ofNat 8 (s.nlines.toNat / 65536 % 256), BitVec.ofNat 8 (s.nlines.toNat / 16777216),
        info.pageType, info.reserved] } }

/-- A status fetch answers a Status of exactly 32 bytes or fails (R192, R193, R197, C6), and by USB sends the status request
first. `loadStatus` writes exactly the 32 bytes to STREC, and nothing when the fetch fails. What comes back is an input of
the model, and so are the bytes that went out before a failure (log entry 24). -/
def Obligations.StatusFetchAnswersOrFails : Prop :=
  (∀ s rest record, record.length = 32 →
    (s.host = .fetchStatus (.network (some record)) :: rest →
      step s = .next { s with host := rest, response := .bytes record }) ∧
    (s.host = .fetchStatus (.usb .ok (some record)) :: rest →
      step s = .next { s with host := rest, response := .bytes record, wire := s.wire ++ [0x1B, 0x69, 0x53] }) ∧
    (s.host = .loadStatus (.network (some record)) :: rest → ∃ t, step s = .next t ∧
      memRead t.mem.strec 0 32 = some record ∧ t.wire = s.wire ∧ t.response = .nothing ∧
      (∀ a, 32 ≤ a → memByte t.mem.strec a = memByte s.mem.strec a) ∧
      t = { s with host := rest, response := .nothing, mem := { s.mem with strec := t.mem.strec } }) ∧
    (s.host = .loadStatus (.usb .ok (some record)) :: rest → ∃ t, step s = .next t ∧
      memRead t.mem.strec 0 32 = some record ∧ t.wire = s.wire ++ [0x1B, 0x69, 0x53] ∧ t.response = .nothing ∧
      (∀ a, 32 ≤ a → memByte t.mem.strec a = memByte s.mem.strec a) ∧
      t = { s with host := rest, response := .nothing, wire := t.wire,
                   mem := { s.mem with strec := t.mem.strec } })) ∧
  (∀ s rest outcome answer n,
    (s.host = .fetchStatus outcome :: rest ∨ s.host = .loadStatus outcome :: rest) →
    (outcome = .network none →
      step s = .next { s with host := rest, response := .failed .transportError }) ∧
    (outcome = .network (some answer) → answer.length ≠ 32 →
      step s = .next { s with host := rest, response := .failed .protocolError }) ∧
    (outcome = .usb .ok none →
      step s = .next { s with host := rest, response := .failed .transportError,
                              wire := s.wire ++ [0x1B, 0x69, 0x53] }) ∧
    (outcome = .usb .ok (some answer) → answer.length ≠ 32 →
      step s = .next { s with host := rest, response := .failed .transportError,
                              wire := s.wire ++ [0x1B, 0x69, 0x53] }) ∧
    (outcome = .usb (.fail n) (some answer) ∨ outcome = .usb (.fail n) none →
      step s = .next { s with host := rest, response := .failed .transportError,
                              wire := s.wire ++ [0x1B, 0x69, 0x53].take n }))

/-- `build` freezes the stream (R175), and `send` gives the built stream to the transport in one write (R200), which is
`ok` or a failure (R192), whenever it comes after the build. How much of it went out before a failure is an input of the
model, and the bytes that went out are state of the model (log entries 5 and 24). A send before `build` is refused, which is
the model's choice (log entry 19). -/
def Obligations.BuildThenSendHandsOverTheStream : Prop :=
  ∀ s rest,
    (s.host = .build :: rest → s.enc.frozen = false →
      step s = .next { s with host := rest, response := .nothing, enc := { s.enc with frozen := true } }) ∧
    (s.host = .send .ok :: rest → s.enc.frozen = true →
      step s = .next { s with host := rest, response := .sent, wire := s.wire ++ s.enc.stream }) ∧
    (∀ n, s.host = .send (.fail n) :: rest → s.enc.frozen = true →
      step s = .next { s with host := rest, response := .failed .transportError,
                              wire := s.wire ++ s.enc.stream.take n }) ∧
    (∀ outcome, s.host = .send outcome :: rest → s.enc.frozen = false → step s = .refused .streamNotBuilt) ∧
    (s.host = .build :: .send .ok :: rest → s.enc.frozen = false →
      stepsFrom 2 s = .next { s with host := rest, response := .sent, wire := s.wire ++ s.enc.stream,
                                     enc := { s.enc with frozen := true } })

/-- R190: the commands of one job, given in the exact order to a fresh encoder, all complete, and the stream they leave is
in the exact order, selects raster mode (R179) and counts its raster lines (R181). It begins with 200 zero bytes, `1B 40` and
`1B 69 61 01`, and ends with the terminal command (R191). That the encoder then holds the select byte (R186) is a field of
the model's own (log entries 5 and 22). -/
def Obligations.JobStreamIsInExactOrder : Prop :=
  ∀ s p payloads continuous, s.enc = freshEncoder → p.marginDots ≠ 0 → payloads.length < 2 ^ 32 →
    (∀ payload, payload ∈ payloads → payload.length ≤ 65535) →
    ∃ t, execAll (jobCommands p payloads continuous) s = .next t ∧ t = { s with enc := t.enc } ∧
      streamInOrder t.enc.stream = true ∧
      List.replicate 200 0x00 ++ [0x1B, 0x40, 0x1B, 0x69, 0x61, 0x01] <+: t.enc.stream ∧
      t.enc.stream.getLast? = some (if continuous then 0x0C else 0x1A) ∧ t.enc.lastSelect = some p.select

/-- The job of the page that the block holds prints NLINES raster lines of LB bytes, in column order, each with the payload
its select byte asks for: compressed when it enables compression, raw when it disables it (R181, R186, R187, R239). Which
bytes enable compression is left open (log entry 8). -/
def Obligations.PageJobPrintsThePage : Prop :=
  ∀ s p continuous commands, s.enc = freshEncoder → p.marginDots ≠ 0 → jobOfPage s p continuous = some commands →
    (∀ payload, .rasterTransfer payload ∈ commands → payload.length ≤ 65535) →
    ∃ t lines, pageLines s = some lines ∧ lines.length = s.nlines.toNat ∧
      (∀ line, line ∈ lines → line.length = s.lb.toNat) ∧ execAll commands s = .next t ∧ t = { s with enc := t.enc } ∧
      streamPrintsLines s.params.runMax s.lb.toNat lines t.enc.stream = true

/-- After a RAST that completes, the page that the block holds is one raster line per column, in column order (R105, R116,
R117). -/
def Obligations.PageHoldsTheRasterLines : Prop :=
  ∀ s t f image, s.faulted = false → exec .rast s = .next t → t.faulted = false → pixelFormat s.img.fmt = some f →
    memRead s.mem.pix 0 (s.img.width.toNat * s.img.height.toNat * f.bpp) = some image →
    pageLines t = some ((List.range s.img.width.toNat).map (rasterLine s.geo f s.img.width.toNat image))

/-- The one row of the Tape Geometry Table that the source gives loads its five fields (R171, R174), every geometry the
table supports satisfies the invariants (R66, R174), and the largest tape class is not supported at the lower resolution
(R171). That a row which would break these is no row of the table, and that the largest class is the largest that has a row,
is the model's form of them (log entry 16). -/
def Obligations.GeometryTableIsValid : Prop :=
  (∀ s rest, s.host = .loadGeometry 12 360 :: rest →
    step s = .next { s with host := rest, response := .nothing, geo := ⟨12, 170, 150, 560, 213⟩ }) ∧
  (∀ widthClass dpi g, lookupGeometry widthClass dpi = some g →
    g.printableDots.toNat ≤ g.widthDots.toNat ∧
      g.rightMarginPins.toNat + g.printableDots.toNat ≤ g.totalPins.toNat ∧ g.totalPins.toNat % 8 = 0 ∧
      widthClass ≤ largestTapeClass) ∧
  (∀ s rest, s.host = .loadGeometry largestTapeClass 180 :: rest →
    step s = .next { s with host := rest, response := .notSupported })

/-! ## Invariants -/

/-- Every step keeps the invariant: legal parameters, canonical buffers in range, FAULT set exactly while FAULTED, ST
registers as some STDEC left them, NLINES lines of LB bytes in LINE and CLEN bytes in CBUF, all written (R16, R19, R20, R21,
R26). -/
def Obligations.StepKeepsTheInvariant : Prop := ∀ s t, s.inv = true → step s = .next t → t.inv = true

/-- The machine after reset satisfies the invariant (R24). The parameters it has there are the model's choice (log entry 1). -/
def Obligations.ResetSatisfiesTheInvariant : Prop := State.reset.inv = true

/-- No step changes the open parameters: they are arguments of the model, not state of the block (R25, log entry 1). -/
def Obligations.StepKeepsTheParameters : Prop := ∀ s t, step s = .next t → t.params = s.params

/-- The surroundings and the block do not touch one another except through the host: an instruction of the block changes
neither the reader, the encoder nor the transport, and an instruction of those changes no register and no buffer (R25,
R165). -/
def Obligations.BlockAndSurroundingsAreSeparate : Prop :=
  ∀ s t i, exec i s = .next t →
    (i ∈ [Instr.stdec, .rast, .comp] → t.expOut = s.expOut ∧ t.enc = s.enc ∧ t.wire = s.wire) ∧
    (i ∉ [Instr.stdec, .rast, .comp] → t.mem = s.mem ∧ ∀ r, readReg t r = readReg s r) ∧
    t.params = s.params ∧ t.host = s.host
end

