-- ==== Sys2Proof/Laws/Memory.lean ====
section
/-! SUPPORT. What the buffer operations do: reading after writing, the canonical form, and reading several bytes. -/

namespace Sys2Proof.Machine

/-! ## One byte -/

@[simp] theorem memByte_nil (a : Nat) : memByte [] a = none := rfl

theorem memByte_cons (k : Nat) (v : Byte) (m : Mem) (a : Nat) :
    memByte ((k, v) :: m) a = if k = a then some v else memByte m a := rfl

theorem memPut_cons (k : Nat) (v : Byte) (m : Mem) (a : Nat) (b : Byte) :
    memPut ((k, v) :: m) a b =
      if a < k then (a, b) :: (k, v) :: m else if a = k then (a, b) :: m else (k, v) :: memPut m a b := rfl

/-- A byte reads as what was stored there last. -/
@[simp] theorem memByte_memPut_self (m : Mem) (a : Nat) (b : Byte) : memByte (memPut m a b) a = some b := by
  induction m with
  | nil => simp [memPut, memByte]
  | cons c m ih =>
    obtain ⟨k, v⟩ := c
    rw [memPut_cons]
    split
    · simp [memByte]
    · split
      · simp [memByte]
      · rename_i h1 h2
        have : ¬ k = a := fun h => h2 h.symm
        simp [memByte, this, ih]

/-- Every other byte reads as before. -/
theorem memByte_memPut_ne (m : Mem) {a a' : Nat} (b : Byte) (h : a' ≠ a) :
    memByte (memPut m a b) a' = memByte m a' := by
  have h' : ¬ a = a' := fun e => h e.symm
  induction m with
  | nil => simp [memPut, memByte, h']
  | cons c m ih =>
    obtain ⟨k, v⟩ := c
    rw [memPut_cons]
    split
    · simp [memByte, h']
    · split
      · rename_i h1 h2
        subst h2
        simp [memByte, h']
      · simp [memByte, ih]

theorem memByte_memPut (m : Mem) (a a' : Nat) (b : Byte) :
    memByte (memPut m a b) a' = if a' = a then some b else memByte m a' := by
  split
  · rename_i h
    rw [h, memByte_memPut_self]
  · rename_i h
    exact memByte_memPut_ne m b h

/-! ## Several bytes -/

@[simp] theorem memWrite_nil (m : Mem) (off : Nat) : memWrite m off [] = m := rfl

@[simp] theorem memWrite_cons (m : Mem) (off : Nat) (b : Byte) (bs : List Byte) :
    memWrite m off (b :: bs) = memWrite (memPut m off b) (off + 1) bs := rfl

/-- What a byte reads as after a write of several bytes. -/
theorem memByte_memWrite (bs : List Byte) : ∀ (m : Mem) (off a : Nat),
    memByte (memWrite m off bs) a =
      if off ≤ a ∧ a < off + bs.length then bs[a - off]? else memByte m a := by
  induction bs with
  | nil =>
    intro m off a
    rw [memWrite_nil, if_neg (by simp)]
  | cons b bs ih =>
    intro m off a
    rw [memWrite_cons, ih, memByte_memPut]
    by_cases h : a = off
    · subst h
      simp
    · by_cases h1 : off + 1 ≤ a ∧ a < off + 1 + bs.length
      · obtain ⟨k, hk⟩ : ∃ k, a - off = k + 1 := ⟨a - off - 1, by omega⟩
        have hk' : a - (off + 1) = k := by omega
        rw [if_pos h1, if_pos (by simp only [List.length_cons]; omega), hk, hk', List.getElem?_cons_succ]
      · rw [if_neg h1, if_neg h, if_neg (by simp only [List.length_cons]; omega)]

/-- Bytes outside the written ones read as before. -/
theorem memByte_memWrite_outside (m : Mem) {off a : Nat} (bs : List Byte) (h : a < off ∨ off + bs.length ≤ a) :
    memByte (memWrite m off bs) a = memByte m a := by
  rw [memByte_memWrite, if_neg (by omega)]

@[simp] theorem memRead_zero (m : Mem) (off : Nat) : memRead m off 0 = some [] := rfl

/-- A read of several bytes answers exactly when all are written, and then those bytes. -/
theorem memRead_eq_some_iff (n : Nat) : ∀ (m : Mem) (off : Nat) (bs : List Byte),
    memRead m off n = some bs ↔ bs.length = n ∧ ∀ k, k < n → memByte m (off + k) = bs[k]? := by
  induction n with
  | zero =>
    intro m off bs
    simp only [memRead_zero, Option.some.injEq, Nat.not_lt_zero, false_implies, implies_true, and_true]
    constructor
    · rintro rfl; rfl
    · intro h; exact (List.length_eq_zero_iff.mp h).symm
  | succ n ih =>
    intro m off bs
    unfold memRead
    cases hb : memByte m off with
    | none =>
      simp only [reduceCtorEq, false_iff, not_and]
      intro hl h
      have := h 0 (by omega)
      rw [Nat.add_zero, hb, List.getElem?_eq_getElem (by omega)] at this
      exact absurd this (by simp)
    | some b =>
      cases hr : memRead m (off + 1) n with
      | none =>
        simp only [reduceCtorEq, false_iff, not_and]
        intro hl h
        cases bs with
        | nil => simp at hl
        | cons c cs =>
          have : memRead m (off + 1) n = some cs := by
            rw [ih]
            refine ⟨by simpa using hl, fun k hk => ?_⟩
            have := h (k + 1) (by omega)
            rw [List.getElem?_cons_succ] at this
            rw [← this]; congr 1; omega
          rw [hr] at this
          exact absurd this (by simp)
      | some rs =>
        have hrs := (ih m (off + 1) rs).mp hr
        simp only [Option.some.injEq]
        constructor
        · rintro rfl
          refine ⟨by simp [hrs.1], fun k hk => ?_⟩
          cases k with
          | zero => simpa using hb
          | succ k =>
            have := hrs.2 k (by omega)
            rw [List.getElem?_cons_succ, ← this]; congr 1; omega
        · rintro ⟨hl, h⟩
          cases bs with
          | nil => simp at hl
          | cons c cs =>
            have h0 := h 0 (by omega)
            rw [Nat.add_zero, hb] at h0
            have hc : some rs = some cs := by
              rw [← hr, ih]
              refine ⟨by simpa using hl, fun k hk => ?_⟩
              have := h (k + 1) (by omega)
              rw [List.getElem?_cons_succ] at this
              rw [← this]; congr 1; omega
            simp only [List.getElem?_cons_zero, Option.some.injEq] at h0
            simp only [Option.some.injEq] at hc
            rw [h0, hc]

/-- A read fails exactly when one of the bytes is unwritten. -/
theorem memRead_eq_none_iff (m : Mem) (off n : Nat) :
    memRead m off n = none ↔ ∃ k, k < n ∧ memByte m (off + k) = none := by
  induction n generalizing off with
  | zero => simp
  | succ n ih =>
    unfold memRead
    cases hb : memByte m off with
    | none => simp only [true_iff]; exact ⟨0, by omega, by simpa using hb⟩
    | some b =>
      have hs : (∃ k, k < n + 1 ∧ memByte m (off + k) = none) ↔ ∃ k, k < n ∧ memByte m (off + 1 + k) = none := by
        constructor
        · rintro ⟨k, hk, h⟩
          cases k with
          | zero => rw [Nat.add_zero, hb] at h; exact absurd h (by simp)
          | succ k => exact ⟨k, by omega, by rw [← h]; congr 1; omega⟩
        · rintro ⟨k, hk, h⟩
          exact ⟨k + 1, by omega, by rw [← h]; congr 1; omega⟩
      rw [hs, ← ih]
      cases memRead m (off + 1) n <;> simp

/-- Reading back what was written. -/
theorem memRead_memWrite_self (m : Mem) (off : Nat) (bs : List Byte) :
    memRead (memWrite m off bs) off bs.length = some bs := by
  rw [memRead_eq_some_iff]
  refine ⟨rfl, fun k hk => ?_⟩
  rw [memByte_memWrite, if_pos (by omega)]
  congr 1; omega

theorem length_of_memRead {m : Mem} {off n : Nat} {bs : List Byte} (h : memRead m off n = some bs) : bs.length = n :=
  ((memRead_eq_some_iff n m off bs).mp h).1

/-! ## The canonical form -/

/-- Every listed offset is above `lo`. -/
theorem Mem.wf_cons_iff (k : Nat) (v : Byte) (m : Mem) :
    Mem.wf ((k, v) :: m) = true ↔ Mem.wf m = true ∧ ∀ c ∈ m.head?, k < c.1 := by
  cases m with
  | nil => simp [Mem.wf]
  | cons c m =>
    obtain ⟨k', v'⟩ := c
    simp [Mem.wf, and_comm]

theorem memPut_head {m : Mem} {a : Nat} {b : Byte} {c : Host.Cell} (h : c ∈ (memPut m a b).head?) :
    c = (a, b) ∨ c ∈ m.head? := by
  cases m with
  | nil => simp only [memPut, List.head?_cons, Option.mem_def, Option.some.injEq] at h; exact .inl h.symm
  | cons d m =>
    obtain ⟨k, v⟩ := d
    rw [memPut_cons] at h
    split at h
    · simp only [List.head?_cons, Option.mem_def, Option.some.injEq] at h; exact .inl h.symm
    · split at h
      · simp only [List.head?_cons, Option.mem_def, Option.some.injEq] at h; exact .inl h.symm
      · simp only [List.head?_cons, Option.mem_def, Option.some.injEq] at h; exact .inr (by simp [← h])

/-- Storing a byte keeps the canonical form. -/
theorem memPut_keeps_wf {m : Mem} (h : Mem.wf m = true) (a : Nat) (b : Byte) : Mem.wf (memPut m a b) = true := by
  induction m with
  | nil => rfl
  | cons c m ih =>
    obtain ⟨k, v⟩ := c
    obtain ⟨hm, hk⟩ := (Mem.wf_cons_iff k v m).mp h
    rw [memPut_cons]
    split
    · rename_i hlt
      rw [Mem.wf_cons_iff]
      exact ⟨h, by simpa using hlt⟩
    · split
      · rename_i _ he
        rw [Mem.wf_cons_iff]
        exact ⟨hm, fun c hc => he ▸ hk c hc⟩
      · rw [Mem.wf_cons_iff]
        refine ⟨ih hm, fun c hc => ?_⟩
        rcases memPut_head hc with rfl | hc'
        · show k < a; omega
        · exact hk c hc'

/-- Storing several bytes keeps the canonical form. -/
theorem memWrite_keeps_wf (bs : List Byte) : ∀ {m : Mem} (off : Nat), Mem.wf m = true → Mem.wf (memWrite m off bs) = true := by
  induction bs with
  | nil => intro m off h; exact h
  | cons b bs ih => intro m off h; exact ih (off + 1) (memPut_keeps_wf h off b)

/-- Storing inside a buffer keeps its bytes in range. -/
theorem memPut_keeps_below {m : Mem} {size a : Nat} (h : Mem.below size m = true) (ha : a < size) (b : Byte) :
    Mem.below size (memPut m a b) = true := by
  induction m with
  | nil => simp [memPut, Mem.below, ha]
  | cons c m ih =>
    obtain ⟨k, v⟩ := c
    have hkm : k < size ∧ Mem.below size m = true := by simpa [Mem.below] using h
    rw [memPut_cons]
    split
    · simpa [Mem.below, ha] using h
    · split
      · simpa [Mem.below, ha] using hkm.2
      · have := ih hkm.2
        simpa [Mem.below, hkm.1] using this

theorem memWrite_keeps_below (bs : List Byte) : ∀ {m : Mem} {size off : Nat}, Mem.below size m = true →
    off + bs.length ≤ size → Mem.below size (memWrite m off bs) = true := by
  induction bs with
  | nil => intro m size off h _; exact h
  | cons b bs ih =>
    intro m size off h hs
    simp only [List.length_cons] at hs
    exact ih (memPut_keeps_below h (by omega) b) (by omega)

/-- A written byte stays written. -/
theorem memWrite_keeps_written (m : Mem) (off a : Nat) (bs : List Byte) (h : memByte m a ≠ none) :
    memByte (memWrite m off bs) a ≠ none := by
  rw [memByte_memWrite]
  split
  · rw [List.getElem?_eq_getElem (by omega)]; simp
  · exact h

/-! ## Buffers by name -/

@[simp] theorem buf_setBuf_self (m : Memory) (sp : Space) (b : Mem) : (m.setBuf sp b).buf sp = b := by
  cases sp <;> rfl

theorem buf_setBuf_ne (m : Memory) {sp sp' : Space} (b : Mem) (h : sp' ≠ sp) : (m.setBuf sp b).buf sp' = m.buf sp' := by
  cases sp <;> cases sp' <;> first | rfl | exact absurd rfl h

/-- Replacing one buffer by one in canonical form keeps the canonical form of all. -/
theorem setBuf_keeps_wf {m : Memory} (h : m.wf = true) {b : Mem} (hb : Mem.wf b = true) (sp : Space) :
    (m.setBuf sp b).wf = true := by
  cases sp <;> simp_all [Memory.wf, Memory.setBuf]

/-- The memory after reset is in canonical form. -/
theorem resetMemory_wf : resetMemory.wf = true := rfl

end Sys2Proof.Machine
end

