-- ==== Sys2Proof/Laws/State.lean ====
section
/-! SUPPORT. What each field of State is after each named update: true by rfl, so that no proof unfolds an update. -/

namespace Sys2Proof.Machine


/-! ## raise -/

@[simp] theorem raise_params (c : FaultCode) (s : State) : (raise c s).params = s.params := rfl
@[simp] theorem raise_faulted (c : FaultCode) (s : State) : (raise c s).faulted = true := rfl
@[simp] theorem raise_fault (c : FaultCode) (s : State) : (raise c s).fault = c := rfl
@[simp] theorem raise_geo (c : FaultCode) (s : State) : (raise c s).geo = s.geo := rfl
@[simp] theorem raise_img (c : FaultCode) (s : State) : (raise c s).img = s.img := rfl
@[simp] theorem raise_nlines (c : FaultCode) (s : State) : (raise c s).nlines = s.nlines := rfl
@[simp] theorem raise_lb (c : FaultCode) (s : State) : (raise c s).lb = s.lb := rfl
@[simp] theorem raise_srcOff (c : FaultCode) (s : State) : (raise c s).srcOff = s.srcOff := rfl
@[simp] theorem raise_srcLen (c : FaultCode) (s : State) : (raise c s).srcLen = s.srcLen := rfl
@[simp] theorem raise_clen (c : FaultCode) (s : State) : (raise c s).clen = s.clen := rfl
@[simp] theorem raise_st (c : FaultCode) (s : State) : (raise c s).st = s.st := rfl
@[simp] theorem raise_mem (c : FaultCode) (s : State) : (raise c s).mem = s.mem := rfl
@[simp] theorem raise_expOut (c : FaultCode) (s : State) : (raise c s).expOut = s.expOut := rfl
@[simp] theorem raise_enc (c : FaultCode) (s : State) : (raise c s).enc = s.enc := rfl
@[simp] theorem raise_wire (c : FaultCode) (s : State) : (raise c s).wire = s.wire := rfl
@[simp] theorem raise_host (c : FaultCode) (s : State) : (raise c s).host = s.host := rfl
@[simp] theorem raise_response (c : FaultCode) (s : State) : (raise c s).response = s.response := rfl

/-! ## resetBlock -/

@[simp] theorem resetBlock_params (s : State) : (resetBlock s).params = s.params := rfl
@[simp] theorem resetBlock_faulted (s : State) : (resetBlock s).faulted = false := rfl
@[simp] theorem resetBlock_fault (s : State) : (resetBlock s).fault = .noFault := rfl
@[simp] theorem resetBlock_geo (s : State) : (resetBlock s).geo = ⟨0, 0, 0, 0, 0⟩ := rfl
@[simp] theorem resetBlock_img (s : State) : (resetBlock s).img = ⟨0, 0, 0⟩ := rfl
@[simp] theorem resetBlock_nlines (s : State) : (resetBlock s).nlines = 0 := rfl
@[simp] theorem resetBlock_lb (s : State) : (resetBlock s).lb = 0 := rfl
@[simp] theorem resetBlock_srcOff (s : State) : (resetBlock s).srcOff = 0 := rfl
@[simp] theorem resetBlock_srcLen (s : State) : (resetBlock s).srcLen = 0 := rfl
@[simp] theorem resetBlock_clen (s : State) : (resetBlock s).clen = 0 := rfl
@[simp] theorem resetBlock_st (s : State) : (resetBlock s).st = resetStatus := rfl
@[simp] theorem resetBlock_mem (s : State) : (resetBlock s).mem = resetMemory := rfl
@[simp] theorem resetBlock_expOut (s : State) : (resetBlock s).expOut = s.expOut := rfl
@[simp] theorem resetBlock_enc (s : State) : (resetBlock s).enc = s.enc := rfl
@[simp] theorem resetBlock_wire (s : State) : (resetBlock s).wire = s.wire := rfl
@[simp] theorem resetBlock_host (s : State) : (resetBlock s).host = s.host := rfl
@[simp] theorem resetBlock_response (s : State) : (resetBlock s).response = s.response := rfl

/-! ## appendExpanded -/

@[simp] theorem appendExpanded_params (s : State) (bs : List Byte) : (appendExpanded s bs).params = s.params := rfl
@[simp] theorem appendExpanded_faulted (s : State) (bs : List Byte) : (appendExpanded s bs).faulted = s.faulted := rfl
@[simp] theorem appendExpanded_fault (s : State) (bs : List Byte) : (appendExpanded s bs).fault = s.fault := rfl
@[simp] theorem appendExpanded_geo (s : State) (bs : List Byte) : (appendExpanded s bs).geo = s.geo := rfl
@[simp] theorem appendExpanded_img (s : State) (bs : List Byte) : (appendExpanded s bs).img = s.img := rfl
@[simp] theorem appendExpanded_nlines (s : State) (bs : List Byte) : (appendExpanded s bs).nlines = s.nlines := rfl
@[simp] theorem appendExpanded_lb (s : State) (bs : List Byte) : (appendExpanded s bs).lb = s.lb := rfl
@[simp] theorem appendExpanded_srcOff (s : State) (bs : List Byte) : (appendExpanded s bs).srcOff = s.srcOff := rfl
@[simp] theorem appendExpanded_srcLen (s : State) (bs : List Byte) : (appendExpanded s bs).srcLen = s.srcLen := rfl
@[simp] theorem appendExpanded_clen (s : State) (bs : List Byte) : (appendExpanded s bs).clen = s.clen := rfl
@[simp] theorem appendExpanded_st (s : State) (bs : List Byte) : (appendExpanded s bs).st = s.st := rfl
@[simp] theorem appendExpanded_mem (s : State) (bs : List Byte) : (appendExpanded s bs).mem = s.mem := rfl
@[simp] theorem appendExpanded_expOut (s : State) (bs : List Byte) : (appendExpanded s bs).expOut = s.expOut ++ bs := rfl
@[simp] theorem appendExpanded_enc (s : State) (bs : List Byte) : (appendExpanded s bs).enc = s.enc := rfl
@[simp] theorem appendExpanded_wire (s : State) (bs : List Byte) : (appendExpanded s bs).wire = s.wire := rfl
@[simp] theorem appendExpanded_host (s : State) (bs : List Byte) : (appendExpanded s bs).host = s.host := rfl
@[simp] theorem appendExpanded_response (s : State) (bs : List Byte) : (appendExpanded s bs).response = s.response := rfl

/-! ## appendStream -/

@[simp] theorem appendStream_params (s : State) (bs : List Byte) : (appendStream s bs).params = s.params := rfl
@[simp] theorem appendStream_faulted (s : State) (bs : List Byte) : (appendStream s bs).faulted = s.faulted := rfl
@[simp] theorem appendStream_fault (s : State) (bs : List Byte) : (appendStream s bs).fault = s.fault := rfl
@[simp] theorem appendStream_geo (s : State) (bs : List Byte) : (appendStream s bs).geo = s.geo := rfl
@[simp] theorem appendStream_img (s : State) (bs : List Byte) : (appendStream s bs).img = s.img := rfl
@[simp] theorem appendStream_nlines (s : State) (bs : List Byte) : (appendStream s bs).nlines = s.nlines := rfl
@[simp] theorem appendStream_lb (s : State) (bs : List Byte) : (appendStream s bs).lb = s.lb := rfl
@[simp] theorem appendStream_srcOff (s : State) (bs : List Byte) : (appendStream s bs).srcOff = s.srcOff := rfl
@[simp] theorem appendStream_srcLen (s : State) (bs : List Byte) : (appendStream s bs).srcLen = s.srcLen := rfl
@[simp] theorem appendStream_clen (s : State) (bs : List Byte) : (appendStream s bs).clen = s.clen := rfl
@[simp] theorem appendStream_st (s : State) (bs : List Byte) : (appendStream s bs).st = s.st := rfl
@[simp] theorem appendStream_mem (s : State) (bs : List Byte) : (appendStream s bs).mem = s.mem := rfl
@[simp] theorem appendStream_expOut (s : State) (bs : List Byte) : (appendStream s bs).expOut = s.expOut := rfl
@[simp] theorem appendStream_enc (s : State) (bs : List Byte) : (appendStream s bs).enc = ⟨s.enc.stream ++ bs, s.enc.frozen, s.enc.lastSelect⟩ := rfl
@[simp] theorem appendStream_wire (s : State) (bs : List Byte) : (appendStream s bs).wire = s.wire := rfl
@[simp] theorem appendStream_host (s : State) (bs : List Byte) : (appendStream s bs).host = s.host := rfl
@[simp] theorem appendStream_response (s : State) (bs : List Byte) : (appendStream s bs).response = s.response := rfl

/-! ## appendWire -/

@[simp] theorem appendWire_params (s : State) (bs : List Byte) : (appendWire s bs).params = s.params := rfl
@[simp] theorem appendWire_faulted (s : State) (bs : List Byte) : (appendWire s bs).faulted = s.faulted := rfl
@[simp] theorem appendWire_fault (s : State) (bs : List Byte) : (appendWire s bs).fault = s.fault := rfl
@[simp] theorem appendWire_geo (s : State) (bs : List Byte) : (appendWire s bs).geo = s.geo := rfl
@[simp] theorem appendWire_img (s : State) (bs : List Byte) : (appendWire s bs).img = s.img := rfl
@[simp] theorem appendWire_nlines (s : State) (bs : List Byte) : (appendWire s bs).nlines = s.nlines := rfl
@[simp] theorem appendWire_lb (s : State) (bs : List Byte) : (appendWire s bs).lb = s.lb := rfl
@[simp] theorem appendWire_srcOff (s : State) (bs : List Byte) : (appendWire s bs).srcOff = s.srcOff := rfl
@[simp] theorem appendWire_srcLen (s : State) (bs : List Byte) : (appendWire s bs).srcLen = s.srcLen := rfl
@[simp] theorem appendWire_clen (s : State) (bs : List Byte) : (appendWire s bs).clen = s.clen := rfl
@[simp] theorem appendWire_st (s : State) (bs : List Byte) : (appendWire s bs).st = s.st := rfl
@[simp] theorem appendWire_mem (s : State) (bs : List Byte) : (appendWire s bs).mem = s.mem := rfl
@[simp] theorem appendWire_expOut (s : State) (bs : List Byte) : (appendWire s bs).expOut = s.expOut := rfl
@[simp] theorem appendWire_enc (s : State) (bs : List Byte) : (appendWire s bs).enc = s.enc := rfl
@[simp] theorem appendWire_wire (s : State) (bs : List Byte) : (appendWire s bs).wire = s.wire ++ bs := rfl
@[simp] theorem appendWire_host (s : State) (bs : List Byte) : (appendWire s bs).host = s.host := rfl
@[simp] theorem appendWire_response (s : State) (bs : List Byte) : (appendWire s bs).response = s.response := rfl

/-! ## transmit -/

@[simp] theorem written_ok (bs : List Byte) : SendOutcome.ok.written bs = bs := rfl
@[simp] theorem written_fail (n : Nat) (bs : List Byte) : (SendOutcome.fail n).written bs = bs.take n := rfl
@[simp] theorem transmit_state (s : State) (bs : List Byte) (o : SendOutcome) : (transmit s bs o).1 = appendWire s (o.written bs) := rfl
@[simp] theorem transmit_ok (s : State) (bs : List Byte) : (transmit s bs .ok).2 = .sent := rfl
@[simp] theorem transmit_fail (s : State) (bs : List Byte) (n : Nat) : (transmit s bs (.fail n)).2 = .failed .transportError := rfl

/-! ## respond -/

@[simp] theorem respond_params (s : State) (r : Response) : (respond s r).params = s.params := rfl
@[simp] theorem respond_faulted (s : State) (r : Response) : (respond s r).faulted = s.faulted := rfl
@[simp] theorem respond_fault (s : State) (r : Response) : (respond s r).fault = s.fault := rfl
@[simp] theorem respond_geo (s : State) (r : Response) : (respond s r).geo = s.geo := rfl
@[simp] theorem respond_img (s : State) (r : Response) : (respond s r).img = s.img := rfl
@[simp] theorem respond_nlines (s : State) (r : Response) : (respond s r).nlines = s.nlines := rfl
@[simp] theorem respond_lb (s : State) (r : Response) : (respond s r).lb = s.lb := rfl
@[simp] theorem respond_srcOff (s : State) (r : Response) : (respond s r).srcOff = s.srcOff := rfl
@[simp] theorem respond_srcLen (s : State) (r : Response) : (respond s r).srcLen = s.srcLen := rfl
@[simp] theorem respond_clen (s : State) (r : Response) : (respond s r).clen = s.clen := rfl
@[simp] theorem respond_st (s : State) (r : Response) : (respond s r).st = s.st := rfl
@[simp] theorem respond_mem (s : State) (r : Response) : (respond s r).mem = s.mem := rfl
@[simp] theorem respond_expOut (s : State) (r : Response) : (respond s r).expOut = s.expOut := rfl
@[simp] theorem respond_enc (s : State) (r : Response) : (respond s r).enc = s.enc := rfl
@[simp] theorem respond_wire (s : State) (r : Response) : (respond s r).wire = s.wire := rfl
@[simp] theorem respond_host (s : State) (r : Response) : (respond s r).host = s.host := rfl
@[simp] theorem respond_response (s : State) (r : Response) : (respond s r).response = r := rfl

/-! ## takeAction -/

@[simp] theorem takeAction_params (s : State) (rest : List HostAction) : (takeAction s rest).params = s.params := rfl
@[simp] theorem takeAction_faulted (s : State) (rest : List HostAction) : (takeAction s rest).faulted = s.faulted := rfl
@[simp] theorem takeAction_fault (s : State) (rest : List HostAction) : (takeAction s rest).fault = s.fault := rfl
@[simp] theorem takeAction_geo (s : State) (rest : List HostAction) : (takeAction s rest).geo = s.geo := rfl
@[simp] theorem takeAction_img (s : State) (rest : List HostAction) : (takeAction s rest).img = s.img := rfl
@[simp] theorem takeAction_nlines (s : State) (rest : List HostAction) : (takeAction s rest).nlines = s.nlines := rfl
@[simp] theorem takeAction_lb (s : State) (rest : List HostAction) : (takeAction s rest).lb = s.lb := rfl
@[simp] theorem takeAction_srcOff (s : State) (rest : List HostAction) : (takeAction s rest).srcOff = s.srcOff := rfl
@[simp] theorem takeAction_srcLen (s : State) (rest : List HostAction) : (takeAction s rest).srcLen = s.srcLen := rfl
@[simp] theorem takeAction_clen (s : State) (rest : List HostAction) : (takeAction s rest).clen = s.clen := rfl
@[simp] theorem takeAction_st (s : State) (rest : List HostAction) : (takeAction s rest).st = s.st := rfl
@[simp] theorem takeAction_mem (s : State) (rest : List HostAction) : (takeAction s rest).mem = s.mem := rfl
@[simp] theorem takeAction_expOut (s : State) (rest : List HostAction) : (takeAction s rest).expOut = s.expOut := rfl
@[simp] theorem takeAction_enc (s : State) (rest : List HostAction) : (takeAction s rest).enc = s.enc := rfl
@[simp] theorem takeAction_wire (s : State) (rest : List HostAction) : (takeAction s rest).wire = s.wire := rfl
@[simp] theorem takeAction_host (s : State) (rest : List HostAction) : (takeAction s rest).host = rest := rfl
@[simp] theorem takeAction_response (s : State) (rest : List HostAction) : (takeAction s rest).response = .nothing := rfl

/-! ## rastDone -/

@[simp] theorem rastDone_params (s : State) (f : PixelFormat) (image : List Byte) : (rastDone s f image).params = s.params := rfl
@[simp] theorem rastDone_faulted (s : State) (f : PixelFormat) (image : List Byte) : (rastDone s f image).faulted = s.faulted := rfl
@[simp] theorem rastDone_fault (s : State) (f : PixelFormat) (image : List Byte) : (rastDone s f image).fault = s.fault := rfl
@[simp] theorem rastDone_geo (s : State) (f : PixelFormat) (image : List Byte) : (rastDone s f image).geo = s.geo := rfl
@[simp] theorem rastDone_img (s : State) (f : PixelFormat) (image : List Byte) : (rastDone s f image).img = s.img := rfl
@[simp] theorem rastDone_nlines (s : State) (f : PixelFormat) (image : List Byte) : (rastDone s f image).nlines = s.img.width := rfl
@[simp] theorem rastDone_lb (s : State) (f : PixelFormat) (image : List Byte) : (rastDone s f image).lb = BitVec.ofNat 32 (lineBytes s.geo) := rfl
@[simp] theorem rastDone_srcOff (s : State) (f : PixelFormat) (image : List Byte) : (rastDone s f image).srcOff = s.srcOff := rfl
@[simp] theorem rastDone_srcLen (s : State) (f : PixelFormat) (image : List Byte) : (rastDone s f image).srcLen = s.srcLen := rfl
@[simp] theorem rastDone_clen (s : State) (f : PixelFormat) (image : List Byte) : (rastDone s f image).clen = s.clen := rfl
@[simp] theorem rastDone_st (s : State) (f : PixelFormat) (image : List Byte) : (rastDone s f image).st = s.st := rfl
@[simp] theorem rastDone_mem (s : State) (f : PixelFormat) (image : List Byte) : (rastDone s f image).mem = ⟨s.mem.pix, storeLines s.geo f s.img.width.toNat image s.mem.line, s.mem.cbuf, s.mem.strec⟩ := rfl
@[simp] theorem rastDone_expOut (s : State) (f : PixelFormat) (image : List Byte) : (rastDone s f image).expOut = s.expOut := rfl
@[simp] theorem rastDone_enc (s : State) (f : PixelFormat) (image : List Byte) : (rastDone s f image).enc = s.enc := rfl
@[simp] theorem rastDone_wire (s : State) (f : PixelFormat) (image : List Byte) : (rastDone s f image).wire = s.wire := rfl
@[simp] theorem rastDone_host (s : State) (f : PixelFormat) (image : List Byte) : (rastDone s f image).host = s.host := rfl
@[simp] theorem rastDone_response (s : State) (f : PixelFormat) (image : List Byte) : (rastDone s f image).response = s.response := rfl

/-! ## compDone -/

@[simp] theorem compDone_params (s : State) (out : List Byte) : (compDone s out).params = s.params := rfl
@[simp] theorem compDone_faulted (s : State) (out : List Byte) : (compDone s out).faulted = s.faulted := rfl
@[simp] theorem compDone_fault (s : State) (out : List Byte) : (compDone s out).fault = s.fault := rfl
@[simp] theorem compDone_geo (s : State) (out : List Byte) : (compDone s out).geo = s.geo := rfl
@[simp] theorem compDone_img (s : State) (out : List Byte) : (compDone s out).img = s.img := rfl
@[simp] theorem compDone_nlines (s : State) (out : List Byte) : (compDone s out).nlines = s.nlines := rfl
@[simp] theorem compDone_lb (s : State) (out : List Byte) : (compDone s out).lb = s.lb := rfl
@[simp] theorem compDone_srcOff (s : State) (out : List Byte) : (compDone s out).srcOff = s.srcOff := rfl
@[simp] theorem compDone_srcLen (s : State) (out : List Byte) : (compDone s out).srcLen = s.srcLen := rfl
@[simp] theorem compDone_clen (s : State) (out : List Byte) : (compDone s out).clen = BitVec.ofNat 32 out.length := rfl
@[simp] theorem compDone_st (s : State) (out : List Byte) : (compDone s out).st = s.st := rfl
@[simp] theorem compDone_mem (s : State) (out : List Byte) : (compDone s out).mem = ⟨s.mem.pix, s.mem.line, memWrite s.mem.cbuf 0 out, s.mem.strec⟩ := rfl
@[simp] theorem compDone_expOut (s : State) (out : List Byte) : (compDone s out).expOut = s.expOut := rfl
@[simp] theorem compDone_enc (s : State) (out : List Byte) : (compDone s out).enc = s.enc := rfl
@[simp] theorem compDone_wire (s : State) (out : List Byte) : (compDone s out).wire = s.wire := rfl
@[simp] theorem compDone_host (s : State) (out : List Byte) : (compDone s out).host = s.host := rfl
@[simp] theorem compDone_response (s : State) (out : List Byte) : (compDone s out).response = s.response := rfl

end Sys2Proof.Machine
end

