-- ==== Sys2Proof/Laws/Meaning.lean ====
section
/-! SUPPORT. What each shared operation and each meaning can do, said once: if it answers a next state, then one of these
cases holds. A proof cites these instead of unfolding a meaning. -/

namespace Sys2Proof.Machine

/-! ## Registers -/

/-- The number of a register leads back to it. -/
@[simp] theorem regOfNumber_number (r : Reg) : regOfNumber r.number = some r := by
  cases r <;> rfl

/-- A number that leads to a register is its number. -/
theorem number_of_regOfNumber {n : Nat} {r : Reg} (h : regOfNumber n = some r) : r.number = n := by
  have small : ∀ m, m < 0x48 → ((regOfNumber m).map Reg.number).getD m = m := by decide +kernel
  by_cases hn : n < 0x48
  · simpa [h] using small n hn
  · have hnone : regOfNumber n = none := by
      unfold regOfNumber
      repeat rw [if_neg (by omega)]
    rw [h] at hnone
    cases hnone

/-- A register that the host writes reads back what was written. -/
theorem readReg_writeReg_self (s : State) {r : Reg} (h : r.writable = true) (v : Word) :
    readReg (writeReg s r v) r = v := by
  cases r <;> first | rfl | cases h

/-- Every other register reads as before. -/
theorem readReg_writeReg_ne (s : State) {r r' : Reg} (h : r' ≠ r) (v : Word) :
    readReg (writeReg s r v) r' = readReg s r' := by
  cases r <;> first
    | rfl
    | (cases r' <;> first | rfl | exact absurd rfl h)

/-- A write to a register that the host cannot write changes nothing. -/
theorem writeReg_readonly (s : State) {r : Reg} (h : r.writable = false) (v : Word) : writeReg s r v = s := by
  cases r <;> first | rfl | cases h

/-! ## Guards -/

theorem unlessFaulted_faulted {s : State} (h : s.faulted = true) (op : Result) : unlessFaulted s op = .next s := by
  simp [unlessFaulted, h]

theorem unlessFaulted_ready {s : State} (h : s.faulted = false) (op : Result) : unlessFaulted s op = op := by
  simp [unlessFaulted, h]

theorem unlessFrozen_open {s : State} (h : s.enc.frozen = false) (op : Result) : unlessFrozen s op = op := by
  simp [unlessFrozen, h]

theorem unlessFrozen_frozen {s : State} (h : s.enc.frozen = true) (op : Result) :
    unlessFrozen s op = .fault .streamFrozen := by
  simp [unlessFrozen, h]

/-! ## Meanings -/

/-- Everything STDEC can do. -/
theorem execStdec_next {s t : State} (h : execStdec s = .next t) :
    (s.faulted = true ∧ t = s) ∨
      (s.faulted = false ∧ ∃ record, memRead s.mem.strec 0 Config.statusLen = some record ∧
        t = { s with st := decodeStatus record }) := by
  unfold execStdec unlessFaulted at h
  split at h
  · rename_i hf; cases h; exact .inl ⟨hf, rfl⟩
  · rename_i hf
    split at h
    · cases h
    · rename_i record hr; cases h; exact .inr ⟨by simpa using hf, record, hr, rfl⟩

/-- Everything RAST can do. -/
theorem execRast_next {s t : State} (h : execRast s = .next t) :
    (s.faulted = true ∧ t = s) ∨
      (s.faulted = false ∧ ∃ c, rastCheck s.params s.geo s.img = .error c ∧ t = raise c s) ∨
      (s.faulted = false ∧ ∃ f image, rastCheck s.params s.geo s.img = .ok f ∧
        memRead s.mem.pix 0 (imageBytes s.img f) = some image ∧ t = rastDone s f image) := by
  unfold execRast unlessFaulted at h
  split at h
  · rename_i hf; cases h; exact .inl ⟨hf, rfl⟩
  · rename_i hf
    have hf' : s.faulted = false := by simpa using hf
    split at h
    · rename_i c hc; cases h; exact .inr (.inl ⟨hf', c, hc, rfl⟩)
    · rename_i f hc
      split at h
      · cases h
      · rename_i image hi; cases h; exact .inr (.inr ⟨hf', f, image, hc, hi, rfl⟩)

/-- Everything COMP can do. -/
theorem execComp_next {s t : State} (h : execComp s = .next t) :
    (s.faulted = true ∧ t = s) ∨
      (s.faulted = false ∧ t = raise .capacity s) ∨
      (s.faulted = false ∧ s.srcOff.toNat + s.srcLen.toNat ≤ s.params.lineSize ∧
        ∃ src, memRead s.mem.line s.srcOff.toNat s.srcLen.toNat = some src ∧
          (compress s.params.runMax src).length ≤ s.params.cbufSize ∧
          t = compDone s (compress s.params.runMax src)) := by
  unfold execComp unlessFaulted at h
  split at h
  · rename_i hf; cases h; exact .inl ⟨hf, rfl⟩
  · rename_i hf
    have hf' : s.faulted = false := by simpa using hf
    split at h
    · cases h; exact .inr (.inl ⟨hf', rfl⟩)
    · rename_i hw
      split at h
      · cases h
      · rename_i src hs
        split at h
        · cases h; exact .inr (.inl ⟨hf', rfl⟩)
        · rename_i ho
          cases h
          exact .inr (.inr ⟨hf', by omega, src, hs, by omega, rfl⟩)

/-- Everything the reader can do with a record. -/
theorem readerTakes_next {s t : State} {i : Instr} {r : Record} (h : readerTakes s i r = .next t) :
    i.wf = true ∧ t = appendExpanded s (recordBytes r) := by
  unfold readerTakes at h
  split at h
  · rename_i hw; cases h; exact ⟨hw, rfl⟩
  · cases h

/-- Everything the encoder can do with a command. -/
theorem encodeInto_next {s t : State} {i : Instr} (h : encodeInto s i = .next t) :
    s.enc.frozen = false ∧ t = appendStream s (encodeBytes i) := by
  unfold encodeInto unlessFrozen at h
  split at h
  · cases h
  · rename_i hf; cases h; exact ⟨by simpa using hf, rfl⟩

/-! ## The transport -/

/-- What a send that answers a next state has done. -/
theorem sendStream_next {s t : State} {outcome : SendOutcome} (h : sendStream s outcome = .next t) :
    s.enc.frozen = true ∧
      t = respond (appendWire s (outcome.written s.enc.stream)) (transmit s s.enc.stream outcome).2 := by
  unfold sendStream at h
  split at h
  · rename_i hf; cases h; exact ⟨hf, rfl⟩
  · cases h

/-- A Status has exactly 32 bytes. -/
theorem statusOf_ok {outcome : FetchOutcome} {record : List Byte} (h : statusOf outcome = .ok record) :
    record.length = Config.statusLen := by
  unfold statusOf at h
  split at h
  · cases h
  · split at h
    · rename_i hl; cases h; exact hl
    · cases h
  · cases h
  · cases h
  · split at h
    · rename_i hl; cases h; exact hl
    · cases h

/-- Everything a status fetch can do. -/
theorem fetchStatus_next {s t : State} {outcome : FetchOutcome} (h : fetchStatus s outcome = .next t) :
    ∃ r, t = respond (appendWire s (fetchRequest outcome)) r := by
  unfold fetchStatus at h
  split at h <;> (cases h; exact ⟨_, rfl⟩)

/-- A host write inside a buffer. -/
theorem hostWriteMem_inside {s : State} {space : Space} {off : Nat} {bytes : List Byte}
    (h : off + bytes.length ≤ bufSize s.params space) :
    hostWriteMem s space off bytes =
      .next { s with mem := s.mem.setBuf space (memWrite (s.mem.buf space) off bytes) } := by
  unfold hostWriteMem
  rw [if_neg (by omega)]

/-- Everything the loading of a status can do. -/
theorem loadStatus_next {s t : State} {outcome : FetchOutcome} (h : loadStatus s outcome = .next t) :
    (∃ record, statusOf outcome = .ok record ∧
        t = { appendWire s (fetchRequest outcome) with
                mem := { s.mem with strec := memWrite s.mem.strec 0 record } }) ∨
      (∃ e, statusOf outcome = .error e ∧ t = respond (appendWire s (fetchRequest outcome)) (.failed e)) := by
  unfold loadStatus at h
  split at h
  · rename_i record hr
    rw [hostWriteMem_inside (by simp [statusOf_ok hr, bufSize])] at h
    cases h
    exact .inl ⟨record, hr, rfl⟩
  · rename_i e he
    cases h
    exact .inr ⟨e, he, rfl⟩

/-! ## The raster lines of a page -/

/-- The lines that are read: as many as asked for, line `x + k` at its place, each of `lb` bytes. -/
theorem readLines_some {m : Mem} {lb : Nat} : ∀ {n x : Nat} {lines : List (List Byte)},
    readLines m lb x n = some lines →
      lines.length = n ∧ (∀ k, k < n → lines[k]? = memRead m ((x + k) * lb) lb) ∧
        ∀ line, line ∈ lines → line.length = lb
  | 0, x, lines, h => by
    simp only [readLines, Option.some.injEq] at h
    subst h
    simp
  | n + 1, x, lines, h => by
    unfold readLines at h
    split at h
    · cases h
    · rename_i first hf
      split at h
      · cases h
      · rename_i more hm
        obtain ⟨hl, hk, hb⟩ := readLines_some hm
        cases h
        refine ⟨by simp [hl], fun k hkn => ?_, fun line hline => ?_⟩
        · cases k with
          | zero => simp [hf]
          | succ k =>
            rw [List.getElem?_cons_succ, hk k (by omega)]
            congr 2
            omega
        · rcases List.mem_cons.1 hline with rfl | hin
          · exact length_of_memRead hf
          · exact hb line hin

/-- Every line has its payload, in the lines' order. -/
theorem payloadsFor_some {runMax lb : Nat} {select : Option Byte} : ∀ {lines payloads : List (List Byte)},
    payloadsFor runMax lb select lines = some payloads →
      lines.map (payloadFor runMax lb select) = payloads.map some
  | [], payloads, h => by
    simp only [payloadsFor, Option.some.injEq] at h
    subst h
    rfl
  | line :: lines, payloads, h => by
    unfold payloadsFor at h
    split at h
    · cases h
    · rename_i payload hp
      split at h
      · cases h
      · rename_i rest hr
        cases h
        simp [hp, payloadsFor_some hr]

/-! ## Steps -/

/-- With nothing left for the host to do, a step changes nothing. -/
theorem step_idle {s : State} (h : s.host = []) : step s = .next s := by
  unfold step; rw [h]

/-- Otherwise it is the host's next action. -/
theorem step_cons {s : State} {a : HostAction} {rest : List HostAction} (h : s.host = a :: rest) :
    step s = runAction (takeAction s rest) a := by
  unfold step; rw [h]

end Sys2Proof.Machine
end

