-- ==== Sys2Proof/Laws/PerInstr.lean ====
section
/-! SUPPORT. Statements for all instructions, one lemma per constructor. `TablePattern`: the words of a well-formed
instruction have the length and begin with the opcode that its row of spec/opcode_table.json gives. -/

namespace Sys2Proof.Laws.TablePattern

-- One theorem at a time: elaborated side by side, kernel evaluations can need more threads than memory allows.
set_option Elab.async false

/-- The opcode bytes of a row; a record's control byte is an operand. -/
def opcode : Instr → List Byte
  | .stdec | .rast | .comp | .run _ _ | .lit _ => []
  | .invalidate => [0x00]
  | .initPrinter => [0x1B, 0x40]
  | .statusRequest => [0x1B, 0x69, 0x53]
  | .modeSwitch _ => [0x1B, 0x69, 0x61]
  | .printInfo _ => [0x1B, 0x69, 0x7A]
  | .variousMode _ => [0x1B, 0x69, 0x4D]
  | .pageNumber _ => [0x1B, 0x69, 0x41]
  | .advancedMode _ => [0x1B, 0x69, 0x4B]
  | .margin _ => [0x1B, 0x69, 0x64]
  | .compressionSelect _ => [0x4D]
  | .rasterTransfer _ => [0x47]
  | .print => [0x0C]
  | .printFeed => [0x1A]

/-- The number of bytes of a row, opcode and parameters; a command of the block is no bytes but one register value. -/
def size : Instr → Nat
  | .stdec | .rast | .comp => 0
  | .run _ _ => 2
  | .lit data => data.length + 1
  | .invalidate => 200
  | .initPrinter => 2
  | .statusRequest => 3
  | .modeSwitch _ | .variousMode _ | .pageNumber _ | .advancedMode _ => 3 + 1
  | .printInfo _ => 3 + 10
  | .margin _ => 3 + 2
  | .compressionSelect _ => 1 + 1
  | .rasterTransfer payload => 1 + 2 + payload.length
  | .print | .printFeed => 1

/-- Bit 7 of the control byte, for a record: 1 for RUN, 0 for LIT. -/
def sign : Instr → Option Bool
  | .run _ _ => some true
  | .lit _ => some false
  | .stdec | .rast | .comp | .invalidate | .initPrinter | .statusRequest | .modeSwitch _ | .printInfo _ => none
  | .variousMode _ | .pageNumber _ | .advancedMode _ | .margin _ | .compressionSelect _ | .rasterTransfer _ => none
  | .print | .printFeed => none

/-- The encoding of a well-formed instruction is as its row says. -/
def Statement (i : Instr) : Prop :=
  i.wf = true → (encodeBytes i).length = size i ∧ (encodeBytes i).take (opcode i).length = opcode i ∧
    ∀ b, sign i = some b → ((encodeBytes i).headD 0).msb = b

theorem stdec : Statement .stdec := by simp [Statement, encodeBytes, size, opcode, sign]

theorem rast : Statement .rast := by simp [Statement, encodeBytes, size, opcode, sign]

theorem comp : Statement .comp := by simp [Statement, encodeBytes, size, opcode, sign]

/-- Every run length that a reader can read has a control byte with bit 7 set. -/
theorem runControl_msb : ∀ len, len < 130 → 2 ≤ len → (runControl len).msb = true := by decide +kernel

/-- Every literal length that a reader can read has a control byte with bit 7 clear. -/
theorem litControl_msb : ∀ k, k < 129 → 1 ≤ k → (litControl k).msb = false := by decide +kernel

theorem run (len : Nat) (value : Byte) : Statement (.run len value) := by
  intro h
  have h' : 2 ≤ len ∧ len ≤ 129 := by simpa [Instr.wf] using h
  have := runControl_msb len (by omega) h'.1
  simp [encodeBytes, encodeRecord, size, opcode, sign, this]

theorem lit (data : List Byte) : Statement (.lit data) := by
  intro h
  have h' : 1 ≤ data.length ∧ data.length ≤ 128 := by
    simpa only [Instr.wf, Bool.and_eq_true, decide_eq_true_eq] using h
  have hc := litControl_msb data.length (by omega) h'.1
  refine ⟨rfl, rfl, fun b hb => ?_⟩
  cases hb
  exact hc

theorem invalidate : Statement .invalidate := by
  intro _
  refine ⟨by decide +kernel, by decide +kernel, by intro b h; cases h⟩

theorem initPrinter : Statement .initPrinter := by simp [Statement, encodeBytes, size, opcode, sign]

theorem statusRequest : Statement .statusRequest := by simp [Statement, encodeBytes, size, opcode, sign]

theorem modeSwitch (mode : Byte) : Statement (.modeSwitch mode) := by simp [Statement, encodeBytes, size, opcode, sign]

theorem printInfo (info : PrintInfo) : Statement (.printInfo info) := by
  simp [Statement, encodeBytes, encodePrintInfo, le32, size, opcode, sign]

theorem variousMode (bits : Byte) : Statement (.variousMode bits) := by
  simp [Statement, encodeBytes, size, opcode, sign]

theorem pageNumber (cutInterval : Byte) : Statement (.pageNumber cutInterval) := by
  simp [Statement, encodeBytes, size, opcode, sign]

theorem advancedMode (bits : Byte) : Statement (.advancedMode bits) := by
  simp [Statement, encodeBytes, size, opcode, sign]

theorem margin (dots : BitVec 16) : Statement (.margin dots) := by
  simp [Statement, encodeBytes, le16, size, opcode, sign]

theorem compressionSelect (mode : Byte) : Statement (.compressionSelect mode) := by
  simp [Statement, encodeBytes, size, opcode, sign]

theorem rasterTransfer (payload : List Byte) : Statement (.rasterTransfer payload) := by
  intro _
  refine ⟨?_, ?_, by intro b h; cases h⟩
  · simp [encodeBytes, le16, size]; omega
  · simp [encodeBytes, opcode]

theorem print : Statement .print := by simp [Statement, encodeBytes, size, opcode, sign]

theorem printFeed : Statement .printFeed := by simp [Statement, encodeBytes, size, opcode, sign]

end Sys2Proof.Laws.TablePattern
end

