-- ==== Sys2Proof/Tests/Slice0.lean ====
section
/-! SUPPORT. Tests of the model against values from outside it (the vectors of spec/95_test_vectors.md, encodings written
out by hand from spec/30_encoding.md and spec/44_surroundings.md), and for every statement of the obligations that has
hypotheses a state and operands that meet them. -/

namespace Sys2Proof.Tests

open Sys2Proof Sys2Proof.Machine

-- One theorem at a time: elaborated side by side, kernel evaluations can need more threads than memory allows.
set_option Elab.async false

/-! ## Helpers -/

/-- The next state of a result, if it has one. -/
def stateOf : Result → Option State
  | .next s => some s
  | .fault _ => none
  | .refused _ => none

/-- The refusal of a result, if it is one. -/
def refusalOf : Result → Option Refusal
  | .next _ => none
  | .fault _ => none
  | .refused r => some r

/-- Reset with small buffers of 64 bytes each. -/
def small : State := { State.reset with params := ⟨255, 64, 64, 64⟩ }

/-- A status record of zeros but for the five bytes the block decodes. -/
def recordOf (model err1 err2 mediaW mediaT : Byte) : List Byte :=
  [0, 0, 0, 0, model, 0, 0, 0, err1, err2, mediaW, mediaT] ++ List.replicate 20 0

/-- `small` with that record in STREC. -/
def withRecord (model err1 err2 mediaW mediaT : Byte) : State :=
  { small with mem := { small.mem with strec := memWrite [] 0 (recordOf model err1 err2 mediaW mediaT) } }

/-- `small` with an image: geometry, image registers, PIX from offset 0. -/
def withImage (g : Geometry) (img : ImageRegs) (pix : List Byte) : State :=
  { small with geo := g, img := img, mem := { small.mem with pix := memWrite [] 0 pix } }

/-- `small` with LINE from offset 0 and a source window. -/
def withLine (line : List Byte) (off len : Word) : State :=
  { small with srcOff := off, srcLen := len, mem := { small.mem with line := memWrite [] 0 line } }

/-- `small` with one action of the host. -/
def doing (a : HostAction) : State := { small with host := [a] }

/-- A faulted block. -/
def faultedState : State := raise .illegalCmd small

/-! ## WellFormed: each check refuses an ill-formed term, and admits its bounds -/

theorem test_wf_run_of_one : (Instr.run 1 0).wf = false := by decide
theorem test_wf_run_of_130 : (Instr.run 130 0).wf = false := by decide
theorem test_wf_lit_of_none : (Instr.lit []).wf = false := by decide
theorem test_wf_lit_of_129 : (Instr.lit (List.replicate 129 0)).wf = false := by decide +kernel
theorem test_wf_transfer_of_65536 : (Instr.rasterTransfer (List.replicate 65536 0)).wf = false := by
  rw [Instr.wf, List.length_replicate]; decide
theorem test_wf_bounds : (Instr.run 2 0).wf = true ∧ (Instr.run 129 0).wf = true ∧ (Instr.lit [0]).wf = true ∧
    (Instr.lit (List.replicate 128 0)).wf = true := by decide +kernel
theorem test_emittable : (Record.run 130 0).emittable 255 = true ∧ (Record.run 130 0).emittable 129 = false ∧
    (Record.lit (List.replicate 128 0)).emittable 255 = false := by decide +kernel

/-! ## Decoding words written out from the spec -/

/-- R62: bits 7:0 are the code, bits 31:8 zero. -/
theorem test_decode_commands :
    decode (.cmd 0b00000000000000000000000000000001) = .ok (.stdec, []) ∧
    decode (.cmd 0b00000000000000000000000000000010) = .ok (.rast, []) ∧
    decode (.cmd 0b00000000000000000000000000000011) = .ok (.comp, []) := by decide +kernel

/-- R63, vectors Q1 to Q3: code 0, code 4 and an upper bit set are no commands. -/
theorem test_decode_illegal : decode (.cmd 0) = .error (.illegalCommand 0) ∧
    decode (.cmd 4) = .error (.illegalCommand 4) ∧ decode (.cmd 0x103) = .error (.illegalCommand 0x103) := by
  decide +kernel

/-- R69, R71: control bytes `10111011` (70 copies), `11111111` (2), `10000000` (129), each with its value byte. -/
theorem test_decode_runs :
    decode (.stream [0b10111011, 0b00000000]) = .ok (.run 70 0, []) ∧
    decode (.stream [0b11111111, 0b00000101]) = .ok (.run 2 5, []) ∧
    decode (.stream [0b10000000, 0b00000111]) = .ok (.run 129 7, []) := by decide +kernel

/-- R70, R71, R72: control bytes `00000000` (1 byte) and `00000010` (3 bytes), then a record cut short (vectors X8, X9). -/
theorem test_decode_literals :
    decode (.stream [0b00000000, 0b01000010]) = .ok (.lit [0x42], []) ∧
    decode (.stream [0b00000010, 1, 2, 3, 0xBB]) = .ok (.lit [1, 2, 3], [0xBB]) ∧
    decode (.stream [0xFF]) = .error .truncated ∧ decode (.stream [0x02, 0x01, 0x02]) = .error .truncated := by
  decide +kernel

/-- R177 to R184, R186, R188, R189. -/
theorem test_decode_byte_commands :
    decode (.protocol [0x1B, 0x40]) = .ok (.initPrinter, []) ∧
    decode (.protocol [0x1B, 0x69, 0x53]) = .ok (.statusRequest, []) ∧
    decode (.protocol [0x1B, 0x69, 0x61, 0x01]) = .ok (.modeSwitch 0x01, []) ∧
    decode (.protocol [0x1B, 0x69, 0x4D, 0x40]) = .ok (.variousMode 0x40, []) ∧
    decode (.protocol [0x1B, 0x69, 0x41, 0x02]) = .ok (.pageNumber 0x02, []) ∧
    decode (.protocol [0x1B, 0x69, 0x4B, 0x08]) = .ok (.advancedMode 0x08, []) ∧
    decode (.protocol [0x4D, 0x02]) = .ok (.compressionSelect 0x02, []) ∧
    decode (.protocol [0b00001100]) = .ok (.print, []) ∧ decode (.protocol [0b00011010]) = .ok (.printFeed, []) := by
  decide +kernel

/-- R180, R181: ten parameter bytes, 772 = 0x0304 raster lines least significant byte first. -/
theorem test_decode_print_info :
    decode (.protocol [0x1B, 0x69, 0x7A, 0x86, 0x01, 0x0C, 0x00, 0x04, 0x03, 0x00, 0x00, 0x02, 0x00, 0x1A]) =
      .ok (.printInfo ⟨0x86, 0x01, 0x0C, 0x00, 772, 0x02, 0x00⟩, [0x1A]) := by decide +kernel

/-- R185: 14 = `0E 00`, 270 = `0E 01`. -/
theorem test_decode_margin :
    decode (.protocol [0x1B, 0x69, 0x64, 0x0E, 0x00]) = .ok (.margin 14, []) ∧
    decode (.protocol [0x1B, 0x69, 0x64, 0x0E, 0x01]) = .ok (.margin 270, []) := by decide +kernel

/-- R187: the record `47 02 00 BB 00` of program P1, and one cut short. -/
theorem test_decode_transfer :
    decode (.protocol [0x47, 0x02, 0x00, 0xBB, 0x00]) = .ok (.rasterTransfer [0xBB, 0x00], []) ∧
    decode (.protocol [0x47, 0x02, 0x00, 0xBB]) = .error .truncated := by decide +kernel

/-- R176: 200 zero bytes, and 199 are not enough. -/
theorem test_decode_invalidate :
    decode (.protocol (List.replicate 200 0)) = .ok (.invalidate, []) ∧
    decode (.protocol (List.replicate 199 0)) = .error .truncated := by decide +kernel

/-- No command begins so. -/
theorem test_decode_unknown : decode (.protocol [0x1B, 0x69, 0x62]) = .error (.unknownOpcode 0x62) ∧
    decode (.protocol [0x5A]) = .error (.unknownOpcode 0x5A) := by decide +kernel

/-- The numbers of the opcode table. -/
theorem test_table_words :
    decodeTableWord 32 0x00000002 = some .rast ∧ decodeTableWord 16 0x00BB = some (.run 70 0) ∧
    decodeTableWord 16 0x4200 = some (.lit [0x42]) ∧ decodeTableWord 16 0x1B40 = some .initPrinter ∧
    decodeTableWord 24 0x1B6961 = some (.modeSwitch 0) ∧ decodeTableWord 8 0x0C = some .print := by decide +kernel

/-- What is stored for the next step is that instruction and nothing more. -/
theorem test_fetch_word :
    (State.reset.withFetchWord 32 2).host = [.writeReg 0 2] ∧
    (State.reset.withFetchWord 24 0x1B6961).host = [.emit [0x1B, 0x69, 0x61, 0x00]] ∧
    (State.reset.withFetchWord 16 0x00BB).host = [.expand [0xBB, 0x00]] := by decide +kernel

/-! ## Meanings -/

/-- Vector B9: two bits in each error byte. -/
theorem test_stdec_errors : (stateOf (exec .stdec (withRecord 0x00 0x05 0x81 0 0))).map (·.st) =
    some ⟨true, 0x00, 0x05, 0x81, 0, 0, true, 360⟩ := by decide +kernel

/-- Vector B10: the 180 dpi model and its media bytes. -/
theorem test_stdec_dpi : (stateOf (exec .stdec (withRecord 0x5A 0x00 0x00 0x0C 0x01))).map (·.st) =
    some ⟨true, 0x5A, 0, 0, 12, 1, false, 180⟩ := by decide +kernel

/-- Vector B9, last column: the kinds under the default table. -/
theorem test_error_kinds : errorKinds defaultErrKinds 0x05 0x81 =
    [.noMedia, .cutterJam, .wrongMedia, .systemError] := by decide +kernel

/-- Vector A5. -/
theorem test_rast_band : (stateOf (exec .rast (withImage ⟨0, 4, 2, 16, 5⟩ ⟨2, 4, 0⟩
      [0x00, 0x00, 0x00, 0xFF, 0x7E, 0x7F, 0x00, 0x00]))).map (fun t => (t.mem.line, t.nlines, t.lb)) =
    some ([(0, 0x06), (1, 0x00), (2, 0x00), (3, 0x00)], 2, 2) := by decide +kernel

/-- Vector A8: the order and the rounding of the four channel bytes. -/
theorem test_rast_rgba : (stateOf (exec .rast (withImage ⟨0, 4, 4, 8, 0⟩ ⟨1, 4, 2⟩
      [0, 0, 0, 0x81, 0, 0, 0, 0x80, 0x0A, 0x14, 0x1E, 0x00, 0, 0, 0, 0xFF]))).map (·.mem.line) =
    some [(0, 0x90)] := by decide +kernel

/-- Vector F22. -/
theorem test_comp_window : (stateOf (exec .comp (withLine [1, 2, 2, 1] 0 4))).map (fun t => (t.mem.cbuf, t.clen)) =
    some ([(0, 0x00), (1, 0x01), (2, 0xFF), (3, 0x02), (4, 0x00), (5, 0x01)], 6) := by decide +kernel

/-- Vector F24: bytes outside the window have no influence. -/
theorem test_comp_offset : (stateOf (exec .comp (withLine [0xAA, 1, 1, 1, 0xBB] 1 3))).map (fun t => (t.mem.cbuf, t.clen)) =
    some ([(0, 0xFE), (1, 0x01)], 2) := by decide +kernel

/-- Vectors K34 or K35, K40 and K43: where a run is cut, and the byte it gets, for three values of the run limit. -/
theorem test_run_limits : compress 255 (List.replicate 256 7) = [0x02, 0x07, 0x00, 0x07] ∧
    compress 128 (List.replicate 256 7) = [0x81, 0x07, 0x81, 0x07] ∧
    compress 129 (List.replicate 256 7) = [0x80, 0x07, 0x82, 0x07] := by decide +kernel

/-- Vectors X4 and X2: the steps of the reader. -/
theorem test_reader_run : (stateOf (step (doing (.expand [0xFE, 0x05])))).map (·.expOut) = some [5, 5, 5] := by
  decide +kernel
theorem test_reader_lit : (stateOf (step (doing (.expand [0x01, 0x42, 0x43, 0xFF, 0x05])))).map
    (fun t => (t.expOut, t.host)) = some ([0x42, 0x43], [.expand [0xFF, 0x05]]) := by decide +kernel

/-- R185: a margin of 0 is rejected and nothing is appended. -/
theorem test_margin_zero : (stateOf (step (doing (.emit [0x1B, 0x69, 0x64, 0x00, 0x00])))).map
    (fun t => (t.enc.stream, t.response)) = some ([], .rejected) := by decide +kernel

/-- R178: a status request is no part of the stream. -/
theorem test_status_request : (stateOf (step (doing (.emit [0x1B, 0x69, 0x53])))).map
    (fun t => (t.enc.stream, t.wire)) = some ([], [0x1B, 0x69, 0x53]) := by decide +kernel

/-- R187, program P1: the compressed line in CBUF as a raster-transfer record. -/
theorem test_emit_line : (stateOf (step { doing .emitLine with
      clen := 2, mem := { small.mem with cbuf := [(0, 0xBB), (1, 0x00)] } })).map (·.enc.stream) =
    some [0x47, 0x02, 0x00, 0xBB, 0x00] := by decide +kernel

/-- R186: a raw raster line of LB = 2 bytes, line 1 of the page. -/
theorem test_emit_raw_line : (stateOf (step { doing (.emitRawLine 1) with
      nlines := 2, lb := 2, mem := { small.mem with line := memWrite [] 0 [1, 2, 3, 4] } })).map (·.enc.stream) =
    some [0x47, 0x02, 0x00, 3, 4] := by decide +kernel

/-- R181: the count is NLINES, whatever the given information holds. -/
theorem test_emit_page_info : (stateOf (step { doing (.emitPageInfo ⟨0x86, 0x01, 0x0C, 0, 9, 0x02, 0⟩) with
      nlines := 772 })).map (·.enc.stream) =
    some [0x1B, 0x69, 0x7A, 0x86, 0x01, 0x0C, 0x00, 0x04, 0x03, 0x00, 0x00, 0x02, 0x00] := by decide +kernel

/-- R192, R196: a short write fails. -/
theorem test_send_fails : (stateOf (step { doing (.send (.fail 1)) with enc := ⟨[7, 8], true, none⟩ })).map
    (fun t => (t.wire, t.response)) = some ([7], .failed .transportError) := by decide +kernel

/-- R193, C6: a network response of 31 bytes is a protocol error, and STREC is not written. -/
theorem test_status_length : (stateOf (step (doing (.loadStatus (.network (some (List.replicate 31 0))))))).map
    (fun t => (t.mem.strec, t.response)) = some ([], .failed .protocolError) := by decide +kernel

/-- R192: the 32 bytes of a status go to STREC. -/
theorem test_load_status : (stateOf (step (doing (.loadStatus (.usb .ok (some (recordOf 1 2 3 4 5))))))).map
    (fun t => (t.mem.strec, t.wire)) = some ((withRecord 1 2 3 4 5).mem.strec, [0x1B, 0x69, 0x53]) := by decide +kernel

/-- R179, R181: a stream whose mode switch does not select raster mode, or whose count is not the number of its transfers,
is no job. -/
theorem test_job_fields :
    jobExact (jobCommands ⟨⟨0, 0, 0, 0, 9, 0, 0⟩, 0, 0, 0, 1, 0⟩ [[7]] true) = true ∧
    jobExact ((jobCommands ⟨⟨0, 0, 0, 0, 9, 0, 0⟩, 0, 0, 0, 1, 0⟩ [[7]] true).set 2 (.modeSwitch 2)) = false ∧
    jobExact ((jobCommands ⟨⟨0, 0, 0, 0, 9, 0, 0⟩, 0, 0, 0, 1, 0⟩ [[7]] true).set 3
      (.printInfo ⟨0, 0, 0, 0, 9, 0, 0⟩)) = false := by decide +kernel

/-- R186, R239: no payload fits before any selection, and a raw line must have LB bytes. -/
theorem test_payload_before_select : payloadFor 255 2 none [1, 2] = none := by decide +kernel
theorem test_payload_length (mode : Byte) (h : Config.selectEnables mode = false) :
    payloadFor 255 2 (some mode) [1, 2] = some [1, 2] ∧ payloadFor 255 2 (some mode) [1] = none := by
  simp [payloadFor, h]

/-- R181, R180: the encoder's print information. -/
theorem test_print_info : (stateOf (exec (.printInfo ⟨0x86, 0x01, 0x0C, 0x00, 772, 0x02, 0x00⟩) small)).map
    (·.enc.stream) = some [0x1B, 0x69, 0x7A, 0x86, 0x01, 0x0C, 0x00, 0x04, 0x03, 0x00, 0x00, 0x02, 0x00] := by
  decide +kernel

/-- R191 and vector S12: how the stream of a job begins and ends. -/
theorem test_job_stream : ((stateOf (execAll
      (jobCommands ⟨⟨0x86, 1, 12, 0, 0, 2, 0⟩, 0x40, 1, 8, 14, 2⟩ [[0xBB, 0x00]] false) small)).map
      fun t => (t.enc.stream.drop 198, streamInOrder t.enc.stream)) =
    some ([0, 0, 0x1B, 0x40, 0x1B, 0x69, 0x61, 0x01,
      0x1B, 0x69, 0x7A, 0x86, 0x01, 0x0C, 0x00, 0x01, 0x00, 0x00, 0x00, 0x02, 0x00,
      0x1B, 0x69, 0x4D, 0x40, 0x1B, 0x69, 0x41, 0x01, 0x1B, 0x69, 0x4B, 0x08, 0x1B, 0x69, 0x64, 0x0E, 0x00,
      0x4D, 0x02, 0x47, 0x02, 0x00, 0xBB, 0x00, 0x1A], true) := by decide +kernel

/-- Vectors Q1, Q4 and Q5: an illegal command faults; a command is then ignored, a register write is not. -/
theorem test_fault_sticks : (stateOf (step (doing (.writeReg 0 0)))) =
      some { faultedState with host := [] } ∧
    (stateOf (step { faultedState with host := [.writeReg 0 3] })) = some faultedState ∧
    (stateOf (step { faultedState with host := [.writeReg 0x20 7] })).map (·.img.width) = some 7 := by
  decide +kernel

/-- Vectors Q7 and Q8. -/
theorem test_readonly_and_empty_rast : (stateOf (step (doing (.writeReg 0x29 9)))) = some small ∧
    (stateOf (step (doing (.writeReg 0 2)))) = some small := by decide +kernel

/-! ## Witnesses: for each statement with hypotheses, a state and operands that meet them

A statement of several clauses has one witness per clause, at a boundary of its range. -/

theorem witness_CommandCodesDecode : (4 : Word) ≠ 1 ∧ (4 : Word) ≠ 2 ∧ (4 : Word) ≠ 3 ∧
    (0 : Word) ≠ 1 ∧ (0 : Word) ≠ 2 ∧ (0 : Word) ≠ 3 ∧ small.faulted = false := by decide

theorem witness_ControlBytesRoundTrip :
    (runControl 2).toNat = (257 - 2) % 256 ∧ (runControl 255).toNat = (257 - 255) % 256 ∧
    (litControl 1).toNat = 1 - 1 ∧ (litControl 128).toNat = 128 - 1 ∧
    readRecord [0x80, 7] = .ok (.run 129 7, []) ∧ readRecord [0xFF, 7, 9] = .ok (.run 2 7, [9]) ∧
    readRecord [0x00, 7] = .ok (.lit [7], []) ∧
    readRecord (0x7F :: List.replicate 128 7) = .ok (.lit (List.replicate 128 7), []) := by decide +kernel

theorem witness_DecodeOfEncodeIsIdentity : (Instr.run 129 7).wf = true ∧ (Instr.lit (List.replicate 128 7)).wf = true ∧
    (Instr.rasterTransfer []).wf = true ∧ (Instr.margin 0).wf = true ∧ Instr.stdec.wf = true := by decide +kernel

theorem witness_DecodeOfEncodeIsIdentity_longest : (Instr.rasterTransfer (List.replicate 65535 0)).wf = true := by
  rw [Instr.wf, List.length_replicate]; decide

theorem witness_DecodedWordsReencode : decode (.cmd 3) = .ok (.comp, []) ∧
    decode (.stream [0x80, 7, 1]) = .ok (.run 129 7, [1]) ∧
    decode (.protocol [0x1B, 0x69, 0x64, 0, 0]) = .ok (.margin 0, []) := by decide +kernel

theorem witness_HostResetRestoresBlock : { faultedState with host := [.reset] }.host = .reset :: [] := rfl

theorem witness_RegisterAccessFollowsTheMap :
    (0x31 ∈ writableNumbers ∧ (doing (.writeReg 0x31 5)).host = .writeReg 0x31 5 :: []) ∧
    (0x47 ∈ mappedNumbers ∧ 0x47 ∉ writableNumbers ∧ 0x47 ≠ 0x00 ∧
      (doing (.writeReg 0x47 5)).host = .writeReg 0x47 5 :: []) ∧
    (0x00 ∈ mappedNumbers ∧ (doing (.readReg 0x00)).host = .readReg 0x00 :: []) ∧
    (0x48 ∉ mappedNumbers ∧ (doing (.writeReg 0x48 5)).host = .writeReg 0x48 5 :: [] ∧
      (doing (.readReg 0x48)).host = .readReg 0x48 :: []) := by decide +kernel

theorem witness_HostBufferWriteStores : (doing (.writeMem .strec 30 [1, 2])).host = .writeMem .strec 30 [1, 2] :: [] ∧
    30 + [(1 : Byte), 2].length ≤ bufSize small.params .strec := by decide +kernel

theorem witness_HostBufferReadAnswers :
    ({ withRecord 1 2 3 4 5 with host := [.readMem .strec 0 32] }).host = .readMem .strec 0 32 :: [] ∧
    0 + 32 ≤ bufSize small.params .strec ∧ writtenBytes (withRecord 1 2 3 4 5).mem.strec 0 32 := by
  refine ⟨rfl, by decide, fun a _ h => ?_⟩
  have all : ∀ a, a < 32 → memByte (withRecord 1 2 3 4 5).mem.strec a ≠ none := by decide +kernel
  exact all a (by omega)

theorem witness_HostBufferAccessRefused :
    ([(1 : Byte)] ≠ [] ∧ bufSize small.params .strec < 32 + [(1 : Byte)].length ∧
      (doing (.writeMem .strec 32 [1])).host = .writeMem .strec 32 [1] :: []) ∧
    (1 ≠ 0 ∧ bufSize small.params .pix < 64 + 1 ∧ (doing (.readMem .pix 64 1)).host = .readMem .pix 64 1 :: []) ∧
    (63 + 1 ≤ bufSize small.params .pix ∧ 63 ≤ 63 ∧ 63 < 63 + 1 ∧ memByte (small.mem.buf .pix) 63 = none ∧
      (doing (.readMem .pix 63 1)).host = .readMem .pix 63 1 :: []) := by decide +kernel

theorem witness_StepRunsDecodedInstruction :
    ((doing (.writeReg 0x00 3)).host = .writeReg 0x00 3 :: [] ∧ small.faulted = false ∧
      decode (.cmd 3) = .ok (.comp, [])) ∧
    ((doing (.expand [0x00, 7, 0x00, 8])).host = .expand [0x00, 7, 0x00, 8] :: [] ∧
      decode (.stream [0x00, 7, 0x00, 8]) = .ok (.lit [7], [0x00, 8])) ∧
    ((doing (.emit [0x0C])).host = .emit [0x0C] :: [] ∧ decode (.protocol [0x0C]) = .ok (.print, [])) := by
  decide +kernel

theorem witness_CommandWriteDispatches :
    ({ faultedState with host := [.writeReg 0x00 1] }.host = .writeReg 0x00 1 :: [] ∧ faultedState.faulted = true) ∧
    ((doing (.writeReg 0x00 1)).host = .writeReg 0x00 1 :: [] ∧ small.faulted = false) ∧
    ((doing (.writeReg 0x00 2)).host = .writeReg 0x00 2 :: [] ∧ (doing (.writeReg 0x00 3)).host = .writeReg 0x00 3 :: []) ∧
    ((doing (.writeReg 0x00 4)).host = .writeReg 0x00 4 :: [] ∧ (4 : Word) ≠ 1 ∧ (4 : Word) ≠ 2 ∧ (4 : Word) ≠ 3) := by
  decide +kernel

theorem witness_IdleStepChangesNothing : small.host = [] := rfl

theorem witness_FaultedBlockIgnoresCommands : faultedState.faulted = true := rfl

theorem witness_FaultingCommandChangesNothingElse :
    (doing (.writeReg 0x00 0)).host = .writeReg 0x00 0 :: [] ∧ (doing (.writeReg 0x00 0)).faulted = false ∧
    step (doing (.writeReg 0x00 0)) = .next faultedState ∧ faultedState.faulted = true := ⟨rfl, rfl, rfl, rfl⟩

theorem witness_FaultStaysUntilReset :
    step { faultedState with host := [.writeReg 0x00 3] } = .next faultedState ∧ faultedState.faulted = true ∧
    ∀ rest, { faultedState with host := [.writeReg 0x00 3] }.host ≠ HostAction.reset :: rest :=
  ⟨rfl, rfl, fun _ h => (by cases h)⟩

/-- `small` with one byte of STREC written. -/
def oneByte (b : Byte) : State := { small with mem := { small.mem with strec := [(0, b)] } }

theorem witness_WrittenBytesStayWritten :
    stateOf (step { oneByte 7 with host := [.writeMem .strec 0 [9]] }) = some (oneByte 9) ∧
    (∀ rest, { oneByte 7 with host := [.writeMem .strec 0 [9]] }.host ≠ HostAction.reset :: rest) ∧
    memByte ((oneByte 7).mem.buf .strec) 0 ≠ none :=
  ⟨by decide +kernel, fun _ h => (by cases h), by decide +kernel⟩

theorem witness_StdecDecodesTheRecord :
    ((withRecord 0x5A 0 0 12 1).faulted = false ∧ (memRead (withRecord 0x5A 0 0 12 1).mem.strec 0 32).isSome) ∧
    (small.faulted = false ∧ 31 < 32 ∧ memByte small.mem.strec 31 = none) := by decide +kernel

/-- Two records that differ outside the five offsets. -/
def otherRecord : State :=
  { withRecord 1 2 3 4 5 with mem := { small.mem with strec := memPut (withRecord 1 2 3 4 5).mem.strec 31 0xFF } }

theorem witness_StdecDependsOnFiveOffsets : (withRecord 1 2 3 4 5).faulted = false ∧ otherRecord.faulted = false ∧
    (stateOf (exec .stdec (withRecord 1 2 3 4 5))).isSome ∧ (stateOf (exec .stdec otherRecord)).isSome ∧
    ∀ k, k ∈ [4, 8, 9, 10, 11] → memByte (withRecord 1 2 3 4 5).mem.strec k = memByte otherRecord.mem.strec k := by
  decide +kernel

theorem witness_HasErrorExactlyWhenABitIsSet : (withRecord 0 0x20 0 0 0).faulted = false ∧
    (stateOf (exec .stdec (withRecord 0 0x20 0 0 0))).isSome := by decide +kernel

theorem witness_ErrorKindsAreThoseOfTheSetBits : defaultErrKinds.1.length = 8 ∧ defaultErrKinds.2.length = 8 := by
  decide

/-- Vectors F1, F2, F3, F4, F5, F9 and F8, on smaller numbers: each fails by one. -/
theorem witness_RastFirstFailingCheckDecides :
    (3 ≤ (withImage ⟨0, 4, 2, 16, 5⟩ ⟨2, 4, 3⟩ []).img.fmt.toNat) ∧
    ((3 : Word).toNat > (2 : Word).toNat ∧ (13 : Word).toNat + (4 : Word).toNat > (16 : Word).toNat ∧
      (17 : Word).toNat % 8 ≠ 0 ∧ (2 : Word).toNat < 3) ∧
    ((4 : Word).toNat ≤ (4 : Word).toNat ∧ (12 : Word).toNat + (4 : Word).toNat ≤ (16 : Word).toNat ∧
      (16 : Word).toNat % 8 = 0 ∧ (5 : Word).toNat ≠ (4 : Word).toNat) ∧
    ((13 : Word).toNat * (5 : Word).toNat * [1, 3, 4].getD (0 : Word).toNat 0 > small.params.pixSize ∧
      (13 : Word).toNat * ((40 : Word).toNat / 8) > small.params.lineSize) := by decide +kernel

/-- Vector A5. -/
def imageA5 : State := withImage ⟨0, 4, 2, 16, 5⟩ ⟨2, 4, 0⟩ [0x00, 0x00, 0x00, 0xFF, 0x7E, 0x7F, 0x00, 0x00]

theorem witness_RastStoresOneLinePerColumn : imageA5.faulted = false ∧ pixelFormat imageA5.img.fmt = some .gray8 ∧
    imageA5.geo.printableDots.toNat ≤ imageA5.geo.widthDots.toNat ∧
    imageA5.geo.rightMarginPins.toNat + imageA5.geo.printableDots.toNat ≤ imageA5.geo.totalPins.toNat ∧
    imageA5.geo.totalPins.toNat % 8 = 0 ∧ imageA5.img.height = imageA5.geo.widthDots ∧
    imageA5.img.width.toNat * imageA5.img.height.toNat * PixelFormat.gray8.bpp ≤ imageA5.params.pixSize ∧
    imageA5.img.width.toNat * (imageA5.geo.totalPins.toNat / 8) ≤ imageA5.params.lineSize ∧
    memRead imageA5.mem.pix 0 (imageA5.img.width.toNat * imageA5.img.height.toNat * PixelFormat.gray8.bpp) =
      some [0x00, 0x00, 0x00, 0xFF, 0x7E, 0x7F, 0x00, 0x00] := by decide +kernel

/-- The last byte of the image, in a row outside the band, is unwritten. -/
def imageCut : State := withImage ⟨0, 4, 2, 16, 5⟩ ⟨2, 4, 0⟩ [0x00, 0x00, 0x00, 0xFF, 0x7E, 0x7F, 0x00]

theorem witness_RastRefusesUnwrittenImage : imageCut.faulted = false ∧
    rastCheck imageCut.params imageCut.geo imageCut.img = .ok .gray8 ∧
    7 < imageCut.img.width.toNat * imageCut.img.height.toNat * PixelFormat.gray8.bpp ∧
    memByte imageCut.mem.pix 7 = none := by decide +kernel

theorem witness_RastPrintsExactlyTheDarkPixels : imageA5.faulted = false ∧
    (stateOf (exec .rast imageA5)).map (·.faulted) = some false ∧
    1 < imageA5.img.width.toNat ∧ 15 < imageA5.geo.totalPins.toNat := by decide +kernel

/-- A white and a black image of two columns. -/
def imageOf (b : Byte) : State := withImage ⟨0, 4, 2, 16, 5⟩ ⟨2, 4, 0⟩ (List.replicate 8 b)

theorem witness_WhiteAndBlackImages :
    (imageOf 255).faulted = false ∧ (stateOf (exec .rast (imageOf 255))).map (·.faulted) = some false ∧
    pixelFormat (imageOf 255).img.fmt = some .gray8 ∧
    (∀ x, x < 2 → ∀ y, y < 4 → (pixelAt (imageOf 255) .gray8 x y).map (whitePixel .gray8) = some true) ∧
    (imageOf 0).faulted = false ∧ (stateOf (exec .rast (imageOf 0))).map (·.faulted) = some false ∧
    pixelFormat (imageOf 0).img.fmt = some .gray8 ∧
    (∀ x, x < 2 → ∀ y, y < 4 → (pixelAt (imageOf 0) .gray8 x y).map (blackPixel .gray8) = some true) := by
  decide +kernel

theorem witness_GrayAndMarginProperties : 255 ≤ 255 ∧ composite 255 255 = 255 ∧ composite 0 0 = 255 ∧
    150 ≤ 170 ∧ rowMargin 170 150 = 10 ∧ rowMargin 4 4 = 0 ∧ rowMargin 5 2 = 1 := by decide

theorem witness_CompStoresTheCompressedWindow :
    (withLine [1, 2, 2, 1] 0 4).params.valid = true ∧ (withLine [1, 2, 2, 1] 0 4).faulted = false ∧
    (0 : Word).toNat + (4 : Word).toNat ≤ (withLine [1, 2, 2, 1] 0 4).params.lineSize ∧
    memRead (withLine [1, 2, 2, 1] 0 4).mem.line (0 : Word).toNat (4 : Word).toNat = some [1, 2, 2, 1] ∧
    (compress (withLine [1, 2, 2, 1] 0 4).params.runMax [1, 2, 2, 1]).length ≤ 64 := by decide +kernel

/-- Vectors F20, F25 and F21. -/
theorem witness_CompFaultsAndRefuses :
    (small.faulted = false ∧ small.params.lineSize < (1 : Word).toNat + (64 : Word).toNat) ∧
    ((withLine [] 63 1).srcOff.toNat + (withLine [] 63 1).srcLen.toNat ≤ small.params.lineSize ∧
      (withLine [] 63 1).srcOff.toNat ≤ 63 ∧ 63 < (withLine [] 63 1).srcOff.toNat + (withLine [] 63 1).srcLen.toNat ∧
      memByte (withLine [] 63 1).mem.line 63 = none) ∧
    (memRead (withLine [1, 2, 2, 1] 0 4).mem.line 0 4 = some [1, 2, 2, 1] ∧
      (⟨255, 64, 64, 5⟩ : Params).cbufSize < (compress 255 [1, 2, 2, 1]).length) := by decide +kernel

theorem witness_ScanPrefersTheLongestRun : 2 ≤ 2 ∧ [(5 : Byte), 5].head? = some 5 ∧ [(6 : Byte)].head? ≠ some 5 ∧
    ([] : List Byte).head? ≠ some 5 := by decide

theorem witness_ExpandOfCompressIsIdentity :
    (2 ≤ 129 ∧ 129 ≤ 255 ∧ 129 ≤ 129) ∧
    (∀ r, r ∈ compressRecords 255 (List.replicate 129 7) → longRun 130 r = false) ∧
    (List.replicate 129 (7 : Byte)).length ≤ 129 := by decide +kernel

theorem witness_ExpandOfCompressIsIdentity_stretch : noStretch 130 (List.replicate 129 7) := by
  intro b h
  have := h.length_le
  simp at this

theorem witness_LongRunsDoNotExpand : 130 ≤ 130 ∧ 130 ≤ 255 ∧ 255 ≤ 255 ∧ 130 ≤ 255 := by decide

theorem witness_CompressedSizeBound : 2 ≤ 2 ∧ 2 ≤ 255 ∧ 255 ≤ 255 ∧
    compress 2 (List.replicate 2 7) = [0xFF, 0x07] ∧ compress 255 (List.replicate 255 7) = [0x02, 0x07] := by
  decide +kernel

theorem witness_ShapeOfTheCompressedLine : 2 ≤ 255 ∧ 255 ≤ 255 ∧
    ((compressRecords 255 ((List.range 128).map fun k => BitVec.ofNat 8 k)).map recordCount = [127, 1]) ∧
    (compressRecords 255 [1, 2, 2, 1])[0]? = some (.lit [1]) ∧ [(1 : Byte)].length < 127 ∧
    0 + 1 < (compressRecords 255 [1, 2, 2, 1]).length ∧
    Record.run 2 2 ∈ compressRecords 255 [1, 2, 2, 1] := by decide +kernel

theorem witness_RunLimitMattersOnlyForLongStretches : 2 ≤ 128 ∧ 2 ≤ 255 ∧ 128 ≤ 128 ∧ 128 ≤ 255 ∧
    (List.replicate 128 (7 : Byte)).length ≤ 128 := by decide +kernel

theorem witness_RunLimitMattersOnlyForLongStretches_stretch : noStretch (2 + 1) [7, 7, 8] ∧ 2 ≤ 2 := by
  refine ⟨fun b h => ?_, by decide⟩
  have hl := h.eq_of_length (by simp)
  revert hl
  revert b
  decide +kernel

/-- Two states with the same inputs and different surroundings. -/
def elsewhere (s : State) : State := { s with nlines := 5, wire := [1], expOut := [2], clen := 3 }

theorem witness_OperationsDependOnlyOnTheirInputs :
    ((withLine [1, 2, 2, 1] 0 4).faulted = false ∧
      (withLine [1, 2, 2, 1] 0 4).params = (elsewhere (withLine [1, 2, 2, 1, 9] 0 4)).params ∧
      (∀ a, a < 4 → memByte (withLine [1, 2, 2, 1] 0 4).mem.line a =
        memByte (elsewhere (withLine [1, 2, 2, 1, 9] 0 4)).mem.line a) ∧
      (stateOf (exec .comp (withLine [1, 2, 2, 1] 0 4))).isSome ∧
      (stateOf (exec .comp (elsewhere (withLine [1, 2, 2, 1, 9] 0 4)))).isSome) ∧
    (imageA5.geo = (elsewhere imageA5).geo ∧ imageA5.img = (elsewhere imageA5).img ∧
      imageA5.mem.pix = (elsewhere imageA5).mem.pix ∧ (stateOf (exec .rast imageA5)).isSome ∧
      (stateOf (exec .rast (elsewhere imageA5))).isSome) ∧
    ((withRecord 1 2 3 4 5).mem.strec = (elsewhere (withRecord 1 2 3 4 5)).mem.strec ∧
      (stateOf (exec .stdec (withRecord 1 2 3 4 5))).isSome ∧
      refusalOf (exec .stdec small) = some .statusRecordUnwritten ∧
      refusalOf (exec .comp (withLine [] 0 1)) = some .lineUnwritten) := by decide +kernel

theorem witness_OperationsChangeOnlyTheirResults : imageA5.params.valid = true ∧
    (stateOf (exec .rast imageA5)).isSome ∧ (stateOf (exec .comp (withLine [1] 0 1))).isSome ∧
    (stateOf (exec .stdec (withRecord 1 2 3 4 5))).isSome ∧
    (stateOf (exec .rast (withImage ⟨0, 0, 0, 0, 0⟩ ⟨0, 0, 3⟩ []))).map (·.faulted) = some true := by decide +kernel

theorem witness_ReaderAppendsTheRecord : 2 ≤ 2 ∧ 2 ≤ 129 ∧ 129 ≤ 129 ∧ 1 ≤ [(7 : Byte)].length ∧
    [(7 : Byte)].length ≤ 128 ∧ (List.replicate 128 (7 : Byte)).length ≤ 128 := by decide +kernel

theorem witness_ReaderRefusesOtherLengths : 1 < 2 ∧ 129 < 130 ∧ ([] : List Byte).length = 0 ∧
    128 < (List.replicate 129 (7 : Byte)).length := by decide +kernel

theorem witness_ReaderStepsComputeExpand :
    ((doing (.expand [0xFF, 5, 0x00, 6])).host = .expand [0xFF, 5, 0x00, 6] :: [] ∧
      expand [0xFF, 5, 0x00, 6] = some [5, 5, 6]) ∧
    ((doing (.expand [0xFF, 5, 0xFF])).host = .expand [0xFF, 5, 0xFF] :: [] ∧ expand [0xFF, 5, 0xFF] = none) ∧
    expand [] = some [] := by decide +kernel

theorem witness_EncoderAppendsByteRecords : small.enc.frozen = false := rfl

theorem witness_EncoderWritesLittleEndianFields : small.enc.frozen = false ∧ (1 : BitVec 16) ≠ 0 ∧
    (0xFFFF : BitVec 16) ≠ 0 ∧ ([] : List Byte).length ≤ 65535 := by decide

theorem witness_MarginOfZeroIsRejected : small.enc.frozen = false := rfl

/-- An encoder whose stream was built. -/
def built : State := { small with enc := ⟨[0x1A], true, none⟩ }

theorem witness_BuiltEncoderIsUsedUp : built.enc.frozen = true ∧ jobItem (.margin 0) ≠ none ∧
    (Instr.margin 0).wf = true ∧ { built with host := [.build] }.host = .build :: [] := by decide

theorem witness_BuiltEncoderIsUsedUp_long : 65535 < (List.replicate 65536 (0 : Byte)).length := by
  rw [List.length_replicate]; decide

theorem witness_StreamOnlyGrowsUntilBuilt : step { built with host := [.send .ok] } =
      .next { built with wire := [0x1A], response := .sent } ∧
    (∀ rest, { built with host := [.send .ok] }.host ≠ HostAction.newEncoder :: rest) ∧ built.enc.frozen = true :=
  ⟨rfl, fun _ h => (by cases h), rfl⟩

/-- A compressed line of two bytes in CBUF, about to be sent. -/
def lineReady : State :=
  { doing .emitLine with clen := 2, mem := { small.mem with cbuf := [(0, 0xBB), (1, 0x00)] } }

/-- A page of one raw line of two bytes, about to be sent. Its raw form and its compressed form are the same two bytes. -/
def pageReady : State :=
  { doing (.emitRawLine 0) with nlines := 1, lb := 2, mem := { small.mem with line := [(0, 0xFF), (1, 0xFF)] } }

theorem witness_LineOfCbufIsTransferred_raw : pageReady.host = .emitRawLine 0 :: [] ∧ pageReady.enc.frozen = false ∧
    pageReady.lb.toNat ≤ 65535 ∧ memRead pageReady.mem.line (0 * pageReady.lb.toNat) pageReady.lb.toNat =
      some [0xFF, 0xFF] := by decide +kernel

theorem witness_PageInfoCountsTheLines :
    (doing (.emitPageInfo ⟨0, 0, 0, 0, 0, 0, 0⟩)).host = .emitPageInfo ⟨0, 0, 0, 0, 0, 0, 0⟩ :: [] ∧
    small.enc.frozen = false := by decide

theorem witness_StatusFetchAnswersOrFails :
    ((recordOf 1 2 3 4 5).length = 32 ∧
      (doing (.fetchStatus (.network (some (recordOf 1 2 3 4 5))))).host =
        .fetchStatus (.network (some (recordOf 1 2 3 4 5))) :: [] ∧
      (doing (.loadStatus (.usb .ok (some (recordOf 1 2 3 4 5))))).host =
        .loadStatus (.usb .ok (some (recordOf 1 2 3 4 5))) :: []) ∧
    ((doing (.fetchStatus (.network none))).host = .fetchStatus (.network none) :: [] ∧
      (doing (.loadStatus (.network (some [])))).host = .loadStatus (.network (some [])) :: [] ∧
      ([] : List Byte).length ≠ 32 ∧ (List.replicate 33 (0 : Byte)).length ≠ 32 ∧
      (doing (.fetchStatus (.usb (.fail 2) none))).host = .fetchStatus (.usb (.fail 2) none) :: []) := by
  decide +kernel

/-- The parameters of a job. -/
def someJob : JobParams := ⟨⟨0x86, 1, 12, 0, 0, 2, 0⟩, 0x40, 1, 8, 14, 2⟩

theorem witness_PageJobPrintsThePage :
    pageReady.enc = freshEncoder ∧ someJob.marginDots ≠ 0 ∧
    jobOfPage pageReady someJob false = some (jobCommands someJob [[0xFF, 0xFF]] false) ∧
    ∀ payload, .rasterTransfer payload ∈ jobCommands someJob [[0xFF, 0xFF]] false → payload.length ≤ 65535 := by
  refine ⟨rfl, by decide, ?_, fun payload h => ?_⟩
  · have hl : pageLines pageReady = some [[0xFF, 0xFF]] := by decide +kernel
    have hc : compress pageReady.params.runMax [0xFF, 0xFF] = [0xFF, 0xFF] := by decide +kernel
    have hb : [(0xFF : Byte), 0xFF].length = pageReady.lb.toNat := by decide
    simp only [jobOfPage, hl, payloadsFor, payloadFor, hc, if_pos hb, ite_self]
  · simp [jobCommands, terminalCommand] at h
    subst h
    decide

theorem witness_PageHoldsTheRasterLines : imageA5.faulted = false ∧
    (stateOf (exec .rast imageA5)).map (·.faulted) = some false ∧ pixelFormat imageA5.img.fmt = some .gray8 ∧
    (memRead imageA5.mem.pix 0 (imageA5.img.width.toNat * imageA5.img.height.toNat * PixelFormat.gray8.bpp)).isSome := by
  decide +kernel

theorem witness_LineOfCbufIsTransferred : lineReady.host = .emitLine :: [] ∧ lineReady.enc.frozen = false ∧
    lineReady.clen.toNat ≤ 65535 ∧ memRead lineReady.mem.cbuf 0 lineReady.clen.toNat = some [0xBB, 0x00] := by
  decide +kernel

theorem witness_BuildThenSendHandsOverTheStream :
    (doing .build).host = .build :: [] ∧ { small with host := [.build, .send .ok] }.host = .build :: .send .ok :: [] ∧
    { built with host := [.send .ok] }.host = .send .ok :: [] ∧
    { built with host := [.send (.fail 0)] }.host = .send (.fail 0) :: [] ∧ built.enc.frozen = true ∧
    (doing (.send .ok)).host = .send .ok :: [] ∧ small.enc.frozen = false := by decide

theorem witness_JobStreamIsInExactOrder : small.enc = freshEncoder ∧ (1 : BitVec 16) ≠ 0 ∧
    [[(0xBB : Byte), 0x00], []].length < 2 ^ 32 ∧
    ∀ payload, payload ∈ [[(0xBB : Byte), 0x00], []] → payload.length ≤ 65535 := by decide

theorem witness_GeometryTableIsValid :
    (doing (.loadGeometry 12 360)).host = .loadGeometry 12 360 :: [] ∧
    lookupGeometry 12 360 = some ⟨12, 170, 150, 560, 213⟩ ∧
    (doing (.loadGeometry largestTapeClass 180)).host = .loadGeometry largestTapeClass 180 :: [] := ⟨rfl, rfl, rfl⟩

/-- Vector A5 after its RAST, about to compress line 0. -/
def afterA5 : State :=
  { imageA5 with nlines := 2, lb := 2, srcLen := 2, host := [.writeReg 0 3],
                 mem := { imageA5.mem with line := [(0, 0x06), (1, 0x00), (2, 0x00), (3, 0x00)] } }

theorem witness_StepKeepsTheInvariant : afterA5.inv = true ∧ (stateOf (step afterA5)).map (·.inv) = some true ∧
    (stateOf (step afterA5)).map (·.clen) = some 3 := by decide +kernel

theorem witness_StepKeepsTheParameters : (stateOf (step afterA5)).isSome := by decide +kernel

theorem witness_BlockAndSurroundingsAreSeparate : (stateOf (exec .rast imageA5)).isSome ∧
    (stateOf (exec .print small)).isSome ∧ Instr.rast ∈ [Instr.stdec, .rast, .comp] ∧
    Instr.print ∉ [Instr.stdec, .rast, .comp] := by decide +kernel

end Sys2Proof.Tests
end

section
/-! # The family of the state: registers, buffers, frames and the invariant

A step is inverted once (`step_next`): apart from a reset, what it does to the block is one of the cases of
`BlockEffect`. The statements about steps are then case analyses over that predicate. -/

namespace Sys2Proof.Machine

/-! ## Which bytes are written -/

/-- A read answers exactly when every byte of it is written (R53). -/
theorem memRead_isSome_iff (m : Mem) (off n : Nat) : (memRead m off n).isSome = true ↔ writtenBytes m off n := by
  rw [← Option.ne_none_iff_isSome, ne_eq, memRead_eq_none_iff]
  constructor
  · intro h a hlo hhi ha
    exact h ⟨a - off, by omega, by rwa [Nat.add_sub_cancel' hlo]⟩
  · rintro h ⟨k, hk, hn⟩
    exact h (off + k) (by omega) (by omega) hn

/-- The bytes just stored are written. -/
theorem writtenBytes_memWrite (m : Mem) (off : Nat) (bs : List Byte) :
    writtenBytes (memWrite m off bs) off bs.length := by
  rw [← memRead_isSome_iff, memRead_memWrite_self, Option.isSome_some]

/-- A host write of bytes keeps every written byte of every buffer written. -/
theorem setBuf_keeps_written (m : Memory) (space sp : Space) (off a : Nat) (bs : List Byte)
    (h : memByte (m.buf sp) a ≠ none) :
    memByte ((m.setBuf space (memWrite (m.buf space) off bs)).buf sp) a ≠ none := by
  by_cases hsp : sp = space
  · subst hsp
    rw [buf_setBuf_self]
    exact memWrite_keeps_written _ _ _ _ h
  · rwa [buf_setBuf_ne _ _ hsp]

/-! ## The lines that RAST stores -/

@[simp] theorem length_placePixel (g : Geometry) (f : PixelFormat) (w : Nat) (image : List Byte) (x : Nat)
    (line : List Byte) (k : Nat) : (placePixel g f w image x line k).length = line.length := by
  unfold placePixel setPin
  split
  · exact List.length_modify ..
  · rfl

/-- A raster line has LB bytes (R105, R111). -/
@[simp] theorem length_rasterLine (g : Geometry) (f : PixelFormat) (w : Nat) (image : List Byte) (x : Nat) :
    (rasterLine g f w image x).length = lineBytes g := by
  have foldl_length : ∀ (ks : List Nat) (line : List Byte),
      (ks.foldl (placePixel g f w image x) line).length = line.length := by
    intro ks
    induction ks with
    | nil => exact fun _ => rfl
    | cons k ks ih => intro line; rw [List.foldl_cons, ih, length_placePixel]
  rw [rasterLine, foldl_length, List.length_replicate]

/-- LINE after the first `n` columns were stored (R116). -/
def storedColumns (g : Geometry) (f : PixelFormat) (w : Nat) (image : List Byte) (line : Mem) : Nat → Mem
  | 0 => line
  | n + 1 => memWrite (storedColumns g f w image line n) (n * lineBytes g) (rasterLine g f w image n)

theorem storeLines_eq_storedColumns (g : Geometry) (f : PixelFormat) (w : Nat) (image : List Byte) (line : Mem) :
    storeLines g f w image line = storedColumns g f w image line w := by
  have foldl_range : ∀ n, (List.range n).foldl
      (fun m x => memWrite m (x * lineBytes g) (rasterLine g f w image x)) line =
        storedColumns g f w image line n := by
    intro n
    induction n with
    | zero => rfl
    | succ n ih => rw [List.range_succ, List.foldl_append, ih]; rfl
  exact foldl_range w

/-- Byte `a` of LINE after `n` columns were stored: below `n * LB` it is byte `a mod LB` of line `a div LB`. -/
theorem memByte_storedColumns (g : Geometry) (f : PixelFormat) (w : Nat) (image : List Byte) (line : Mem) (n a : Nat) :
    memByte (storedColumns g f w image line n) a =
      if a < n * lineBytes g then (rasterLine g f w image (a / lineBytes g))[a % lineBytes g]? else memByte line a := by
  induction n with
  | zero => simp [storedColumns]
  | succ n ih =>
    have hsucc : (n + 1) * lineBytes g = n * lineBytes g + lineBytes g := Nat.succ_mul ..
    rw [storedColumns, memByte_memWrite, length_rasterLine, ih]
    by_cases hn : a < n * lineBytes g
    · rw [if_neg (by omega), if_pos hn, if_pos (by omega)]
    · by_cases hlast : a < n * lineBytes g + lineBytes g
      · have hdiv : a / lineBytes g = n := Nat.div_eq_of_lt_le (by omega) (by omega)
        have hmod : a % lineBytes g = a - n * lineBytes g := by
          rw [Nat.mod_eq_sub_div_mul, hdiv]
        rw [if_pos (by omega), if_pos (by omega), hdiv, hmod]
      · rw [if_neg (by omega), if_neg hn, if_neg (by omega)]

/-- What each byte of LINE holds after RAST stored its lines (R116). -/
theorem memByte_storeLines (g : Geometry) (f : PixelFormat) (w : Nat) (image : List Byte) (line : Mem) (a : Nat) :
    memByte (storeLines g f w image line) a =
      if a < w * lineBytes g then (rasterLine g f w image (a / lineBytes g))[a % lineBytes g]? else memByte line a := by
  rw [storeLines_eq_storedColumns, memByte_storedColumns]

/-- Every byte of the lines is written. -/
theorem writtenBytes_storeLines (g : Geometry) (f : PixelFormat) (w : Nat) (image : List Byte) (line : Mem) :
    writtenBytes (storeLines g f w image line) 0 (w * lineBytes g) := by
  intro a _ ha
  have hpos : 0 < lineBytes g := Nat.pos_of_mul_pos_left (by omega : 0 < w * lineBytes g)
  rw [memByte_storeLines, if_pos (by omega), List.getElem?_eq_getElem (by simpa using Nat.mod_lt a hpos)]
  simp

theorem storeLines_keeps_written (g : Geometry) (f : PixelFormat) (w : Nat) (image : List Byte) {line : Mem} {a : Nat}
    (h : memByte line a ≠ none) : memByte (storeLines g f w image line) a ≠ none := by
  by_cases ha : a < w * lineBytes g
  · exact writtenBytes_storeLines g f w image line a (by omega) (by omega)
  · rwa [memByte_storeLines, if_neg ha]

theorem storeLines_keeps_wf (g : Geometry) (f : PixelFormat) (w : Nat) (image : List Byte) {line : Mem}
    (h : Mem.wf line = true) : Mem.wf (storeLines g f w image line) = true := by
  have keeps : ∀ n, Mem.wf (storedColumns g f w image line n) = true := by
    intro n
    induction n with
    | zero => exact h
    | succ n ih => exact memWrite_keeps_wf _ _ ih
  rw [storeLines_eq_storedColumns]
  exact keeps w

theorem storeLines_keeps_below (g : Geometry) (f : PixelFormat) (w : Nat) (image : List Byte) {line : Mem} {size : Nat}
    (h : Mem.below size line = true) (hsize : w * lineBytes g ≤ size) :
    Mem.below size (storeLines g f w image line) = true := by
  have keeps : ∀ n, n * lineBytes g ≤ size → Mem.below size (storedColumns g f w image line n) = true := by
    intro n
    induction n with
    | zero => exact fun _ => h
    | succ n ih =>
      intro hn
      rw [Nat.succ_mul] at hn
      exact memWrite_keeps_below _ (ih (by omega)) (by rwa [length_rasterLine])
  rw [storeLines_eq_storedColumns]
  exact keeps w hsize

/-- LB is held in full: an eighth of a register's value fits a register (R105). -/
theorem toNat_lb_rastDone (s : State) (f : PixelFormat) (image : List Byte) :
    (rastDone s f image).lb.toNat = lineBytes s.geo := by
  have hpins := s.geo.totalPins.isLt
  rw [rastDone_lb, BitVec.toNat_ofNat]
  exact Nat.mod_eq_of_lt (by unfold lineBytes; omega)

/-! ## The checks of RAST -/

/-- The checks that pass, when none fails (R106). -/
theorem rastCheck_ok {p : Params} {g : Geometry} {img : ImageRegs} {f : PixelFormat} (h : rastCheck p g img = .ok f) :
    pixelFormat img.fmt = some f ∧ geometryValid g = true ∧ img.height = g.widthDots ∧
      imageBytes img f ≤ p.pixSize ∧ img.width.toNat * lineBytes g ≤ p.lineSize := by
  unfold rastCheck at h
  split at h
  · cases h
  · rename_i f' hf
    split at h
    · cases h
    · rename_i hg
      split at h
      · cases h
      · rename_i hh
        split at h
        · cases h
        · rename_i hc
          cases h
          exact ⟨hf, by simpa using hg, by simpa using hh, by omega, by omega⟩

/-- A check that fails raises one of the codes of R211 that say so. -/
theorem rastCheck_error {p : Params} {g : Geometry} {img : ImageRegs} {c : FaultCode}
    (h : rastCheck p g img = .error c) : c ≠ .noFault := by
  unfold rastCheck at h
  split at h
  · cases h; decide
  · split at h
    · cases h; decide
    · split at h
      · cases h; decide
      · split at h <;> cases h
        decide

/-! ## The two sides of a state -/

/-- The block of a state (R25): the reader, the encoder, the transport and the host's side are set aside. States with equal
blocks agree in every parameter, register and buffer. -/
def State.block (s : State) : State :=
  { s with expOut := [], enc := freshEncoder, wire := [], host := [], response := .nothing }

/-- The rest of a state: the reader, the encoder, the transport and the host's side, with the block set aside. -/
def State.outside (s : State) : State :=
  { State.reset with expOut := s.expOut, enc := s.enc, wire := s.wire, host := s.host, response := s.response }

theorem State.inv_block (s : State) : s.block.inv = s.inv := rfl

theorem readReg_block (s : State) (r : Reg) : readReg s.block r = readReg s r := by
  cases r <;> rfl

theorem readReg_eq_of_block_eq {s t : State} (h : t.block = s.block) (r : Reg) : readReg t r = readReg s r := by
  rw [← readReg_block t, h, readReg_block]

@[simp] theorem requeue_block (s : State) (again : List Byte → HostAction) (rest : List Byte) :
    (requeue s again rest).block = s.block := by
  unfold requeue
  split <;> rfl

/-! ## Instructions of the block and of the surroundings -/

/-- The encoder changes nothing of the block and takes nothing from the host's list (R25, R175). -/
theorem encodeInto_frame {s t : State} {i : Instr} (h : encodeInto s i = .next t) :
    t.block = s.block ∧ t.host = s.host := by
  obtain ⟨-, rfl⟩ := encodeInto_next h
  exact ⟨rfl, rfl⟩

theorem execMargin_frame {s t : State} {dots : BitVec 16} (h : execMargin dots s = .next t) :
    t.block = s.block ∧ t.host = s.host := by
  unfold execMargin unlessFrozen at h
  split at h
  · split at h <;> cases h
    exact ⟨rfl, rfl⟩
  · exact encodeInto_frame h

theorem execRasterTransfer_frame {s t : State} {payload : List Byte} (h : execRasterTransfer payload s = .next t) :
    t.block = s.block ∧ t.host = s.host := by
  unfold execRasterTransfer at h
  split at h
  · exact encodeInto_frame h
  · cases h

/-- An instruction of the reader, the encoder or the transport changes nothing of the block (R25, R165). -/
theorem exec_surroundings_frame {s t : State} {i : Instr} (hi : i ∉ [Instr.stdec, .rast, .comp])
    (h : exec i s = .next t) : t.block = s.block ∧ t.host = s.host := by
  cases i with
  | stdec | rast | comp => simp at hi
  | run _ _ | lit _ =>
    obtain ⟨-, rfl⟩ := readerTakes_next h
    exact ⟨rfl, rfl⟩
  | statusRequest => cases h; exact ⟨rfl, rfl⟩
  | margin _ => exact execMargin_frame h
  | compressionSelect mode => 
    exact encodeInto_frame (s := { s with enc := { s.enc with lastSelect := some mode } }) h
  | rasterTransfer _ => exact execRasterTransfer_frame h
  | invalidate | initPrinter | modeSwitch _ | printInfo _ | variousMode _ | pageNumber _ | advancedMode _ | print
  | printFeed => exact encodeInto_frame h

/-- Everything the three operations can do: nothing while faulted, a fault (R213), or their result (R26). -/
theorem exec_operation_next {s t : State} {i : Instr} (hi : i ∈ [Instr.stdec, .rast, .comp])
    (h : exec i s = .next t) :
    (s.faulted = true ∧ t = s) ∨ (s.faulted = false ∧ ∃ c, c ≠ .noFault ∧ t = raise c s) ∨
      (s.faulted = false ∧ t.faulted = false ∧ t.outside = s.outside) := by
  simp only [List.mem_cons, List.not_mem_nil, or_false] at hi
  rcases hi with rfl | rfl | rfl
  · rcases execStdec_next h with hs | ⟨hf, record, -, rfl⟩
    · exact .inl hs
    · exact .inr (.inr ⟨hf, hf, rfl⟩)
  · rcases execRast_next h with hs | ⟨hf, c, hc, rfl⟩ | ⟨hf, f, image, -, -, rfl⟩
    · exact .inl hs
    · exact .inr (.inl ⟨hf, c, rastCheck_error hc, rfl⟩)
    · exact .inr (.inr ⟨hf, hf, rfl⟩)
  · rcases execComp_next h with hs | ⟨hf, rfl⟩ | ⟨hf, -, src, -, -, rfl⟩
    · exact .inl hs
    · exact .inr (.inl ⟨hf, .capacity, by decide, rfl⟩)
    · exact .inr (.inr ⟨hf, hf, rfl⟩)

/-- An instruction of the block changes nothing outside it (R25, R165). -/
theorem exec_operation_outside {s t : State} {i : Instr} (hi : i ∈ [Instr.stdec, .rast, .comp])
    (h : exec i s = .next t) : t.outside = s.outside := by
  rcases exec_operation_next hi h with ⟨-, rfl⟩ | ⟨-, c, -, rfl⟩ | ⟨-, -, hout⟩
  · rfl
  · rfl
  · exact hout

/-- An instruction that enters the FAULTED state has raised one fault and done nothing else (R213). -/
theorem exec_faulting {s t : State} {i : Instr} (h : exec i s = .next t) (hs : s.faulted = false)
    (ht : t.faulted = true) : ∃ c, c ≠ .noFault ∧ t = raise c s := by
  by_cases hi : i ∈ [Instr.stdec, .rast, .comp]
  · rcases exec_operation_next hi h with ⟨hf, -⟩ | ⟨-, hc⟩ | ⟨-, hf, -⟩
    · simp [hs] at hf
    · exact hc
    · simp [ht] at hf
  · have hf : t.faulted = s.faulted := (congrArg State.faulted (exec_surroundings_frame hi h).1 :)
    simp [hs, ht] at hf

/-! ## What a step can do to the block -/

/-- Everything that a step other than a reset can do to the block `s`. -/
inductive BlockEffect (s : State) : State → Prop
  /-- The step was idle, ignored, a read, or one of the surroundings. -/
  | unchanged : BlockEffect s s
  /-- The host loaded input registers (R15, R171). -/
  | inputs (geo : Geometry) (img : ImageRegs) (srcOff srcLen : Word) :
      BlockEffect s { s with geo := geo, img := img, srcOff := srcOff, srcLen := srcLen }
  /-- The host stored bytes inside a buffer (R54). -/
  | store (space : Space) (off : Nat) (bytes : List Byte) (inside : off + bytes.length ≤ bufSize s.params space) :
      BlockEffect s { s with mem := s.mem.setBuf space (memWrite (s.mem.buf space) off bytes) }
  /-- A command faulted (R213). -/
  | fault (c : FaultCode) (ready : s.faulted = false) (code : c ≠ .noFault) : BlockEffect s (raise c s)
  /-- STDEC completed (R90). -/
  | stdec (record : List Byte) (ready : s.faulted = false)
      (read : memRead s.mem.strec 0 Config.statusLen = some record) : BlockEffect s { s with st := decodeStatus record }
  /-- RAST completed (R105). -/
  | rast (f : PixelFormat) (image : List Byte) (ready : s.faulted = false)
      (check : rastCheck s.params s.geo s.img = .ok f)
      (read : memRead s.mem.pix 0 (imageBytes s.img f) = some image) : BlockEffect s (rastDone s f image)
  /-- COMP completed (R130). -/
  | comp (src : List Byte) (ready : s.faulted = false)
      (window : s.srcOff.toNat + s.srcLen.toNat ≤ s.params.lineSize)
      (read : memRead s.mem.line s.srcOff.toNat s.srcLen.toNat = some src)
      (size : (compress s.params.runMax src).length ≤ s.params.cbufSize) :
      BlockEffect s (compDone s (compress s.params.runMax src))

theorem BlockEffect.of_block_eq {s t : State} (h : t.block = s.block) : BlockEffect s.block t.block :=
  h ▸ .unchanged

/-- What an instruction can do to the block. -/
theorem exec_blockEffect {s t : State} {i : Instr} (h : exec i s = .next t) : BlockEffect s.block t.block := by
  by_cases hi : i ∈ [Instr.stdec, .rast, .comp]
  · simp only [List.mem_cons, List.not_mem_nil, or_false] at hi
    rcases hi with rfl | rfl | rfl
    · rcases execStdec_next h with ⟨-, rfl⟩ | ⟨hf, record, hr, rfl⟩
      · exact .unchanged
      · exact .stdec record hf hr
    · rcases execRast_next h with ⟨-, rfl⟩ | ⟨hf, c, hc, rfl⟩ | ⟨hf, f, image, hc, hr, rfl⟩
      · exact .unchanged
      · exact .fault c hf (rastCheck_error hc)
      · exact .rast f image hf hc hr
    · rcases execComp_next h with ⟨-, rfl⟩ | ⟨hf, rfl⟩ | ⟨hf, hw, src, hr, ho, rfl⟩
      · exact .unchanged
      · exact .fault .capacity hf (by decide)
      · exact .comp src hf hw hr ho
  · exact .of_block_eq (exec_surroundings_frame hi h).1

/-- A host write changes at most input registers (R15). -/
theorem writeReg_eq (s : State) (r : Reg) (v : Word) :
    writeReg s r v = { s with geo := (writeReg s r v).geo, img := (writeReg s r v).img,
                              srcOff := (writeReg s r v).srcOff, srcLen := (writeReg s r v).srcLen } := by
  cases r <;> rfl

theorem runCommand_blockEffect {s t : State} {v : Word} (h : runCommand s v = .next t) :
    BlockEffect s.block t.block := by
  unfold runCommand unlessFaulted at h
  split at h
  · cases h; exact .unchanged
  · rename_i hf
    split at h
    · exact exec_blockEffect h
    · cases h; exact .fault .illegalCmd ((Bool.not_eq_true _).mp hf) (by decide)

theorem hostWriteReg_blockEffect {s t : State} {number : Nat} {v : Word} (h : hostWriteReg s number v = .next t) :
    BlockEffect s.block t.block := by
  unfold hostWriteReg at h
  split at h
  · cases h
  · exact runCommand_blockEffect h
  · cases h
    rw [writeReg_eq]
    exact .inputs ..

theorem hostWriteMem_blockEffect {s t : State} {space : Space} {off : Nat} {bytes : List Byte}
    (h : hostWriteMem s space off bytes = .next t) : BlockEffect s.block t.block := by
  unfold hostWriteMem at h
  split at h <;> cases h
  rename_i hin
  by_cases hb : bytes = []
  · subst hb
    refine .of_block_eq ?_
    cases space <;> rfl
  · exact .store space off bytes (Nat.le_of_not_lt fun hlt => hin ⟨hb, hlt⟩)

/-- Everything but a reset that an action of the host can do to the block. -/
theorem runAction_blockEffect {s t : State} {a : HostAction} (ha : a ≠ .reset) (h : runAction s a = .next t) :
    BlockEffect s.block t.block := by
  cases a with
  | reset => exact absurd rfl ha
  | writeReg number v => exact hostWriteReg_blockEffect h
  | readReg number =>
    simp only [runAction, hostReadReg] at h
    split at h <;> cases h
    exact .unchanged
  | writeMem space off bytes => exact hostWriteMem_blockEffect h
  | readMem space off n =>
    simp only [runAction, hostReadMem] at h
    split at h
    · cases h
    · split at h <;> cases h
      exact .unchanged
  | expand bytes =>
    simp only [runAction, readerStep] at h
    split at h
    · cases h; exact .unchanged
    · split at h
      · simpa using exec_blockEffect h
      · cases h
  | emit bytes =>
    simp only [runAction, encoderStep] at h
    split at h
    · cases h; exact .unchanged
    · split at h
      · simpa using exec_blockEffect h
      · cases h
  | emitLine =>
    simp only [runAction, emitLine] at h
    split at h
    · cases h
    · exact exec_blockEffect h
  | emitRawLine x =>
    simp only [runAction, emitRawLine] at h
    split at h
    · cases h
    · exact exec_blockEffect h
  | emitPageInfo info => exact exec_blockEffect (i := .printInfo (pageInfo s info)) h
  | startLine | newEncoder => cases h; exact .unchanged
  | build =>
    simp only [runAction, unlessFrozen] at h
    split at h <;> cases h
    exact .unchanged
  | send outcome =>
    obtain ⟨-, rfl⟩ := sendStream_next h
    exact .unchanged
  | fetchStatus outcome =>
    obtain ⟨r, rfl⟩ := fetchStatus_next h
    exact .unchanged
  | loadStatus outcome =>
    rcases loadStatus_next h with ⟨record, hr, rfl⟩ | ⟨e, -, rfl⟩
    · exact .store .strec 0 record (by simp [statusOf_ok hr, bufSize])
    · exact .unchanged
  | loadGeometry widthClass dpi =>
    simp only [runAction, loadGeometry] at h
    split at h <;> cases h
    · exact .unchanged
    · exact .inputs ..

/-- What a step does to the block: a reset, or one of the effects above. -/
theorem step_next {s t : State} (h : step s = .next t) :
    (∃ rest, s.host = .reset :: rest ∧ t.block = resetBlock s.block) ∨ BlockEffect s.block t.block := by
  cases hs : s.host with
  | nil =>
    rw [step_idle hs] at h
    cases h
    exact .inr .unchanged
  | cons a rest =>
    rw [step_cons hs] at h
    by_cases ha : a = .reset
    · subst ha
      cases h
      exact .inl ⟨rest, rfl, rfl⟩
    · exact .inr (runAction_blockEffect (s := takeAction s rest) ha h)

/-! ## What every effect keeps -/

section
variable {s t : State}

theorem BlockEffect.keeps_params (e : BlockEffect s t) : t.params = s.params := by
  cases e <;> rfl

/-- No effect makes a written byte unwritten (R23). -/
theorem BlockEffect.keeps_written (e : BlockEffect s t) {sp : Space} {a : Nat} (h : memByte (s.mem.buf sp) a ≠ none) :
    memByte (t.mem.buf sp) a ≠ none := by
  cases e with
  | unchanged | inputs | fault | stdec => exact h
  | store space off bytes => exact setBuf_keeps_written _ _ _ _ _ _ h
  | rast f image =>
    cases sp with
    | line => exact storeLines_keeps_written _ _ _ _ h
    | pix | cbuf | strec => exact h
  | comp src =>
    cases sp with
    | cbuf => exact memWrite_keeps_written _ _ _ _ h
    | pix | line | strec => exact h

theorem BlockEffect.keeps_writtenBytes (e : BlockEffect s t) {sp : Space} {off n : Nat}
    (h : writtenBytes (s.mem.buf sp) off n) : writtenBytes (t.mem.buf sp) off n :=
  fun a hlo hhi => e.keeps_written (h a hlo hhi)

theorem Memory.wf_iff (m : Memory) : m.wf = true ↔ ∀ sp, Mem.wf (m.buf sp) = true := by
  simp only [Memory.wf, Bool.and_eq_true]
  constructor
  · rintro ⟨⟨⟨hp, hl⟩, hc⟩, hs⟩ sp
    cases sp <;> assumption
  · exact fun h => ⟨⟨⟨h .pix, h .line⟩, h .cbuf⟩, h .strec⟩

/-- The buffers stay in canonical form. -/
theorem BlockEffect.keeps_wf (e : BlockEffect s t) (h : s.mem.wf = true) : t.mem.wf = true := by
  have hbuf := (Memory.wf_iff s.mem).mp h
  cases e with
  | unchanged | inputs | fault | stdec => exact h
  | store space off bytes => exact setBuf_keeps_wf h (memWrite_keeps_wf _ _ (hbuf space)) space
  | rast f image => exact setBuf_keeps_wf h (storeLines_keeps_wf _ _ _ _ (hbuf .line)) .line
  | comp src => exact setBuf_keeps_wf h (memWrite_keeps_wf _ _ (hbuf .cbuf)) .cbuf

theorem buffersInRange_iff (s : State) :
    buffersInRange s = true ↔ ∀ sp, Mem.below (bufSize s.params sp) (s.mem.buf sp) = true := by
  simp only [buffersInRange, Bool.and_eq_true]
  constructor
  · rintro ⟨⟨⟨hp, hl⟩, hc⟩, hs⟩ sp
    cases sp <;> assumption
  · exact fun h => ⟨⟨⟨h .pix, h .line⟩, h .cbuf⟩, h .strec⟩

/-- Replacing a buffer by one that lies inside it keeps every buffer in range. -/
theorem setBuf_keeps_inRange (h : buffersInRange s = true) {space : Space} {b : Mem}
    (hb : Mem.below (bufSize s.params space) b = true) :
    buffersInRange { s with mem := s.mem.setBuf space b } = true := by
  rw [buffersInRange_iff] at h ⊢
  intro sp
  by_cases hsp : sp = space
  · subst hsp
    simpa using hb
  · simpa [buf_setBuf_ne _ _ hsp] using h sp

/-- The buffers stay in range (R50). -/
theorem BlockEffect.keeps_inRange (e : BlockEffect s t) (h : buffersInRange s = true) : buffersInRange t = true := by
  have hbuf := (buffersInRange_iff s).mp h
  cases e with
  | unchanged | inputs | fault | stdec => exact h
  | store space off bytes inside => exact setBuf_keeps_inRange h (memWrite_keeps_below _ (hbuf space) inside)
  | rast f image _ check =>
    obtain ⟨-, -, -, -, hline⟩ := rastCheck_ok check
    exact setBuf_keeps_inRange (space := .line) h (storeLines_keeps_below _ _ _ _ (hbuf .line) hline)
  | comp src _ _ _ size =>
    exact setBuf_keeps_inRange (space := .cbuf) h (memWrite_keeps_below _ (hbuf .cbuf) (by simpa [bufSize] using size))

/-- FAULT and STATUS.FAULTED stay in agreement (R16, R213). -/
theorem BlockEffect.keeps_faultConsistent (e : BlockEffect s t) (h : faultConsistent s = true) :
    faultConsistent t = true := by
  cases e with
  | fault c _ code => simpa [faultConsistent] using code
  | unchanged | inputs | store | stdec | rast | comp => exact h

/-- `printer_dpi` as the invariant states it: one model id prints at 180 dpi, every other at 360 (R93). -/
theorem printerDpi_eq (model : Byte) : printerDpi model = if model = 0x5A then 180 else 360 := by
  simp only [printerDpi, Config.dpi180Ids, Config.dpiDefault, List.mem_singleton, ite_self]

/-- What STDEC computes is consistent (R92, R93). -/
theorem statusConsistent_decodeStatus (s : State) (record : List Byte) :
    statusConsistent { s with st := decodeStatus record } = true := by
  simp [statusConsistent, decodeStatus, printerDpi_eq]

/-- The ST registers stay as reset or some STDEC left them (R21). -/
theorem BlockEffect.keeps_statusConsistent (e : BlockEffect s t) (h : statusConsistent s = true) :
    statusConsistent t = true := by
  cases e with
  | stdec record => exact statusConsistent_decodeStatus s record
  | unchanged | inputs | store | fault | rast | comp => exact h

theorem linesConsistent_iff (s : State) :
    linesConsistent s = true ↔ s.nlines.toNat * s.lb.toNat ≤ s.params.lineSize ∧
      writtenBytes s.mem.line 0 (s.nlines.toNat * s.lb.toNat) := by
  simp [linesConsistent, memRead_isSome_iff]

/-- NLINES lines of LB bytes stay in LINE, all written: a completed RAST has just stored them (R19, R105), and nothing
else changes their count or makes one of their bytes unwritten. -/
theorem BlockEffect.keeps_linesConsistent (e : BlockEffect s t) (h : linesConsistent s = true) :
    linesConsistent t = true := by
  rw [linesConsistent_iff] at h ⊢
  obtain ⟨hsize, hwritten⟩ := h
  have hkept := e.keeps_writtenBytes (sp := .line) hwritten
  cases e with
  | rast f image _ check =>
    obtain ⟨-, -, -, -, hline⟩ := rastCheck_ok check
    rw [toNat_lb_rastDone]
    exact ⟨hline, writtenBytes_storeLines s.geo f s.img.width.toNat image s.mem.line⟩
  | unchanged | inputs | store | fault | stdec | comp => exact ⟨hsize, hkept⟩

theorem compressedConsistent_iff (s : State) :
    compressedConsistent s = true ↔ s.clen.toNat ≤ s.params.cbufSize ∧ writtenBytes s.mem.cbuf 0 s.clen.toNat := by
  simp [compressedConsistent, memRead_isSome_iff]

theorem Params.cbufSize_lt {p : Params} (h : p.valid = true) : p.cbufSize < 2 ^ 32 := by
  simp only [Params.valid, Bool.and_eq_true, decide_eq_true_eq] at h
  exact h.2

/-- CLEN is held in full: an output that fits CBUF has a length that fits a register (R8, R136). -/
theorem toNat_clen_compDone (h : s.params.valid = true) {out : List Byte} (hout : out.length ≤ s.params.cbufSize) :
    (compDone s out).clen.toNat = out.length := by
  rw [compDone_clen, BitVec.toNat_ofNat]
  exact Nat.mod_eq_of_lt (Nat.lt_of_le_of_lt hout (Params.cbufSize_lt h))

/-- CLEN bytes stay in CBUF, all written: a completed COMP has just stored them (R20, R136), and nothing else changes CLEN or
makes one of them unwritten. -/
theorem BlockEffect.keeps_compressedConsistent (e : BlockEffect s t) (hp : s.params.valid = true)
    (h : compressedConsistent s = true) : compressedConsistent t = true := by
  rw [compressedConsistent_iff] at h ⊢
  obtain ⟨hsize, hwritten⟩ := h
  have hkept := e.keeps_writtenBytes (sp := .cbuf) hwritten
  cases e with
  | comp src _ _ _ size =>
    rw [toNat_clen_compDone hp size]
    exact ⟨size, writtenBytes_memWrite _ _ _⟩
  | unchanged | inputs | store | fault | stdec | rast => exact ⟨hsize, hkept⟩

theorem State.inv_iff (s : State) :
    s.inv = true ↔ s.params.valid = true ∧ s.mem.wf = true ∧ buffersInRange s = true ∧ faultConsistent s = true ∧
      statusConsistent s = true ∧ linesConsistent s = true ∧ compressedConsistent s = true := by
  simp only [State.inv, Bool.and_eq_true, and_assoc]

/-- Every effect keeps the invariant. -/
theorem BlockEffect.keeps_inv (e : BlockEffect s t) (h : s.inv = true) : t.inv = true := by
  rw [State.inv_iff] at h ⊢
  obtain ⟨hparams, hwf, hrange, hfault, hstatus, hlines, hcompressed⟩ := h
  exact ⟨e.keeps_params ▸ hparams, e.keeps_wf hwf, e.keeps_inRange hrange, e.keeps_faultConsistent hfault,
    e.keeps_statusConsistent hstatus, e.keeps_linesConsistent hlines, e.keeps_compressedConsistent hparams hcompressed⟩

end

/-! ## Reset -/

/-- After reset every register reads 0 (R24). -/
theorem readReg_resetBlock (s : State) (r : Reg) : readReg (resetBlock s) r = 0 := by
  cases r <;> rfl

/-- After reset every byte is unwritten (R24). -/
theorem memByte_resetBlock (s : State) (sp : Space) (a : Nat) : memByte ((resetBlock s).mem.buf sp) a = none := by
  cases sp <;> rfl

/-- The invariant holds after reset, under any legal parameters. -/
theorem inv_resetBlock {s : State} (h : s.params.valid = true) : (resetBlock s).inv = true := by
  rw [State.inv_iff]
  refine ⟨h, rfl, rfl, rfl, rfl, ?_, ?_⟩
  · simp [linesConsistent]
  · simp [compressedConsistent]

theorem reset_eq_resetBlock : State.reset = resetBlock State.reset := rfl

/-! ## The register map -/

theorem number_mem_mappedNumbers (r : Reg) : r.number ∈ mappedNumbers := by
  cases r <;> decide

/-- The numbers of the map are those that lead to a register (R15). -/
theorem mem_mappedNumbers_iff (n : Nat) : n ∈ mappedNumbers ↔ ∃ r, regOfNumber n = some r := by
  constructor
  · have leads : ∀ n ∈ mappedNumbers, (regOfNumber n).isSome = true := by decide
    exact fun hn => Option.isSome_iff_exists.mp (leads n hn)
  · rintro ⟨r, hr⟩
    rw [← number_of_regOfNumber hr]
    exact number_mem_mappedNumbers r

theorem regOfNumber_unmapped {n : Nat} (h : n ∉ mappedNumbers) : regOfNumber n = none :=
  Option.eq_none_iff_forall_ne_some.mpr fun r hr => h ((mem_mappedNumbers_iff n).mpr ⟨r, hr⟩)

/-- The numbers marked RW are those of the registers that a host write changes (R15). -/
theorem mem_writableNumbers_iff {n : Nat} {r : Reg} (h : regOfNumber n = some r) :
    n ∈ writableNumbers ↔ r.writable = true := by
  rw [← number_of_regOfNumber h]
  cases r <;> decide

theorem writableNumbers_subset_mappedNumbers : ∀ n ∈ writableNumbers, n ∈ mappedNumbers := by decide

theorem hostWriteReg_unmapped {n : Nat} (h : n ∉ mappedNumbers) (s : State) (v : Word) :
    hostWriteReg s n v = .refused (.noSuchRegister n) := by
  simp only [hostWriteReg, regOfNumber_unmapped h]

theorem hostReadReg_unmapped {n : Nat} (h : n ∉ mappedNumbers) (s : State) :
    hostReadReg s n = .refused (.noSuchRegister n) := by
  simp only [hostReadReg, regOfNumber_unmapped h]

/-- A host write to a register other than CMD stores its value, and nothing else happens (R15). -/
theorem hostWriteReg_stores {n : Nat} {r : Reg} (h : regOfNumber n = some r) (hr : r ≠ .cmd) (s : State) (v : Word) :
    hostWriteReg s n v = .next (writeReg s r v) := by
  simp only [hostWriteReg, h]

theorem hostReadReg_answers {n : Nat} {r : Reg} (h : regOfNumber n = some r) (s : State) :
    hostReadReg s n = .next (respond s (.value (readReg s r))) := by
  simp only [hostReadReg, h]

theorem readReg_takeAction (s : State) (rest : List HostAction) (r : Reg) :
    readReg (takeAction s rest) r = readReg s r := by
  cases r <;> rfl

theorem flagWord_toNat_lt (b : Bool) : (flagWord b).toNat < 2 := by
  cases b <;> decide

/-- A one-bit register reads 0 above bit 0 (R15). -/
theorem readReg_flag_lt (s : State) {r : Reg} (h : r ∈ [Reg.status, .stValid, .stHasErr]) :
    (readReg s r).toNat < 2 := by
  simp only [List.mem_cons, List.not_mem_nil, or_false] at h
  rcases h with rfl | rfl | rfl <;> exact flagWord_toNat_lt _

theorem code_toNat_lt (c : FaultCode) : c.code.toNat < 256 := by
  cases c <;> decide

theorem byteField_toNat_lt (b : Byte) : (b.setWidth 32).toNat < 256 := by
  rw [BitVec.toNat_setWidth_of_le (by decide)]
  exact b.isLt

/-- A one-byte register reads 0 above bit 7 (R15). -/
theorem readReg_byte_lt (s : State) {r : Reg} (h : r ∈ [Reg.fault, .stModel, .stErr1, .stErr2, .stMediaW, .stMediaT]) :
    (readReg s r).toNat < 256 := by
  simp only [List.mem_cons, List.not_mem_nil, or_false] at h
  rcases h with rfl | rfl | rfl | rfl | rfl | rfl
  · exact code_toNat_lt _
  all_goals exact byteField_toNat_lt _

/-! ## The statements -/

/-- Settles O57: every effect on the block keeps the invariant, and so does a reset. -/
theorem stepKeepsTheInvariant : Obligations.StepKeepsTheInvariant := by
  intro s t hs h
  rw [← State.inv_block] at hs ⊢
  rcases step_next h with ⟨rest, -, hreset⟩ | e
  · rw [hreset]
    exact inv_resetBlock ((State.inv_iff _).mp hs).1
  · exact e.keeps_inv hs

/-- Settles O8: register numbers are taken to registers by the lemmas on the map, and the rest is what a write and a read of
a register do. -/
theorem registerAccessFollowsTheMap : Obligations.RegisterAccessFollowsTheMap := by
  refine ⟨?writable, ?readonly, ?read, fun _ => rfl, ?unmapped, fun s r => readReg_flag_lt s,
    fun s r => readReg_byte_lt s⟩
  case writable =>
    intro s number v rest hn hs
    obtain ⟨r, hr⟩ := (mem_mappedNumbers_iff number).mp (writableNumbers_subset_mappedNumbers number hn)
    have hw : r.writable = true := (mem_writableNumbers_iff hr).mp hn
    have hcmd : r ≠ .cmd := by rintro rfl; cases hw
    refine ⟨writeReg (takeAction s rest) r v, r, ?_, hr, readReg_writeReg_self _ hw v, fun r' hr' => ?_,
      writeReg_eq _ r v⟩
    · rw [step_cons hs]
      exact hostWriteReg_stores hr hcmd _ v
    · rw [readReg_writeReg_ne _ hr', readReg_takeAction]
  case readonly =>
    intro s number v rest hn hnw hn0 hs
    obtain ⟨r, hr⟩ := (mem_mappedNumbers_iff number).mp hn
    have hw : r.writable = false := by simpa using mt (mem_writableNumbers_iff hr).mpr hnw
    have hcmd : r ≠ .cmd := by rintro rfl; exact hn0 (number_of_regOfNumber hr).symm
    rw [step_cons hs]
    exact (hostWriteReg_stores hr hcmd _ v).trans (by rw [writeReg_readonly _ hw]; rfl)
  case read =>
    intro s number rest hn hs
    obtain ⟨r, hr⟩ := (mem_mappedNumbers_iff number).mp hn
    refine ⟨r, hr, ?_⟩
    rw [step_cons hs, ← readReg_takeAction s rest r]
    exact hostReadReg_answers hr _
  case unmapped =>
    intro s number rest v hn
    constructor <;> intro hs <;> rw [step_cons hs]
    · exact hostWriteReg_unmapped hn _ v
    · exact hostReadReg_unmapped hn _

/-- Settles O18: of what a step can do to the block, only a reset makes bytes unwritten. -/
theorem writtenBytesStayWritten : Obligations.WrittenBytesStayWritten := by
  intro s t h hreset space a ha
  rcases step_next h with ⟨rest, hr, -⟩ | e
  · exact absurd hr (hreset rest)
  · exact e.keeps_written ha

/-- Settles O39, case by case of what each operation can do. -/
theorem operationsChangeOnlyTheirResults : Obligations.OperationsChangeOnlyTheirResults := by
  intro s t hp
  refine ⟨fun h => ?stdec, fun h => ?rast, fun h => ?comp, fun i h ht hs => ?faulting⟩
  case stdec =>
    rcases execStdec_next h with ⟨-, rfl⟩ | ⟨-, record, -, rfl⟩ <;> rfl
  case rast =>
    rcases execRast_next h with ⟨-, rfl⟩ | ⟨-, c, -, rfl⟩ | ⟨-, f, image, -, -, rfl⟩
    · exact ⟨rfl, fun _ _ => rfl⟩
    · exact ⟨rfl, fun _ _ => rfl⟩
    · refine ⟨rfl, fun a ha => ?_⟩
      exact (memByte_storeLines ..).trans (if_neg (Nat.not_lt.mpr ha))
  case comp =>
    rcases execComp_next h with ⟨-, rfl⟩ | ⟨-, rfl⟩ | ⟨-, -, src, -, hout, rfl⟩
    · exact ⟨rfl, fun _ _ => rfl⟩
    · exact ⟨rfl, fun _ _ => rfl⟩
    · refine ⟨rfl, fun a ha => ?_⟩
      rw [toNat_clen_compDone hp hout] at ha
      exact memByte_memWrite_outside _ _ (.inr (by omega))
  case faulting =>
    obtain ⟨c, -, rfl⟩ := exec_faulting h hs ht
    rfl

/-- Settles O59: neither a reset nor any other effect on the block changes a parameter. -/
theorem stepKeepsTheParameters : Obligations.StepKeepsTheParameters := by
  intro s t h
  rcases step_next h with ⟨rest, -, hreset⟩ | e
  · exact (congrArg State.params hreset :)
  · exact e.keeps_params

/-- Settles O60: an operation leaves everything outside the block as it was, and every other instruction leaves the block as
it was. -/
theorem blockAndSurroundingsAreSeparate : Obligations.BlockAndSurroundingsAreSeparate := by
  intro s t i h
  refine ⟨fun hi => ?operation, fun hi => ?surroundings, (exec_blockEffect h).keeps_params, ?host⟩
  case operation =>
    have hout := exec_operation_outside hi h
    exact ⟨(congrArg State.expOut hout :), (congrArg State.enc hout :), (congrArg State.wire hout :)⟩
  case surroundings =>
    obtain ⟨hblock, -⟩ := exec_surroundings_frame hi h
    exact ⟨(congrArg State.mem hblock :), readReg_eq_of_block_eq hblock⟩
  case host =>
    by_cases hi : i ∈ [Instr.stdec, .rast, .comp]
    · exact (congrArg State.host (exec_operation_outside hi h) :)
    · exact (exec_surroundings_frame hi h).2

/-- Settles O6: the machine after reset is a block that has been reset. -/
theorem resetReadsZeroAndUnwritten : Obligations.ResetReadsZeroAndUnwritten := by
  unfold Obligations.ResetReadsZeroAndUnwritten
  rw [reset_eq_resetBlock]
  exact ⟨readReg_resetBlock _, memByte_resetBlock _, rfl⟩

/-- Settles O58: the parameters chosen for reset are legal, and a reset gives the invariant under any that are. -/
theorem resetSatisfiesTheInvariant : Obligations.ResetSatisfiesTheInvariant :=
  inv_resetBlock (s := State.reset) (by decide)

end Sys2Proof.Machine
end

section
/-! # The family of memory: buffer accesses, unwritten bytes and the order of bytes

Each access of the host to a buffer and each operation that reads one has an equation per case here; the statements put
the cases together. -/

namespace Sys2Proof.Machine

/-! ## Reading several bytes -/

/-- One unwritten byte anywhere in a read leaves it without a value (R53). -/
theorem memRead_eq_none_of_unwritten {m : Mem} {off n a : Nat} (hlo : off ≤ a) (hhi : a < off + n)
    (h : memByte m a = none) : memRead m off n = none :=
  (memRead_eq_none_iff m off n).mpr ⟨a - off, by omega, by rwa [Nat.add_sub_cancel' hlo]⟩

/-- A read of written bytes has a value. -/
theorem exists_memRead_eq_some {m : Mem} {off n : Nat} (h : writtenBytes m off n) :
    ∃ bytes, memRead m off n = some bytes :=
  Option.isSome_iff_exists.mp ((memRead_isSome_iff m off n).mpr h)

/-- What the bytes of a read are, one by one. -/
theorem getElem?_of_memRead {m : Mem} {off n : Nat} {bytes : List Byte} (h : memRead m off n = some bytes) {k : Nat}
    (hk : k < n) : bytes[k]? = memByte m (off + k) := by
  obtain ⟨-, hbytes⟩ := (memRead_eq_some_iff n m off bytes).mp h
  exact (hbytes k hk).symm

/-! ## Host accesses to a buffer -/

section
variable {s : State} {space : Space} {off : Nat}

/-- A host write that reaches beyond the buffer (R50). -/
theorem hostWriteMem_beyond {bytes : List Byte} (hne : bytes ≠ [])
    (h : bufSize s.params space < off + bytes.length) :
    hostWriteMem s space off bytes = .refused (.beyondBuffer space) :=
  if_pos ⟨hne, h⟩

/-- A host read that reaches beyond the buffer (R50). -/
theorem hostReadMem_beyond {n : Nat} (hne : n ≠ 0) (h : bufSize s.params space < off + n) :
    hostReadMem s space off n = .refused (.beyondBuffer space) :=
  if_pos ⟨hne, h⟩

/-- A host read inside the buffer of bytes that have a value (R49). -/
theorem hostReadMem_answers {n : Nat} {bytes : List Byte} (hin : off + n ≤ bufSize s.params space)
    (h : memRead (s.mem.buf space) off n = some bytes) :
    hostReadMem s space off n = .next (respond s (.bytes bytes)) := by
  unfold hostReadMem
  rw [if_neg (by omega), h]

/-- A host read inside the buffer that meets an unwritten byte (R53). -/
theorem hostReadMem_unwritten {n : Nat} (hin : off + n ≤ bufSize s.params space)
    (h : memRead (s.mem.buf space) off n = none) : hostReadMem s space off n = .refused .hostReadUnwritten := by
  unfold hostReadMem
  rw [if_neg (by omega), h]

end

/-! ## RAST and COMP of a block that is not faulted -/

section
variable {s : State}

/-- RAST whose checks pass on an image that has no value (R53, R105). -/
theorem exec_rast_unwritten {f : PixelFormat} (hf : s.faulted = false)
    (hc : rastCheck s.params s.geo s.img = .ok f) (h : memRead s.mem.pix 0 (imageBytes s.img f) = none) :
    exec .rast s = .refused .pixelUnwritten := by
  change execRast s = _
  rw [execRast, unlessFaulted_ready hf, hc]
  simp only [h]

/-- COMP whose window reaches beyond LINE: what the window holds plays no part (R214). -/
theorem exec_comp_beyondLine (hf : s.faulted = false) (h : s.params.lineSize < s.srcOff.toNat + s.srcLen.toNat) :
    exec .comp s = .next (raise .capacity s) := by
  change execComp s = _
  rw [execComp, unlessFaulted_ready hf, if_pos h]

/-- COMP on a window inside LINE that has no value (R53). -/
theorem exec_comp_unwritten (hf : s.faulted = false) (hw : s.srcOff.toNat + s.srcLen.toNat ≤ s.params.lineSize)
    (h : memRead s.mem.line s.srcOff.toNat s.srcLen.toNat = none) : exec .comp s = .refused .lineUnwritten := by
  change execComp s = _
  rw [execComp, unlessFaulted_ready hf, if_neg (by omega), h]

/-- COMP on a window inside LINE that has a value: whether the output fits CBUF decides (R136). -/
theorem exec_comp_window {src : List Byte} (hf : s.faulted = false)
    (hw : s.srcOff.toNat + s.srcLen.toNat ≤ s.params.lineSize)
    (h : memRead s.mem.line s.srcOff.toNat s.srcLen.toNat = some src) :
    exec .comp s = if s.params.cbufSize < (compress s.params.runMax src).length then .next (raise .capacity s)
      else .next (compDone s (compress s.params.runMax src)) := by
  change execComp s = _
  rw [execComp, unlessFaulted_ready hf, if_neg (by omega), h]

end

/-! ## Fields of the protocol, least significant byte first -/

/-- The byte of a field from bit `start` on, as a number. -/
theorem extractLsb'_byte_eq {w : Nat} (v : BitVec w) (start : Nat) :
    v.extractLsb' start 8 = BitVec.ofNat 8 (v.toNat / 2 ^ start % 256) := by
  apply BitVec.eq_of_toNat_eq
  rw [BitVec.extractLsb'_toNat, BitVec.toNat_ofNat, Nat.shiftRight_eq_div_pow, Nat.mod_mod]

/-- The two bytes of a 16-bit field (R46). -/
theorem le16_eq (v : BitVec 16) :
    le16 v = [BitVec.ofNat 8 (v.toNat % 256), BitVec.ofNat 8 (v.toNat / 256)] := by
  have hhi : v.toNat / 256 % 256 = v.toNat / 256 := Nat.mod_eq_of_lt (by omega)
  simp only [le16, extractLsb'_byte_eq, Nat.reducePow, Nat.div_one, hhi]

/-- The four bytes of a 32-bit field (R46). -/
theorem le32_eq (v : BitVec 32) :
    le32 v = [BitVec.ofNat 8 (v.toNat % 256), BitVec.ofNat 8 (v.toNat / 256 % 256),
      BitVec.ofNat 8 (v.toNat / 65536 % 256), BitVec.ofNat 8 (v.toNat / 16777216)] := by
  have htop : v.toNat / 16777216 % 256 = v.toNat / 16777216 := Nat.mod_eq_of_lt (by omega)
  simp only [le32, extractLsb'_byte_eq, Nat.reducePow, Nat.div_one, htop]

/-- The two bytes of the length of a payload that can be sent (R187). -/
theorem le16_length_eq {payload : List Byte} (h : payload.length ≤ 65535) :
    le16 (BitVec.ofNat 16 payload.length) =
      [BitVec.ofNat 8 (payload.length % 256), BitVec.ofNat 8 (payload.length / 256)] := by
  have hlt : payload.length < 2 ^ 16 := by omega
  rw [le16_eq, BitVec.toNat_ofNat, Nat.mod_eq_of_lt hlt]

/-! ## The encoder before `build` -/

section
variable {s : State}

/-- While the stream is not built, the encoder takes every command (R175). -/
theorem encodeInto_open (h : s.enc.frozen = false) (i : Instr) :
    encodeInto s i = .next (appendStream s (encodeBytes i)) :=
  unlessFrozen_open h _

theorem exec_printInfo_open (h : s.enc.frozen = false) (info : PrintInfo) :
    exec (.printInfo info) s = .next (appendStream s (encodeBytes (.printInfo info))) :=
  encodeInto_open h _

/-- A margin other than 0 is encoded (R185). -/
theorem exec_margin_open (h : s.enc.frozen = false) {dots : BitVec 16} (hd : dots ≠ 0) :
    exec (.margin dots) s = .next (appendStream s (encodeBytes (.margin dots))) := by
  change execMargin dots s = _
  rw [execMargin, if_neg hd, encodeInto_open h]

/-- A payload whose length fits 16 bits is encoded (R187). -/
theorem exec_rasterTransfer_open (h : s.enc.frozen = false) {payload : List Byte} (hl : payload.length ≤ 65535) :
    exec (.rasterTransfer payload) s = .next (appendStream s (encodeBytes (.rasterTransfer payload))) := by
  have hwf : (Instr.rasterTransfer payload).wf = true := decide_eq_true hl
  change execRasterTransfer payload s = _
  rw [execRasterTransfer, if_pos hwf, encodeInto_open h]

end

/-! ## The statements -/

/-- Settles O9: the write replaces one buffer by one in which exactly the given bytes were stored. -/
theorem hostBufferWriteStores : Obligations.HostBufferWriteStores := by
  intro s space off bytes rest hs hin
  refine ⟨_, (step_cons hs).trans (hostWriteMem_inside hin), ?stored, fun a ha => ?outside,
    fun space' hne => buf_setBuf_ne _ _ hne, rfl⟩
  case stored =>
    rw [buf_setBuf_self]
    exact memRead_memWrite_self ..
  case outside =>
    rw [buf_setBuf_self]
    exact memByte_memWrite_outside _ _ ha

/-- Settles O10: written bytes have a value, and the read answers it. -/
theorem hostBufferReadAnswers : Obligations.HostBufferReadAnswers := by
  intro s space off n rest hs hin hwritten
  obtain ⟨bytes, hread⟩ := exists_memRead_eq_some hwritten
  exact ⟨bytes, (step_cons hs).trans (hostReadMem_answers hin hread), length_of_memRead hread,
    fun k hk => getElem?_of_memRead hread hk⟩

/-- Settles O44: the encoder appends the bytes of the command, whose wide fields are those of `le16` and `le32`. -/
theorem encoderWritesLittleEndianFields : Obligations.EncoderWritesLittleEndianFields := by
  intro s h
  refine ⟨fun p => ?printInfo, fun dots hd => ?margin, fun payload hl => ?transfer⟩
  case printInfo =>
    rw [exec_printInfo_open h, encodeBytes, encodePrintInfo, le32_eq]
    rfl
  case margin =>
    rw [exec_margin_open h hd, encodeBytes, le16_eq]
    rfl
  case transfer =>
    rw [exec_rasterTransfer_open h hl, encodeBytes, le16_length_eq hl]
    rfl

/-- Settles O11, by the three cases in which an access of the host is refused. -/
theorem hostBufferAccessRefused : Obligations.HostBufferAccessRefused := by
  refine ⟨fun s space off bytes rest hne hout hs => ?write, fun s space off n rest hne hout hs => ?read,
    fun s space off n rest a hin hlo hhi ha hs => ?unwritten⟩
  case write => exact (step_cons hs).trans (hostWriteMem_beyond hne hout)
  case read => exact (step_cons hs).trans (hostReadMem_beyond hne hout)
  case unwritten =>
    exact (step_cons hs).trans (hostReadMem_unwritten hin (memRead_eq_none_of_unwritten hlo hhi ha))

/-- Settles O25: RAST reads the whole image, so an unwritten byte anywhere in it leaves nothing to rasterize. -/
theorem rastRefusesUnwrittenImage : Obligations.RastRefusesUnwrittenImage := by
  intro s f a hf hc hlt ha
  have himage : a < 0 + imageBytes s.img f := by rw [Nat.zero_add]; exact hlt
  exact exec_rast_unwritten hf hc (memRead_eq_none_of_unwritten (Nat.zero_le a) himage ha)

/-- Settles O31, by the cases of COMP in the order of R214. -/
theorem compFaultsAndRefuses : Obligations.CompFaultsAndRefuses := by
  intro s hf
  refine ⟨fun hout => ?beyond, fun a hw hlo hhi ha => ?unwritten, fun src hw hsrc hbig => ?size⟩
  case beyond => exact exec_comp_beyondLine hf hout
  case unwritten => exact exec_comp_unwritten hf hw (memRead_eq_none_of_unwritten hlo hhi ha)
  case size => exact (exec_comp_window hf hw hsrc).trans (if_pos hbig)

end Sys2Proof.Machine
end


section
/-! # The family of encoding: decode and encode agree, and the instructions that rest on it

Each decoder has two lemmas: on the bytes of its instruction it answers that instruction, and when it answers, the bytes
were those of what it answered (`WordsOf`). The two directions of the agreement then follow the dispatch on the opcode. -/

namespace Sys2Proof.Machine

/-! ## Fields, least significant byte first -/

/-- The 16-bit field of its own two bytes (R46). -/
theorem ofLe16_bytes (v : BitVec 16) : ofLe16 (v.extractLsb' 0 8) (v.extractLsb' 8 8) = v :=
  BitVec.extractLsb'_append_extractLsb'

/-- The two bytes of the 16-bit field read from them (R46). -/
theorem le16_ofLe16 (lo hi : Byte) : le16 (ofLe16 lo hi) = [lo, hi] := by
  rw [le16, ofLe16, BitVec.extractLsb'_append_eq_right, BitVec.extractLsb'_append_eq_left]

/-- The 32-bit field of its own four bytes (R46). -/
theorem ofLe32_bytes (v : BitVec 32) :
    ofLe32 (v.extractLsb' 0 8) (v.extractLsb' 8 8) (v.extractLsb' 16 8) (v.extractLsb' 24 8) = v := by
  have hlo : v.extractLsb' 8 8 ++ v.extractLsb' 0 8 = v.extractLsb' 0 16 :=
    BitVec.extractLsb'_append_extractLsb'_eq_extractLsb' rfl
  have hhi : v.extractLsb' 24 8 ++ v.extractLsb' 16 8 = v.extractLsb' 16 16 :=
    BitVec.extractLsb'_append_extractLsb'_eq_extractLsb' rfl
  rw [ofLe32, hlo, hhi]
  exact BitVec.extractLsb'_append_extractLsb'

/-- The four bytes of the 32-bit field read from them (R46). -/
theorem le32_ofLe32 (b0 b1 b2 b3 : Byte) : le32 (ofLe32 b0 b1 b2 b3) = [b0, b1, b2, b3] := by
  have h0 : (ofLe32 b0 b1 b2 b3).extractLsb' 0 8 = b0 := by
    rw [ofLe32, BitVec.extractLsb'_append_eq_of_add_le (by decide), BitVec.extractLsb'_append_eq_right]
  have h1 : (ofLe32 b0 b1 b2 b3).extractLsb' 8 8 = b1 := by
    rw [ofLe32, BitVec.extractLsb'_append_eq_of_add_le (by decide), BitVec.extractLsb'_append_eq_left]
  have h2 : (ofLe32 b0 b1 b2 b3).extractLsb' 16 8 = b2 := by
    rw [ofLe32, BitVec.extractLsb'_append_eq_of_le (by decide)]
    exact BitVec.extractLsb'_append_eq_right
  have h3 : (ofLe32 b0 b1 b2 b3).extractLsb' 24 8 = b3 := by
    rw [ofLe32, BitVec.extractLsb'_append_eq_of_le (by decide)]
    exact BitVec.extractLsb'_append_eq_left
  rw [le32, h0, h1, h2, h3]

/-! ## Which terms are instructions -/

theorem wf_run_iff (len : Nat) (value : Byte) : (Instr.run len value).wf = true ↔ 2 ≤ len ∧ len ≤ 129 := by
  simp [Instr.wf]

theorem wf_lit_iff (data : List Byte) : (Instr.lit data).wf = true ↔ 1 ≤ data.length ∧ data.length ≤ 128 := by
  rw [Instr.wf, Bool.and_eq_true, decide_eq_true_eq, decide_eq_true_eq]

theorem wf_rasterTransfer_iff (payload : List Byte) :
    (Instr.rasterTransfer payload).wf = true ↔ payload.length ≤ 65535 :=
  decide_eq_true_iff

/-- The words are those of a well-formed instruction with `rest` after them: what a reading of them has to be. -/
def WordsOf (words : Words) (i : Instr) (rest : List Byte) : Prop :=
  i.wf = true ∧ (encode i).followedBy rest = words

/-! ## Records -/

theorem toNat_runControl {len : Nat} (hlo : 2 ≤ len) (hhi : len ≤ 255) :
    (runControl len).toNat = (257 - len) % 256 := by
  rw [runControl, BitVec.toNat_ofInt]
  omega

theorem toNat_litControl {k : Nat} (hhi : k ≤ 128) : (litControl k).toNat = k - 1 := by
  rw [litControl, BitVec.toNat_ofNat]
  omega

/-- A control byte is the one of the run it means (R71). -/
theorem runControl_of_control {c : Byte} (h : 0x80 ≤ c.toNat) : runControl (257 - c.toNat) = c := by
  apply BitVec.eq_of_toNat_eq
  rw [toNat_runControl (by omega) (by omega)]
  omega

/-- A control byte is the one of the literal it means (R71). -/
theorem litControl_of_control (c : Byte) : litControl (c.toNat + 1) = c := by
  rw [litControl, Nat.add_sub_cancel, BitVec.ofNat_toNat, BitVec.setWidth_eq]

/-- Bit 7 of the control byte set: a run (R71). -/
theorem readRecord_run {c : Byte} (h : 0x80 ≤ c.toNat) (v : Byte) (rest : List Byte) :
    readRecord (c :: v :: rest) = .ok (.run (257 - c.toNat) v, rest) :=
  if_pos h

/-- Bit 7 of the control byte clear: a literal, if its bytes are all there (R71, R72). -/
theorem readRecord_lit_take {c : Byte} {bytes : List Byte} (h : c.toNat < 0x80) (henough : c.toNat + 1 ≤ bytes.length) :
    readRecord (c :: bytes) = .ok (.lit (bytes.take (c.toNat + 1)), bytes.drop (c.toNat + 1)) :=
  (if_neg (Nat.not_le.mpr h)).trans (if_pos henough)

theorem readRecord_lit {c : Byte} {data : List Byte} (h : c.toNat < 0x80) (hlen : data.length = c.toNat + 1)
    (rest : List Byte) : readRecord (c :: (data ++ rest)) = .ok (.lit data, rest) := by
  have henough : c.toNat + 1 ≤ (data ++ rest).length := by rw [List.length_append]; omega
  rw [readRecord_lit_take h henough, ← hlen, List.take_left, List.drop_left]

/-- The reader takes the record it can read from its bytes, and leaves what follows. -/
theorem readRecord_encodeRecord {r : Record} (hw : (instrOfRecord r).wf = true) (more : List Byte) :
    readRecord (encodeRecord r ++ more) = .ok (r, more) := by
  cases r with
  | run len value =>
    obtain ⟨hlo, hhi⟩ := (wf_run_iff len value).mp hw
    have hc : (runControl len).toNat = 257 - len := by rw [toNat_runControl hlo (by omega)]; omega
    have hlen : 257 - (257 - len) = len := by omega
    have hread := readRecord_run (c := runControl len) (by omega) value more
    rwa [hc, hlen] at hread
  | lit data =>
    obtain ⟨hlo, hhi⟩ := (wf_lit_iff data).mp hw
    have hc : (litControl data.length).toNat = data.length - 1 := toNat_litControl hhi
    exact readRecord_lit (by omega) (by omega) more

/-- Whatever record the reader takes is one it can read, and it stood there as its bytes. -/
theorem readRecord_ok {bytes rest : List Byte} {r : Record} (h : readRecord bytes = .ok (r, rest)) :
    (instrOfRecord r).wf = true ∧ encodeRecord r ++ rest = bytes := by
  cases bytes with
  | nil => cases h
  | cons c bytes =>
    have hc := c.isLt
    unfold readRecord at h
    dsimp only at h
    split_ifs at h with hrun hlit
    · cases bytes with
      | nil => cases h
      | cons v bytes =>
        cases h
        refine ⟨(wf_run_iff _ v).mpr (by omega), ?_⟩
        rw [encodeRecord, runControl_of_control hrun]
        rfl
    · cases h
      have hlen : (bytes.take (c.toNat + 1)).length = c.toNat + 1 := List.length_take_of_le hlit
      refine ⟨(wf_lit_iff _).mpr (by omega), ?_⟩
      rw [encodeRecord, hlen, litControl_of_control, List.cons_append, List.take_append_drop]

theorem encode_instrOfRecord (r : Record) : encode (instrOfRecord r) = .stream (encodeRecord r) := by
  cases r <;> rfl

theorem decodeStream_encode {i : Instr} {bytes : List Byte} (hw : i.wf = true) (he : encode i = .stream bytes)
    (more : List Byte) : decodeStream (bytes ++ more) = .ok (i, more) := by
  have hrecord : ∀ r, i = instrOfRecord r → decodeStream (bytes ++ more) = .ok (i, more) := by
    rintro r rfl
    rw [encode_instrOfRecord] at he
    cases he
    rw [decodeStream, readRecord_encodeRecord hw]
  cases i with
  | run len value => exact hrecord (.run len value) rfl
  | lit data => exact hrecord (.lit data) rfl
  | _ => cases he

theorem decodeStream_ok {bytes rest : List Byte} {i : Instr} (h : decodeStream bytes = .ok (i, rest)) :
    WordsOf (.stream bytes) i rest := by
  rw [decodeStream] at h
  split at h
  · next r rest' hr =>
    cases h
    obtain ⟨hw, rfl⟩ := readRecord_ok hr
    exact ⟨hw, by rw [encode_instrOfRecord]; rfl⟩
  · cases h

/-! ## Parameters of the protocol commands -/

/-- One parameter byte was read, and the opcode's command made of it. -/
theorem decodeParam_ok {mk : Byte → Instr} {bytes rest : List Byte} {i : Instr}
    (h : decodeParam mk bytes = .ok (i, rest)) : ∃ b, i = mk b ∧ bytes = b :: rest := by
  cases bytes with
  | nil => cases h
  | cons b bytes => cases h; exact ⟨b, rfl, rfl⟩

theorem decodePrintInfo_encoded (info : PrintInfo) (more : List Byte) :
    decodePrintInfo (encodePrintInfo info ++ more) = .ok (.printInfo info, more) := by
  change Except.ok (Instr.printInfo { info with rasterLines := ofLe32 _ _ _ _ }, more) = _
  rw [ofLe32_bytes]

theorem decodePrintInfo_ok {bytes rest : List Byte} {i : Instr} (h : decodePrintInfo bytes = .ok (i, rest)) :
    ∃ info, i = .printInfo info ∧ bytes = encodePrintInfo info ++ rest := by
  rw [decodePrintInfo.eq_def] at h
  split at h
  · cases h
    exact ⟨_, rfl, by rw [encodePrintInfo, le32_ofLe32]; rfl⟩
  · cases h

theorem decodeMargin_le16 (dots : BitVec 16) (more : List Byte) :
    decodeMargin (le16 dots ++ more) = .ok (.margin dots, more) := by
  change Except.ok (Instr.margin (ofLe16 _ _), more) = _
  rw [ofLe16_bytes]

theorem decodeMargin_ok {bytes rest : List Byte} {i : Instr} (h : decodeMargin bytes = .ok (i, rest)) :
    ∃ dots, i = .margin dots ∧ bytes = le16 dots ++ rest := by
  rw [decodeMargin.eq_def] at h
  split at h
  · cases h
    exact ⟨_, rfl, by rw [le16_ofLe16]; rfl⟩
  · cases h

/-- The length field tells where the payload ends, as its 16 bits hold the length (R187). -/
theorem decodeTransfer_encoded {payload : List Byte} (hl : payload.length ≤ 65535) (more : List Byte) :
    decodeTransfer (le16 (BitVec.ofNat 16 payload.length) ++ (payload ++ more)) =
      .ok (.rasterTransfer payload, more) := by
  have hlen : (BitVec.ofNat 16 payload.length).toNat = payload.length := by
    rw [BitVec.toNat_ofNat]
    exact Nat.mod_eq_of_lt (by omega)
  have henough : payload.length ≤ (payload ++ more).length := by rw [List.length_append]; omega
  rw [le16, List.cons_append, List.cons_append, List.nil_append, decodeTransfer, ofLe16_bytes, hlen, if_pos henough,
    List.take_left, List.drop_left]

theorem decodeTransfer_ok {bytes rest : List Byte} {i : Instr} (h : decodeTransfer bytes = .ok (i, rest)) :
    ∃ payload, i = .rasterTransfer payload ∧ payload.length ≤ 65535 ∧
      bytes = le16 (BitVec.ofNat 16 payload.length) ++ (payload ++ rest) := by
  rw [decodeTransfer.eq_def] at h
  split at h
  · next lo hi bytes =>
    split_ifs at h with henough
    cases h
    have hlen : (bytes.take (ofLe16 lo hi).toNat).length = (ofLe16 lo hi).toNat := List.length_take_of_le henough
    refine ⟨_, rfl, ?_, ?_⟩
    · have := (ofLe16 lo hi).isLt
      omega
    · rw [hlen, BitVec.ofNat_toNat, BitVec.setWidth_eq, le16_ofLe16, List.take_append_drop]
      rfl
  · cases h

theorem decodeInvalidate_zeros (more : List Byte) :
    decodeInvalidate (List.replicate 199 0 ++ more) = .ok (.invalidate, more) := by
  have htake : (List.replicate 199 0 ++ more).take 199 = List.replicate 199 (0 : Byte) :=
    List.take_left' List.length_replicate
  rw [decodeInvalidate, if_pos htake, List.drop_left' List.length_replicate]

theorem decodeInvalidate_ok {bytes rest : List Byte} {i : Instr} (h : decodeInvalidate bytes = .ok (i, rest)) :
    i = .invalidate ∧ bytes = List.replicate 199 0 ++ rest := by
  rw [decodeInvalidate] at h
  split_ifs at h with hzeros
  cases h
  exact ⟨rfl, by rw [← hzeros, List.take_append_drop]⟩

/-! ## Protocol commands -/

theorem decodeProtocol_zero (bytes : List Byte) : decodeProtocol (0x00 :: bytes) = decodeInvalidate bytes := rfl

/-- The opcode bytes of a command lead to the decoder of its parameters, which reads them back. -/
theorem decodeProtocol_encode {i : Instr} {bytes : List Byte} (hw : i.wf = true) (he : encode i = .protocol bytes)
    (more : List Byte) : decodeProtocol (bytes ++ more) = .ok (i, more) := by
  cases i with
  | stdec | rast | comp => cases he
  | run _ _ => cases he
  | lit _ => cases he
  | invalidate =>
    cases he
    rw [encodeBytes, List.replicate_succ, List.cons_append, decodeProtocol_zero, decodeInvalidate_zeros]
  | printInfo info => cases he; exact decodePrintInfo_encoded info more
  | margin dots => cases he; exact decodeMargin_le16 dots more
  | rasterTransfer payload => cases he; exact decodeTransfer_encoded ((wf_rasterTransfer_iff payload).mp hw) more
  | initPrinter | statusRequest | print | printFeed => cases he; rfl
  | modeSwitch _ | variousMode _ | pageNumber _ | advancedMode _ | compressionSelect _ => cases he; rfl

/-- The commands that begin `1B 69`, one per branch of the dispatch. -/
theorem decodeEscI_ok {bytes rest : List Byte} {i : Instr} (h : decodeEscI bytes = .ok (i, rest)) :
    WordsOf (.protocol (0x1B :: 0x69 :: bytes)) i rest := by
  cases bytes with
  | nil => cases h
  | cons c bytes =>
    rw [decodeEscI] at h
    split_ifs at h with hstatus hmode hinfo hvarious hpage hadvanced hmargin
    · subst hstatus; cases h; exact ⟨rfl, rfl⟩
    · subst hmode; obtain ⟨mode, rfl, rfl⟩ := decodeParam_ok h; exact ⟨rfl, rfl⟩
    · subst hinfo; obtain ⟨info, rfl, rfl⟩ := decodePrintInfo_ok h; exact ⟨rfl, rfl⟩
    · subst hvarious; obtain ⟨bits, rfl, rfl⟩ := decodeParam_ok h; exact ⟨rfl, rfl⟩
    · subst hpage; obtain ⟨cutInterval, rfl, rfl⟩ := decodeParam_ok h; exact ⟨rfl, rfl⟩
    · subst hadvanced; obtain ⟨bits, rfl, rfl⟩ := decodeParam_ok h; exact ⟨rfl, rfl⟩
    · subst hmargin; obtain ⟨dots, rfl, rfl⟩ := decodeMargin_ok h; exact ⟨rfl, rfl⟩

/-- The commands that begin `1B`. -/
theorem decodeEsc_ok {bytes rest : List Byte} {i : Instr} (h : decodeEsc bytes = .ok (i, rest)) :
    WordsOf (.protocol (0x1B :: bytes)) i rest := by
  cases bytes with
  | nil => cases h
  | cons c bytes =>
    rw [decodeEsc] at h
    split_ifs at h with hinit hescI
    · subst hinit; cases h; exact ⟨rfl, rfl⟩
    · subst hescI; exact decodeEscI_ok h

/-- Every branch of the dispatch answers a reading of the bytes. -/
theorem decodeProtocol_ok {bytes rest : List Byte} {i : Instr} (h : decodeProtocol bytes = .ok (i, rest)) :
    WordsOf (.protocol bytes) i rest := by
  cases bytes with
  | nil => cases h
  | cons c bytes =>
    rw [decodeProtocol] at h
    split_ifs at h with hesc hselect htransfer hprint hfeed hzero
    · subst hesc; exact decodeEsc_ok h
    · subst hselect; obtain ⟨mode, rfl, rfl⟩ := decodeParam_ok h; exact ⟨rfl, rfl⟩
    · subst htransfer
      obtain ⟨payload, rfl, hl, rfl⟩ := decodeTransfer_ok h
      exact ⟨(wf_rasterTransfer_iff payload).mpr hl, rfl⟩
    · subst hprint; cases h; exact ⟨rfl, rfl⟩
    · subst hfeed; cases h; exact ⟨rfl, rfl⟩
    · subst hzero; obtain ⟨rfl, rfl⟩ := decodeInvalidate_ok h; exact ⟨rfl, rfl⟩

/-! ## Command words -/

theorem decodeCommand_encode {i : Instr} {v : Word} (he : encode i = .cmd v) : decodeCommand v = .ok i := by
  cases i with
  | stdec | rast | comp => cases he; rfl
  | _ => cases he

theorem decodeCommand_ok {v : Word} {i : Instr} (h : decodeCommand v = .ok i) (rest : List Byte) :
    WordsOf (.cmd v) i rest := by
  rw [decodeCommand] at h
  split_ifs at h with hstdec hrast hcomp
  · subst hstdec; cases h; exact ⟨rfl, rfl⟩
  · subst hrast; cases h; exact ⟨rfl, rfl⟩
  · subst hcomp; cases h; exact ⟨rfl, rfl⟩

/-- Three values are commands (R62), and no other (R63). -/
theorem decodeCommand_illegal {v : Word} (h1 : v ≠ 0x01) (h2 : v ≠ 0x02) (h3 : v ≠ 0x03) :
    decodeCommand v = .error (.illegalCommand v) := by
  rw [decodeCommand, if_neg h1, if_neg h2, if_neg h3]

/-- What `decode` answers on a command word. -/
theorem decode_cmd_eq_ok_iff {v : Word} {i : Instr} {rest : List Byte} :
    decode (.cmd v) = .ok (i, rest) ↔ decodeCommand v = .ok i ∧ rest = [] := by
  rw [decode]
  cases decodeCommand v <;> simp [eq_comm]

/-! ## Steps that run a decoded instruction -/

/-- A command written to a block that is not faulted runs (R160). -/
theorem runCommand_runs {s : State} {v : Word} {i : Instr} (hf : s.faulted = false) (h : decodeCommand v = .ok i) :
    runCommand s v = exec i s := by
  rw [runCommand, unlessFaulted_ready hf, h]

/-- A value that is no command faults a block that is not faulted (R63, R160). -/
theorem runCommand_illegal {s : State} {v : Word} {e : DecodeError} (hf : s.faulted = false)
    (h : decodeCommand v = .error e) : runCommand s v = .next (raise .illegalCmd s) := by
  rw [runCommand, unlessFaulted_ready hf, h]

/-- A record given to the reader runs, and the bytes after it are put back (R137). -/
theorem runAction_expand {bytes more : List Byte} {i : Instr} (h : decodeStream bytes = .ok (i, more)) (s : State) :
    runAction s (.expand bytes) = exec i (requeue s .expand more) := by
  have hne : bytes ≠ [] := by rintro rfl; cases h
  rw [runAction, if_neg hne, readerStep, h]

/-- A command given to the encoder runs, and the bytes after it are put back (R175). -/
theorem runAction_emit {bytes more : List Byte} {i : Instr} (h : decodeProtocol bytes = .ok (i, more)) (s : State) :
    runAction s (.emit bytes) = exec i (requeue s .emit more) := by
  have hne : bytes ≠ [] := by rintro rfl; cases h
  rw [runAction, if_neg hne, encoderStep, h]

/-- The bytes after an instruction are the host's next action. -/
theorem requeue_takeAction (s : State) (rest : List HostAction) (again : List Byte → HostAction) (more : List Byte) :
    requeue (takeAction s rest) again more =
      { s with host := if more = [] then rest else again more :: rest, response := .nothing } := by
  rw [requeue]
  split <;> rfl

/-! ## The reader -/

theorem readerTakes_wf {i : Instr} (h : i.wf = true) (s : State) (r : Record) :
    readerTakes s i r = .next (appendExpanded s (recordBytes r)) :=
  if_pos h

theorem readerTakes_not_wf {i : Instr} (h : ¬ i.wf = true) (s : State) (r : Record) :
    readerTakes s i r = .refused .unreadableRecord :=
  if_neg h

/-! ## The status decoder -/

/-- A byte of the record in STREC. -/
theorem recordByte_eq {m : Mem} {record : List Byte} (h : memRead m 0 Config.statusLen = some record) {k : Nat}
    (hk : k < Config.statusLen) : recordByte record k = (memByte m k).getD 0 := by
  rw [recordByte, List.getD_eq_getElem?_getD, getElem?_of_memRead h hk, Nat.zero_add]

/-- STDEC reads five bytes of a record (R75, R91). -/
theorem decodeStatus_congr {record record' : List Byte}
    (h : ∀ k ∈ [4, 8, 9, 10, 11], recordByte record k = recordByte record' k) :
    decodeStatus record = decodeStatus record' := by
  have hmodel : recordByte record Config.offModel = recordByte record' Config.offModel := h 4 (by decide)
  have herr1 : recordByte record Config.offErr1 = recordByte record' Config.offErr1 := h 8 (by decide)
  have herr2 : recordByte record Config.offErr2 = recordByte record' Config.offErr2 := h 9 (by decide)
  have hwidth : recordByte record Config.offMediaW = recordByte record' Config.offMediaW := h 10 (by decide)
  have htype : recordByte record Config.offMediaT = recordByte record' Config.offMediaT := h 11 (by decide)
  rw [decodeStatus, decodeStatus, hmodel, herr1, herr2, hwidth, htype]

/-- What STDEC leaves in the ST registers of a block that is not faulted. -/
theorem exec_stdec_st {s t : State} (hf : s.faulted = false) (h : exec .stdec s = .next t) :
    ∃ record, memRead s.mem.strec 0 Config.statusLen = some record ∧ t.st = decodeStatus record := by
  rcases execStdec_next h with ⟨hfaulted, -⟩ | ⟨-, record, hread, rfl⟩
  · rw [hf] at hfaulted
    cases hfaulted
  · exact ⟨record, hread, rfl⟩

/-! ## The Tape Geometry Table -/

/-- A row that is found is a row of the table that passes the test. -/
theorem findRow_some {test : GeometryRow → Bool} {rows : List GeometryRow} {g : Geometry}
    (h : findRow test rows = some g) : ∃ r ∈ rows, test r = true ∧ r.geometry = g := by
  induction rows with
  | nil => cases h
  | cons r rows ih =>
    rw [findRow] at h
    split_ifs at h with htest
    · cases h
      exact ⟨r, List.mem_cons_self, htest, rfl⟩
    · obtain ⟨r', hmem, htest', hg⟩ := ih h
      exact ⟨r', List.mem_cons_of_mem r hmem, htest', hg⟩

theorem lookupGeometry_some {widthClass dpi : Nat} {g : Geometry} (h : lookupGeometry widthClass dpi = some g) :
    ∃ r ∈ geometryRows, r.widthClass = widthClass ∧ r.dpi = dpi ∧ r.geometry = g := by
  obtain ⟨r, hmem, htest, hg⟩ := findRow_some h
  rw [Bool.and_eq_true, decide_eq_true_eq, decide_eq_true_eq] at htest
  exact ⟨r, hmem, htest.1, htest.2, hg⟩

/-- The largest class bounds the class of every row. -/
theorem widthClass_le_largestClass {r : GeometryRow} {rows : List GeometryRow} (h : r ∈ rows) :
    r.widthClass ≤ largestClass rows := by
  induction rows with
  | nil => cases h
  | cons r' rows ih =>
    rw [largestClass]
    rcases List.mem_cons.mp h with rfl | hmem
    · exact Nat.le_max_left ..
    · exact (ih hmem).trans (Nat.le_max_right ..)

/-- What every row of the table keeps (R66, R171, R174): it is valid, supported, and of a class the table has. -/
theorem mem_geometryRows {r : GeometryRow} (h : r ∈ geometryRows) :
    rowValid r = true ∧ rowSupported r = true ∧ r.widthClass ≤ largestTapeClass := by
  rcases List.mem_cons.mp h with rfl | hmem
  · exact ⟨by decide, rfl, widthClass_le_largestClass List.mem_cons_self⟩
  · obtain ⟨hfurther, hrow⟩ := List.mem_filter.mp hmem
    obtain ⟨hvalid, hsupported⟩ := Bool.and_eq_true_iff.mp hrow
    have hclass : r ∈ Config.knownRow :: Config.furtherRows.filter rowValid :=
      List.mem_cons_of_mem _ (List.mem_filter.mpr ⟨hfurther, hvalid⟩)
    exact ⟨hvalid, hsupported, widthClass_le_largestClass hclass⟩

theorem rowValid_iff (r : GeometryRow) :
    rowValid r = true ↔ r.geometry.printableDots.toNat ≤ r.geometry.widthDots.toNat ∧
      r.geometry.rightMarginPins.toNat + r.geometry.printableDots.toNat ≤ r.geometry.totalPins.toNat ∧
      r.geometry.totalPins.toNat % 8 = 0 := by
  simp only [rowValid, Bool.and_eq_true, decide_eq_true_eq, and_assoc]

/-- The largest tape class is not supported at the lower resolution (R171). -/
theorem lookupGeometry_largest : lookupGeometry largestTapeClass 180 = none := by
  rw [Option.eq_none_iff_forall_ne_some]
  intro g hg
  obtain ⟨r, hmem, hclass, hdpi, -⟩ := lookupGeometry_some hg
  obtain ⟨-, hsupported, -⟩ := mem_geometryRows hmem
  have hlower : r.dpi = Config.lowerDpi := hdpi
  rw [rowSupported, hclass, hlower] at hsupported
  simp at hsupported

/-- The row that the source gives is found (R174). -/
theorem lookupGeometry_known : lookupGeometry 12 360 = some ⟨12, 170, 150, 560, 213⟩ := rfl

theorem loadGeometry_found {widthClass dpi : Nat} {g : Geometry} (h : lookupGeometry widthClass dpi = some g)
    (s : State) : loadGeometry s widthClass dpi = .next { s with geo := g } := by
  rw [loadGeometry, h]

theorem loadGeometry_notFound {widthClass dpi : Nat} (h : lookupGeometry widthClass dpi = none) (s : State) :
    loadGeometry s widthClass dpi = .next (respond s .notSupported) := by
  rw [loadGeometry, h]

/-! ## The statements -/

/-- Settles O4, space by space. -/
theorem decodeOfEncodeIsIdentity : Obligations.DecodeOfEncodeIsIdentity := by
  intro i more hw
  cases he : encode i with
  | cmd v => exact decode_cmd_eq_ok_iff.mpr ⟨decodeCommand_encode he, rfl⟩
  | stream bytes => exact decodeStream_encode hw he more
  | protocol bytes => exact decodeProtocol_encode hw he more

/-- Settles O5: every decoder answers a reading of its words. -/
theorem decodedWordsReencode : Obligations.DecodedWordsReencode := by
  intro words i rest h
  cases words with
  | cmd v => exact decodeCommand_ok (decode_cmd_eq_ok_iff.mp h).1 rest
  | stream bytes => exact decodeStream_ok h
  | protocol bytes => exact decodeProtocol_ok h

/-- Settles O3. -/
theorem controlBytesRoundTrip : Obligations.ControlBytesRoundTrip :=
  ⟨fun _ hlo hhi => toNat_runControl hlo hhi, fun _ _ hhi => toNat_litControl hhi,
    fun _ v rest hc => readRecord_run hc v rest, fun _ _ rest hc hlen => readRecord_lit hc hlen rest⟩

/-- Settles O20: equal bytes of STREC are equal bytes of the two records, and no other byte enters the result. -/
theorem stdecDependsOnFiveOffsets : Obligations.StdecDependsOnFiveOffsets := by
  intro s s' t t' hf hf' h h' heq
  obtain ⟨record, hread, hst⟩ := exec_stdec_st hf h
  obtain ⟨record', hread', hst'⟩ := exec_stdec_st hf' h'
  have hinside : ∀ k ∈ [4, 8, 9, 10, 11], k < Config.statusLen := by decide
  have hbytes : ∀ k ∈ [4, 8, 9, 10, 11], recordByte record k = recordByte record' k := fun k hk => by
    rw [recordByte_eq hread (hinside k hk), recordByte_eq hread' (hinside k hk), heq k hk]
  rw [hst, hst', decodeStatus_congr hbytes]

/-- Settles O56, from what every row of the table keeps. -/
theorem geometryTableIsValid : Obligations.GeometryTableIsValid := by
  refine ⟨fun s rest hs => ?known, fun widthClass dpi g hg => ?valid, fun s rest hs => ?largest⟩
  case known => exact (step_cons hs).trans (loadGeometry_found lookupGeometry_known _)
  case valid =>
    obtain ⟨r, hmem, rfl, -, rfl⟩ := lookupGeometry_some hg
    obtain ⟨hvalid, -, hclass⟩ := mem_geometryRows hmem
    obtain ⟨hwidth, hpins, hmultiple⟩ := (rowValid_iff r).mp hvalid
    exact ⟨hwidth, hpins, hmultiple, hclass⟩
  case largest => exact (step_cons hs).trans (loadGeometry_notFound lookupGeometry_largest _)

/-- Settles O1. -/
theorem commandCodesDecode : Obligations.CommandCodesDecode := by
  intro v
  refine ⟨?stdec, ?rast, ?comp, fun h1 h2 h3 => ?other⟩
  case stdec => rintro rfl; rfl
  case rast => rintro rfl; rfl
  case comp => rintro rfl; rfl
  case other =>
    have hillegal := decodeCommand_illegal h1 h2 h3
    exact ⟨by rw [decode, hillegal], fun s hf => runCommand_illegal hf hillegal⟩

/-- Settles O2: each clause is the encoding of an instruction, decoded (O4), but for the number of the opcode table. -/
theorem wordsOfTheSpecDecode : Obligations.WordsOfTheSpecDecode :=
  ⟨decodeOfEncodeIsIdentity .comp [] rfl, decodeOfEncodeIsIdentity (.run 70 0x00) [] rfl,
    decodeOfEncodeIsIdentity (.lit [0x42]) [] rfl, decodeOfEncodeIsIdentity .initPrinter [] rfl,
    decodeOfEncodeIsIdentity (.modeSwitch 0x01) [] rfl, decodeOfEncodeIsIdentity (.margin 270) [] rfl,
    decodeOfEncodeIsIdentity .print [] rfl, by decide⟩

/-- Settles O12, by the action that presents the words to the decoder of their space. -/
theorem stepRunsDecodedInstruction : Obligations.StepRunsDecodedInstruction := by
  refine ⟨fun s v rest i hs hf h => ?command, fun s bytes rest i more hs h => ?record,
    fun s bytes rest i more hs h => ?protocol⟩
  case command => exact (step_cons hs).trans (runCommand_runs hf (decode_cmd_eq_ok_iff.mp h).1)
  case record => rw [step_cons hs, runAction_expand h, requeue_takeAction]
  case protocol => rw [step_cons hs, runAction_emit h, requeue_takeAction]

/-- Settles O40. -/
theorem readerAppendsTheRecord : Obligations.ReaderAppendsTheRecord :=
  ⟨fun s len v hlo hhi => readerTakes_wf ((wf_run_iff len v).mpr ⟨hlo, hhi⟩) s _,
    fun s data hlo hhi => readerTakes_wf ((wf_lit_iff data).mpr ⟨hlo, hhi⟩) s _⟩

/-- Settles O41: the lengths are those of no well-formed record. -/
theorem readerRefusesOtherLengths : Obligations.ReaderRefusesOtherLengths := by
  refine ⟨fun s len v hlen => readerTakes_not_wf ?run s _, fun s data hlen => readerTakes_not_wf ?lit s _⟩
  case run => rw [wf_run_iff]; omega
  case lit => rw [wf_lit_iff]; omega

end Sys2Proof.Machine
end


section
/-! # The family of the status decoder: what STDEC writes, the error flag and the error kinds

STDEC of a block that is not faulted has an equation for each of its two outcomes. An error byte is nonzero exactly when
one of its eight bits is set, and the statements about ST_HASERR and the error kinds speak of those bits. -/

namespace Sys2Proof.Machine

/-! ## The bits of an error byte -/

/-- A byte is nonzero exactly when one of its eight bits is set. -/
theorem byte_ne_zero_iff (e : Byte) : e ≠ 0 ↔ ∃ k, k < 8 ∧ e.getLsbD k = true := by
  constructor
  · intro hne
    by_contra hclear
    refine hne (BitVec.eq_of_getLsbD_eq fun k hk => ?_)
    have hbit : e.getLsbD k ≠ true := fun hset => hclear ⟨k, hk, hset⟩
    rw [Bool.eq_false_of_not_eq_true hbit]
    exact BitVec.getLsbD_zero.symm
  · rintro ⟨k, -, hset⟩ rfl
    exact Bool.noConfusion (BitVec.getLsbD_zero.symm.trans hset)

/-- `has_errors` by the two bytes (R92). -/
theorem hasErrors_iff (err1 err2 : Byte) : hasErrors err1 err2 = true ↔ err1 ≠ 0 ∨ err2 ≠ 0 := by
  rw [hasErrors, Bool.or_eq_true, bne_iff_ne, bne_iff_ne]

/-- `has_errors` by the sixteen bits (R92). -/
theorem hasErrors_iff_exists_bit (err1 err2 : Byte) :
    hasErrors err1 err2 = true ↔ ∃ k, k < 8 ∧ (err1.getLsbD k = true ∨ err2.getLsbD k = true) := by
  rw [hasErrors_iff, byte_ne_zero_iff, byte_ne_zero_iff, ← exists_or]
  simp only [and_or_left]

/-! ## The error kinds -/

/-- The kinds of one byte, from any bit upward: that of each set bit (R98). -/
theorem mem_kindsOfByte_iff (e : Byte) (kind : ErrKind) (kinds : List ErrKind) (bit : Nat) :
    kind ∈ kindsOfByte e bit kinds ↔ ∃ k, e.getLsbD (bit + k) = true ∧ kinds[k]? = some kind := by
  induction kinds generalizing bit with
  | nil => simp [kindsOfByte]
  | cons first kinds ih =>
    have hsplit : (∃ k, e.getLsbD (bit + k) = true ∧ (first :: kinds)[k]? = some kind) ↔
        (e.getLsbD bit = true ∧ first = kind) ∨ kind ∈ kindsOfByte e (bit + 1) kinds := by
      rw [ih, ← Nat.or_exists_add_one]
      simp only [Nat.add_zero, List.getElem?_cons_zero, List.getElem?_cons_succ, Option.some.injEq,
        Nat.add_assoc, Nat.add_comm 1]
    rw [hsplit, kindsOfByte]
    split
    case isTrue hset => simp [hset, eq_comm]
    case isFalse hclear => simp [hclear]

/-- The kinds of one byte under a table of eight (R98). -/
theorem mem_kindsOfByte_zero_iff (e : Byte) (kind : ErrKind) {kinds : List ErrKind} (hlen : kinds.length = 8) :
    kind ∈ kindsOfByte e 0 kinds ↔ ∃ k, k < 8 ∧ e.getLsbD k = true ∧ kinds[k]? = some kind := by
  simp only [mem_kindsOfByte_iff, Nat.zero_add]
  refine exists_congr fun k => ⟨fun ⟨hset, hkind⟩ => ⟨?_, hset, hkind⟩, fun ⟨_, h⟩ => h⟩
  obtain ⟨hk, -⟩ := List.getElem?_eq_some_iff.mp hkind
  omega

section
variable {kinds1 kinds2 : List ErrKind} (err1 err2 : Byte)

/-- The error kinds are those of the set bits of both bytes (R98). -/
theorem mem_errorKinds_iff (hlen1 : kinds1.length = 8) (hlen2 : kinds2.length = 8) (kind : ErrKind) :
    kind ∈ errorKinds (kinds1, kinds2) err1 err2 ↔
      ∃ k, k < 8 ∧ ((err1.getLsbD k = true ∧ kinds1[k]? = some kind) ∨
        (err2.getLsbD k = true ∧ kinds2[k]? = some kind)) := by
  rw [errorKinds, List.mem_append, mem_kindsOfByte_zero_iff err1 kind hlen1, mem_kindsOfByte_zero_iff err2 kind hlen2,
    ← exists_or]
  simp only [and_or_left]

/-- A table of eight has a kind for every bit, so there is a kind exactly when a bit is set (R98). -/
theorem errorKinds_ne_nil_iff (hlen1 : kinds1.length = 8) (hlen2 : kinds2.length = 8) :
    errorKinds (kinds1, kinds2) err1 err2 ≠ [] ↔
      ∃ k, k < 8 ∧ (err1.getLsbD k = true ∨ err2.getLsbD k = true) := by
  have hmem := mem_errorKinds_iff err1 err2 hlen1 hlen2
  constructor
  · intro hne
    obtain ⟨kind, hkind⟩ := List.exists_mem_of_ne_nil _ hne
    obtain ⟨k, hk, hset⟩ := (hmem kind).mp hkind
    exact ⟨k, hk, hset.imp And.left And.left⟩
  · rintro ⟨k, hk, hset | hset⟩
    · exact List.ne_nil_of_mem ((hmem kinds1[k]).mpr ⟨k, hk, .inl ⟨hset, List.getElem?_eq_getElem _⟩⟩)
    · exact List.ne_nil_of_mem ((hmem kinds2[k]).mpr ⟨k, hk, .inr ⟨hset, List.getElem?_eq_getElem _⟩⟩)

end

/-! ## STDEC of a block that is not faulted -/

section
variable {s : State}

/-- STDEC with all of STREC written (R90). -/
theorem exec_stdec_decodes {record : List Byte} (hf : s.faulted = false)
    (h : memRead s.mem.strec 0 Config.statusLen = some record) :
    exec .stdec s = .next { s with st := decodeStatus record } := by
  change execStdec s = _
  rw [execStdec, unlessFaulted_ready hf, h]

/-- STDEC with a byte of STREC unwritten (R53, R90). -/
theorem exec_stdec_unwritten (hf : s.faulted = false) (h : memRead s.mem.strec 0 Config.statusLen = none) :
    exec .stdec s = .refused .statusRecordUnwritten := by
  change execStdec s = _
  rw [execStdec, unlessFaulted_ready hf, h]

end

/-- The registers that STDEC writes, by their offsets in the record (R90, R92, R93). -/
theorem decodeStatus_eq (record : List Byte) :
    decodeStatus record =
      { valid := true
        model := record.getD 4 0
        err1 := record.getD 8 0
        err2 := record.getD 9 0
        mediaW := record.getD 10 0
        mediaT := record.getD 11 0
        hasErr := decide (record.getD 8 0 ≠ 0 ∨ record.getD 9 0 ≠ 0)
        dpi := if record.getD 4 0 = 0x5A then 180 else 360 } := by
  have herr : hasErrors (record.getD 8 0) (record.getD 9 0) = decide (record.getD 8 0 ≠ 0 ∨ record.getD 9 0 ≠ 0) :=
    Bool.eq_iff_iff.mpr ((hasErrors_iff _ _).trans decide_eq_true_iff.symm)
  rw [← herr, ← printerDpi_eq]
  rfl

/-- A byte of a record that was read is the byte written in STREC. -/
theorem memByte_eq_some_recordByte {m : Mem} {record : List Byte} (h : memRead m 0 Config.statusLen = some record)
    {k : Nat} (hk : k < Config.statusLen) : memByte m k = some (recordByte record k) := by
  have hlen : k < record.length := by rwa [length_of_memRead h]
  have hbyte := getElem?_of_memRead h hk
  rw [Nat.zero_add] at hbyte
  rw [recordByte, List.getD_eq_getElem _ _ hlen, ← hbyte, List.getElem?_eq_getElem hlen]

/-! ## The statements -/

/-- Settles O19, by the two outcomes of STDEC. -/
theorem stdecDecodesTheRecord : Obligations.StdecDecodesTheRecord := by
  refine ⟨fun s record hf hread => ?written, fun s k hf hk hnone => ?unwritten⟩
  case written => rw [exec_stdec_decodes hf hread, decodeStatus_eq]
  case unwritten =>
    have hinside : k < 0 + Config.statusLen := by rwa [Nat.zero_add]
    exact exec_stdec_unwritten hf (memRead_eq_none_of_unwritten (Nat.zero_le k) hinside hnone)

/-- Settles O21: ST_HASERR is `has_errors` of the bytes at offsets 8 and 9 of STREC. -/
theorem hasErrorExactlyWhenABitIsSet : Obligations.HasErrorExactlyWhenABitIsSet := by
  intro s t hf h
  obtain ⟨record, hread, hst⟩ := exec_stdec_st hf h
  have hflag : t.st.hasErr = hasErrors (recordByte record 8) (recordByte record 9) := congrArg StatusRegs.hasErr hst
  rw [hflag]
  exact ⟨_, _, memByte_eq_some_recordByte hread (by decide), memByte_eq_some_recordByte hread (by decide),
    hasErrors_iff _ _, hasErrors_iff_exists_bit _ _⟩

/-- Settles O22: a table of eight kinds for each byte gives every set bit a kind. -/
theorem errorKindsAreThoseOfTheSetBits : Obligations.ErrorKindsAreThoseOfTheSetBits := by
  intro kinds1 kinds2 err1 err2 hlen1 hlen2
  exact ⟨mem_errorKinds_iff err1 err2 hlen1 hlen2,
    (hasErrors_iff_exists_bit err1 err2).trans (errorKinds_ne_nil_iff err1 err2 hlen1 hlen2).symm⟩

end Sys2Proof.Machine
end

section
/-! # The family of the rasterizer: gray values, pins, and what RAST stores

RAST of a block that is not faulted has an equation for each outcome of its checks. What a raster line holds is said
once, pin by pin (`pinSet_rasterLine_iff`), and what LINE holds, line by line (`memRead_storeLines`). -/

namespace Sys2Proof.Machine

/-! ## Gray values -/

theorem grayRgb_same (v : Nat) : grayRgb v v v = v := by
  unfold grayRgb
  omega

/-- The channel mean lies between the smallest and the largest channel (R108). -/
theorem grayRgb_between (r g b : Nat) : min r (min g b) ≤ grayRgb r g b ∧ grayRgb r g b ≤ max r (max g b) := by
  unfold grayRgb
  omega

@[simp] theorem composite_opaque (c : Nat) : composite c 255 = c := by
  rw [composite, Nat.sub_self, Nat.mul_zero, Nat.add_zero, Nat.mul_div_cancel _ (by decide)]

@[simp] theorem composite_transparent (c : Nat) : composite c 0 = 255 := by
  rw [composite, Nat.mul_zero]

theorem composite_black (a : Nat) : composite 0 a = 255 - a := by
  rw [composite, Nat.zero_mul, Nat.zero_add, Nat.mul_div_cancel_left _ (by decide)]

/-- Compositing over white never darkens a channel, and white is the most it gives (R109). -/
theorem composite_between {c a : Nat} (hc : c ≤ 255) (ha : a ≤ 255) : c ≤ composite c a ∧ composite c a ≤ 255 := by
  have hsplit : ∀ v, v * a + v * (255 - a) = v * 255 := fun v => by rw [← Nat.mul_add, Nat.add_sub_cancel' ha]
  constructor
  · rw [composite, Nat.le_div_iff_mul_le (by decide), ← hsplit c]
    exact Nat.add_le_add_left (Nat.mul_le_mul_right _ hc) _
  · apply Nat.div_le_of_le_mul
    rw [← hsplit 255]
    exact Nat.add_le_add_right (Nat.mul_le_mul_right _ hc) _

/-- White over white stays white at any alpha (R119). -/
theorem composite_white {a : Nat} (ha : a ≤ 255) : composite 255 a = 255 :=
  have ⟨hlo, hhi⟩ := composite_between (Nat.le_refl 255) ha
  Nat.le_antisymm hhi hlo

/-- A pixel is printed exactly when it has a gray value below 127 (R110). -/
theorem printed_iff (f : PixelFormat) (pixel : List Byte) :
    printed f pixel = true ↔ ∃ v, gray f pixel = some v ∧ v < 127 := by
  unfold printed
  cases gray f pixel with
  | none => simp
  | some v =>
    simp only [Option.some.injEq, exists_eq_left']
    exact decide_eq_true_iff

/-- Black of alpha `a` over white is `255 - a` (R122). -/
theorem gray_rgba8_black (a : Byte) : gray .rgba8 [0, 0, 0, a] = some (255 - a.toNat) := by
  change some (grayRgb (composite 0 a.toNat) (composite 0 a.toNat) (composite 0 a.toNat)) = _
  rw [composite_black, grayRgb_same]

/-- A transparent pixel is white whatever its color (R109, R119). -/
theorem gray_rgba8_transparent (r g b : Byte) : gray .rgba8 [r, g, b, 0] = some 255 := by
  change some (grayRgb (composite r.toNat 0) (composite g.toNat 0) (composite b.toNat 0)) = _
  simp only [composite_transparent, grayRgb_same]

/-- A white pixel has gray 255 in every format (R119). -/
theorem gray_of_whitePixel {f : PixelFormat} {p : List Byte} (h : whitePixel f p = true) : gray f p = some 255 := by
  unfold whitePixel at h
  split at h
  case h_1 g =>
    obtain rfl := eq_of_beq h
    rfl
  case h_2 r g b =>
    simp only [Bool.and_eq_true, beq_iff_eq] at h
    obtain ⟨⟨rfl, rfl⟩, rfl⟩ := h
    rfl
  case h_3 r g b a =>
    simp only [Bool.or_eq_true, Bool.and_eq_true, beq_iff_eq] at h
    rcases h with ⟨⟨rfl, rfl⟩, rfl⟩ | rfl
    · have hwhite : composite 255 a.toNat = 255 := composite_white (by have := a.isLt; omega)
      change some (grayRgb (composite 255 a.toNat) (composite 255 a.toNat) (composite 255 a.toNat)) = _
      rw [hwhite, grayRgb_same]
    · exact gray_rgba8_transparent r g b
  case h_4 => exact absurd h Bool.false_ne_true

/-- A black opaque pixel has gray 0 in every format (R119). -/
theorem gray_of_blackPixel {f : PixelFormat} {p : List Byte} (h : blackPixel f p = true) : gray f p = some 0 := by
  unfold blackPixel at h
  split at h
  case h_1 g =>
    obtain rfl := eq_of_beq h
    rfl
  case h_2 r g b =>
    simp only [Bool.and_eq_true, beq_iff_eq] at h
    obtain ⟨⟨rfl, rfl⟩, rfl⟩ := h
    rfl
  case h_3 r g b a =>
    simp only [Bool.and_eq_true, beq_iff_eq] at h
    obtain ⟨⟨⟨rfl, rfl⟩, rfl⟩, rfl⟩ := h
    exact gray_rgba8_black 255
  case h_4 => exact absurd h Bool.false_ne_true

/-! ## The row margin -/

/-- The band is centred, the odd dot below it, and does not leave the image (R112). -/
theorem rowMargin_centres {wd pd : Nat} (h : pd ≤ wd) :
    rowMargin wd pd + pd ≤ wd ∧ rowMargin wd pd ≤ wd - pd - rowMargin wd pd ∧
      wd - pd - rowMargin wd pd ≤ rowMargin wd pd + 1 := by
  unfold rowMargin
  omega

/-! ## The checks of RAST, one after another -/

/-- IMG_FMT 3 and above name no format (R65). -/
theorem pixelFormat_reserved {fmt : Word} (h : 3 ≤ fmt.toNat) : pixelFormat fmt = none := by
  have hne : ∀ n : Word, n.toNat < 3 → fmt ≠ n := by
    rintro n hn rfl
    omega
  rw [pixelFormat, if_neg (hne 0 (by decide)), if_neg (hne 1 (by decide)), if_neg (hne 2 (by decide))]

/-- IMG_FMT 0 to 2 name the formats of 1, 3 and 4 bytes per pixel (R64). -/
theorem pixelFormat_legal {fmt : Word} (h : fmt.toNat < 3) :
    ∃ f, pixelFormat fmt = some f ∧ f.bpp = [1, 3, 4].getD fmt.toNat 0 := by
  have hfmt : fmt = 0 ∨ fmt = 1 ∨ fmt = 2 := by bv_omega
  rcases hfmt with rfl | rfl | rfl
  · exact ⟨.gray8, rfl, rfl⟩
  · exact ⟨.rgb8, rfl, rfl⟩
  · exact ⟨.rgba8, rfl, rfl⟩

theorem geometryValid_iff (g : Geometry) :
    geometryValid g = true ↔ g.printableDots.toNat ≤ g.widthDots.toNat ∧
      g.rightMarginPins.toNat + g.printableDots.toNat ≤ g.totalPins.toNat ∧ g.totalPins.toNat % 8 = 0 := by
  simp only [geometryValid, Bool.and_eq_true, decide_eq_true_iff, and_assoc]

theorem rastCheck_reserved {p : Params} {g : Geometry} {img : ImageRegs} (h : pixelFormat img.fmt = none) :
    rastCheck p g img = .error .badFormat := by
  simp only [rastCheck, h]

/-- The checks that follow that of the format (R106). -/
theorem rastCheck_legal {p : Params} {g : Geometry} {img : ImageRegs} {f : PixelFormat}
    (h : pixelFormat img.fmt = some f) :
    rastCheck p g img =
      if geometryValid g = false then .error .badGeometry
      else if img.height ≠ g.widthDots then .error .geometryMismatch
      else if imageBytes img f > p.pixSize ∨ img.width.toNat * lineBytes g > p.lineSize then .error .capacity
      else .ok f := by
  simp only [rastCheck, h]

/-- Every check of RAST passes. -/
theorem rastCheck_passes {p : Params} {g : Geometry} {img : ImageRegs} {f : PixelFormat}
    (hfmt : pixelFormat img.fmt = some f) (hgeo : geometryValid g = true) (hheight : img.height = g.widthDots)
    (hpix : imageBytes img f ≤ p.pixSize) (hline : img.width.toNat * lineBytes g ≤ p.lineSize) :
    rastCheck p g img = .ok f := by
  rw [rastCheck_legal hfmt, if_neg (ne_false_of_eq_true hgeo), if_neg (not_not_intro hheight),
    if_neg (by omega)]

/-- A row of the band is a row of the image (R106, R112). -/
theorem bandRow_lt_height {p : Params} {g : Geometry} {img : ImageRegs} {f : PixelFormat}
    (h : rastCheck p g img = .ok f) {k : Nat} (hk : k < g.printableDots.toNat) :
    rowMargin g.widthDots.toNat g.printableDots.toNat + k < img.height.toNat := by
  obtain ⟨-, hgeo, hheight, -, -⟩ := rastCheck_ok h
  obtain ⟨hband, -, -⟩ := (geometryValid_iff g).mp hgeo
  obtain ⟨hinside, -, -⟩ := rowMargin_centres hband
  rw [hheight]
  omega

/-! ## RAST of a block that is not faulted -/

section
variable {s t : State}

/-- RAST with a check failing (R106, R213). -/
theorem exec_rast_faults {c : FaultCode} (hf : s.faulted = false)
    (hc : rastCheck s.params s.geo s.img = .error c) : exec .rast s = .next (raise c s) := by
  change execRast s = _
  rw [execRast, unlessFaulted_ready hf, hc]

/-- RAST with every check passing and the image written (R105). -/
theorem exec_rast_completes {f : PixelFormat} {image : List Byte} (hf : s.faulted = false)
    (hc : rastCheck s.params s.geo s.img = .ok f) (hi : memRead s.mem.pix 0 (imageBytes s.img f) = some image) :
    exec .rast s = .next (rastDone s f image) := by
  change execRast s = _
  rw [execRast, unlessFaulted_ready hf, hc]
  simp only [hi]

/-- A RAST that leaves the block not faulted has completed. -/
theorem exec_rast_completed (h : exec .rast s = .next t) (hf : s.faulted = false) (ht : t.faulted = false) :
    ∃ f image, rastCheck s.params s.geo s.img = .ok f ∧ memRead s.mem.pix 0 (imageBytes s.img f) = some image ∧
      t = rastDone s f image := by
  rcases execRast_next h with ⟨hs, -⟩ | ⟨-, c, -, rfl⟩ | ⟨-, done⟩
  · exact absurd hf (ne_false_of_eq_true hs)
  · cases ht
  · exact done

end

/-! ## The lines in LINE -/

/-- Line `x` stands at `LINE:x*LB` (R116). -/
theorem memRead_storeLines (g : Geometry) (f : PixelFormat) {w : Nat} (image : List Byte) (line : Mem) {x : Nat}
    (hx : x < w) :
    memRead (storeLines g f w image line) (x * lineBytes g) (lineBytes g) = some (rasterLine g f w image x) := by
  refine (memRead_eq_some_iff _ _ _ _).mpr ⟨length_rasterLine g f w image x, fun k hk => ?_⟩
  have hnext : x * lineBytes g + lineBytes g ≤ w * lineBytes g := Nat.succ_mul .. ▸ Nat.mul_le_mul_right _ hx
  have hdiv : (x * lineBytes g + k) / lineBytes g = x := by
    rw [Nat.mul_comm, Nat.mul_add_div (by omega), Nat.div_eq_of_lt hk, Nat.add_zero]
  have hmod : (x * lineBytes g + k) % lineBytes g = k := by
    rw [Nat.mul_comm, Nat.mul_add_mod, Nat.mod_eq_of_lt hk]
  rw [memByte_storeLines, if_pos (by omega), hdiv, hmod]

/-- Lines that stand one after another are the lines that are read. -/
theorem readLines_eq_some {m : Mem} {lb : Nat} (line : Nat → List Byte) : ∀ {n x : Nat},
    (∀ y, x ≤ y → y < x + n → memRead m (y * lb) lb = some (line y)) →
      readLines m lb x n = some ((List.range' x n).map line)
  | 0, _, _ => rfl
  | n + 1, x, h => by
    have hfirst := h x (Nat.le_refl x) (by omega)
    have hmore := readLines_eq_some line (n := n) (x := x + 1) fun y hlo hhi => h y (by omega) (by omega)
    simp only [readLines, hfirst, hmore, List.range'_succ, List.map_cons]

/-! ## The pins of a line -/

/-- The mask of a pin has that pin's bit and no other (R45). -/
theorem getLsbD_pinMask (n m : Nat) : (pinMask n).getLsbD (7 - m % 8) = decide (m % 8 = n % 8) := by
  have masks : ∀ i, i < 8 → ∀ j, j < 8 → ((0x80 : Byte) >>> i).getLsbD (7 - j) = decide (j = i) := by decide
  exact masks _ (Nat.mod_lt n (by decide)) _ (Nat.mod_lt m (by decide))

/-- A pin of a line by the byte it is in (R45). -/
theorem pinSet_iff (bytes : List Byte) (n : Nat) :
    pinSet bytes n = true ↔ ∃ b, bytes[n / 8]? = some b ∧ b.getLsbD (7 - n % 8) = true := by
  rw [← List.head?_drop, pinSet]
  cases bytes.drop (n / 8) <;> simp

theorem not_pinSet_zeros (size n : Nat) : ¬ pinSet (List.replicate size 0) n = true := by
  rw [pinSet_iff]
  rintro ⟨b, hb, hset⟩
  obtain rfl := List.eq_of_mem_replicate (List.mem_of_getElem? hb)
  exact Bool.false_ne_true (BitVec.getLsbD_zero.symm.trans hset)

/-- Setting a pin of a line sets that pin and no other (R114). -/
theorem pinSet_setPin_iff {line : List Byte} {n : Nat} (hn : n < 8 * line.length) (m : Nat) :
    pinSet (setPin line n) m = true ↔ pinSet line m = true ∨ m = n := by
  rw [pinSet_iff, pinSet_iff, setPin, List.getElem?_modify]
  by_cases hbyte : n / 8 = m / 8
  · have hpin : m % 8 = n % 8 ↔ m = n := by omega
    have hlen : m / 8 < line.length := by omega
    simp [hbyte, List.getElem?_eq_getElem hlen, getLsbD_pinMask, hpin]
  · have hne : m ≠ n := by
      rintro rfl
      exact hbyte rfl
    simp [hbyte, hne]

section
variable {g : Geometry} {f : PixelFormat} {w : Nat} {image : List Byte} {x : Nat}

/-- Row `k` of the band sets its own pin when its pixel is printed (R113, R114). -/
theorem pinSet_placePixel_iff {line : List Byte} {k : Nat} (hk : g.rightMarginPins.toNat + k < 8 * line.length)
    (n : Nat) :
    pinSet (placePixel g f w image x line k) n = true ↔ pinSet line n = true ∨
      n = g.rightMarginPins.toNat + k ∧
        printed f (pixelBytes f w image x (rowMargin g.widthDots.toNat g.printableDots.toNat + k)) = true := by
  unfold placePixel
  split
  case isTrue hp => simp only [pinSet_setPin_iff hk, hp, and_true]
  case isFalse hp => simp only [hp, Bool.false_eq_true, and_false, or_false]

/-- The rows placed so far set their own pins, those of the printed pixels (R114, R115). -/
theorem pinSet_foldl_placePixel_iff (n : Nat) : ∀ (rows : List Nat) (line : List Byte),
    (∀ k ∈ rows, g.rightMarginPins.toNat + k < 8 * line.length) →
      (pinSet (rows.foldl (placePixel g f w image x) line) n = true ↔ pinSet line n = true ∨
        ∃ k ∈ rows, n = g.rightMarginPins.toNat + k ∧
          printed f (pixelBytes f w image x (rowMargin g.widthDots.toNat g.printableDots.toNat + k)) = true) := by
  intro rows
  induction rows with
  | nil => simp
  | cons k rows ih =>
    intro line hrows
    rw [List.forall_mem_cons] at hrows
    obtain ⟨hk, hrows⟩ := hrows
    rw [List.foldl_cons, ih _ (by simpa only [length_placePixel] using hrows), pinSet_placePixel_iff hk, or_assoc,
      List.exists_mem_cons_iff]

/-- The pins of a raster line are those of the printed pixels of its column's band (R111 to R115). -/
theorem pinSet_rasterLine_iff (hg : geometryValid g = true) (n : Nat) :
    pinSet (rasterLine g f w image x) n = true ↔ ∃ k, k < g.printableDots.toNat ∧ n = g.rightMarginPins.toNat + k ∧
      printed f (pixelBytes f w image x (rowMargin g.widthDots.toNat g.printableDots.toNat + k)) = true := by
  obtain ⟨-, hpins, hbytes⟩ := (geometryValid_iff g).mp hg
  have hinside : ∀ k ∈ List.range g.printableDots.toNat,
      g.rightMarginPins.toNat + k < 8 * (List.replicate (lineBytes g) (0 : Byte)).length := by
    intro k hk
    rw [List.mem_range] at hk
    rw [List.length_replicate, lineBytes]
    omega
  rw [rasterLine, pinSet_foldl_placePixel_iff n _ _ hinside, or_iff_right (not_pinSet_zeros _ _)]
  simp only [List.mem_range]

end

/-- A byte all of whose pins are clear is zero. -/
theorem memByte_eq_zero_of_clear {m : Mem} {off lb i : Nat} (hi : i < lb)
    (h : ∀ n, n < 8 * lb → ∃ b, memByte m (off + n / 8) = some b ∧ ¬ b.getLsbD (7 - n % 8) = true) :
    memByte m (off + i) = some 0 := by
  have pin : ∀ j, j < 8 → ∃ b, memByte m (off + i) = some b ∧ ¬ b.getLsbD (7 - j) = true := by
    intro j hj
    have hpin := h (8 * i + j) (by omega)
    rwa [Nat.mul_add_div (by decide), Nat.div_eq_of_lt hj, Nat.add_zero, Nat.mul_add_mod, Nat.mod_eq_of_lt hj] at hpin
  obtain ⟨b, hb, -⟩ := pin 0 (by decide)
  have hzero : b = 0 := by
    by_contra hne
    obtain ⟨k, hk, hset⟩ := (byte_ne_zero_iff b).mp hne
    obtain ⟨b', hb', hclear⟩ := pin (7 - k) (by omega)
    obtain rfl : b = b' := Option.some.inj (hb.symm.trans hb')
    rw [Nat.sub_sub_self (by omega)] at hclear
    exact hclear hset
  rw [hb, hzero]

/-! ## The pixels of the image -/

/-- A part of what a read answers is what a read of that part answers. -/
theorem memRead_part {m : Mem} {off n : Nat} {bytes : List Byte} (h : memRead m off n = some bytes) {skip size : Nat}
    (hin : skip + size ≤ n) : memRead m (off + skip) size = some ((bytes.drop skip).take size) := by
  have hlen := length_of_memRead h
  refine (memRead_eq_some_iff _ _ _ _).mpr ⟨by rw [List.length_take, List.length_drop]; omega, fun k hk => ?_⟩
  rw [List.getElem?_take_of_lt hk, List.getElem?_drop, getElem?_of_memRead h (by omega), Nat.add_assoc]

/-- A pixel of an image that is written in full (R41). -/
theorem pixelAt_eq_pixelBytes {s : State} {f : PixelFormat} {image : List Byte}
    (h : memRead s.mem.pix 0 (imageBytes s.img f) = some image) {x y : Nat} (hx : x < s.img.width.toNat)
    (hy : y < s.img.height.toNat) : pixelAt s f x y = some (pixelBytes f s.img.width.toNat image x y) := by
  have hpixel : y * s.img.width.toNat + x + 1 ≤ s.img.width.toNat * s.img.height.toNat := by
    have hrow := Nat.mul_le_mul_left s.img.width.toNat (Nat.succ_le_of_lt hy)
    rw [Nat.mul_succ, Nat.mul_comm _ y] at hrow
    omega
  have hin : pixelOffset f s.img.width.toNat x y + f.bpp ≤ imageBytes s.img f := by
    rw [pixelOffset, imageBytes, ← Nat.succ_mul]
    exact Nat.mul_le_mul_right _ hpixel
  have hread := memRead_part h hin
  rwa [Nat.zero_add] at hread

/-! ## The pins that RAST prints -/

/-- A pin of line `x` in LINE is that pin of the raster line (R45, R116). -/
theorem memByte_pin_storeLines {g : Geometry} (hg : geometryValid g = true) (f : PixelFormat) {w : Nat}
    (image : List Byte) (line : Mem) {x n : Nat} (hx : x < w) (hn : n < g.totalPins.toNat) :
    ∃ b, memByte (storeLines g f w image line) (x * (g.totalPins.toNat / 8) + n / 8) = some b ∧
      (b.getLsbD (7 - n % 8) = true ↔ pinSet (rasterLine g f w image x) n = true) := by
  obtain ⟨-, -, hbytes⟩ := (geometryValid_iff g).mp hg
  have hlt : n / 8 < lineBytes g := by unfold lineBytes; omega
  have hbyte := getElem?_of_memRead (memRead_storeLines g f image line hx) hlt
  have hlen : n / 8 < (rasterLine g f w image x).length := by rwa [length_rasterLine]
  have hget := List.getElem?_eq_getElem hlen
  refine ⟨_, hbyte.symm.trans hget, ?_⟩
  rw [pinSet_iff, hget]
  simp only [Option.some.injEq, exists_eq_left']

/-! ## The statements -/

/-- Settles O26: the pins of a raster line are those of the printed pixels, and a pixel of the band stands in PIX. -/
theorem rastPrintsExactlyTheDarkPixels : Obligations.RastPrintsExactlyTheDarkPixels := by
  intro s t hs h ht
  obtain ⟨f, image, hc, hi, rfl⟩ := exec_rast_completed h hs ht
  obtain ⟨hfmt, hgeo, -, -, -⟩ := rastCheck_ok hc
  refine ⟨f, hfmt, fun x n hx hn => ?_⟩
  obtain ⟨b, hb, hpin⟩ := memByte_pin_storeLines hgeo f image s.mem.line hx hn
  refine ⟨b, hb, hpin.trans ((pinSet_rasterLine_iff hgeo n).trans ?_)⟩
  constructor
  · rintro ⟨k, hk, hn, hp⟩
    obtain ⟨v, hv, hdark⟩ := (printed_iff _ _).mp hp
    exact ⟨k, _, v, hk, hn, pixelAt_eq_pixelBytes hi hx (bandRow_lt_height hc hk), hv, hdark⟩
  · rintro ⟨k, p, v, hk, hn, hp, hv, hdark⟩
    obtain rfl := Option.some.inj (hp.symm.trans (pixelAt_eq_pixelBytes hi hx (bandRow_lt_height hc hk)))
    exact ⟨k, hk, hn, (printed_iff _ _).mpr ⟨v, hv, hdark⟩⟩

/-- Settles O27, from the pins that RAST prints: gray 255 prints none of them, gray 0 all of the band's. -/
theorem whiteAndBlackImages : Obligations.WhiteAndBlackImages := by
  refine ⟨fun f p => ⟨gray_of_whitePixel, gray_of_blackPixel⟩, fun s t f hs h ht hfmt => ?_⟩
  obtain ⟨f', -, hc, -, -⟩ := exec_rast_completed h hs ht
  obtain ⟨f'', hfmt'', pins⟩ := rastPrintsExactlyTheDarkPixels s t hs h ht
  obtain ⟨-, hgeo, -, -, -⟩ := rastCheck_ok hc
  obtain ⟨-, -, hbytes⟩ := (geometryValid_iff s.geo).mp hgeo
  obtain rfl : f = f'' := Option.some.inj (hfmt.symm.trans hfmt'')
  refine ⟨fun white a ha => ?white, fun black x n hx hn => ?black⟩
  case white =>
    have hpos : 0 < s.geo.totalPins.toNat / 8 := Nat.pos_of_mul_pos_left (Nat.zero_lt_of_lt ha)
    have hx : a / (s.geo.totalPins.toNat / 8) < s.img.width.toNat := Nat.div_lt_of_lt_mul (Nat.mul_comm .. ▸ ha)
    rw [← Nat.div_add_mod' a (s.geo.totalPins.toNat / 8)]
    refine memByte_eq_zero_of_clear (Nat.mod_lt a hpos) fun n hn => ?_
    obtain ⟨b, hb, hpin⟩ := pins _ n hx (by omega)
    refine ⟨b, hb, fun hset => ?_⟩
    obtain ⟨k, p, v, hk, -, hp, hv, hdark⟩ := hpin.mp hset
    obtain ⟨p', hp', hwhite⟩ := white _ _ hx (bandRow_lt_height hc hk)
    obtain rfl : p = p' := Option.some.inj (hp.symm.trans hp')
    obtain rfl : v = 255 := Option.some.inj (hv.symm.trans (gray_of_whitePixel hwhite))
    exact absurd hdark (by decide)
  case black =>
    obtain ⟨b, hb, hpin⟩ := pins x n hx hn
    refine ⟨b, hb, hpin.trans ⟨?_, fun ⟨hlo, hhi⟩ => ?_⟩⟩
    · rintro ⟨k, -, -, hk, rfl, -⟩
      omega
    · have hk : n - s.geo.rightMarginPins.toNat < s.geo.printableDots.toNat := by omega
      obtain ⟨p, hp, hblack⟩ := black x _ hx (bandRow_lt_height hc hk)
      exact ⟨_, p, 0, hk, by omega, hp, gray_of_blackPixel hblack, by decide⟩

/-- Settles O23, check by check in the order of R106. -/
theorem rastFirstFailingCheckDecides : Obligations.RastFirstFailingCheckDecides := by
  intro s hs
  refine ⟨fun hfmt => ?format, fun hfmt hgeo => ?geometry, fun hfmt hband hpins hbytes hheight => ?mismatch,
    fun hfmt hband hpins hbytes hheight hbig => ?capacity⟩
  case format => exact exec_rast_faults hs (rastCheck_reserved (pixelFormat_reserved hfmt))
  all_goals
    obtain ⟨f, hf, hbpp⟩ := pixelFormat_legal hfmt
    refine exec_rast_faults hs ((rastCheck_legal hf).trans ?_)
  case geometry =>
    refine if_pos (Bool.eq_false_of_not_eq_true fun hvalid => ?_)
    have := (geometryValid_iff s.geo).mp hvalid
    omega
  all_goals
    have hgeo := (geometryValid_iff s.geo).mpr ⟨hband, hpins, hbytes⟩
    rw [if_neg (ne_false_of_eq_true hgeo)]
  case mismatch => exact if_pos fun heq => hheight (congrArg BitVec.toNat heq)
  case capacity =>
    rw [if_neg (not_not_intro (BitVec.eq_of_toNat_eq hheight)), imageBytes, hbpp]
    exact if_pos hbig

/-- Settles O24: with every check passing, RAST stores the lines and sets NLINES and LB. -/
theorem rastStoresOneLinePerColumn : Obligations.RastStoresOneLinePerColumn := by
  intro s f image hs hfmt hband hpins hbytes hheight hpix hline hi
  have hgeo := (geometryValid_iff s.geo).mpr ⟨hband, hpins, hbytes⟩
  have hc : rastCheck s.params s.geo s.img = .ok f := rastCheck_passes hfmt hgeo hheight hpix hline
  refine ⟨_, exec_rast_completes hs hc hi, rfl, toNat_lb_rastDone s f image,
    fun x hx => memRead_storeLines s.geo f image s.mem.line hx, fun a ha => ?beyond, rfl⟩
  case beyond => exact (memByte_storeLines ..).trans (if_neg (Nat.not_lt.mpr ha))

/-- Settles O55: NLINES and LB are those of the lines that RAST stored. -/
theorem pageHoldsTheRasterLines : Obligations.PageHoldsTheRasterLines := by
  intro s t f image hs h ht hfmt hi
  obtain ⟨f', image', hc, hi', rfl⟩ := exec_rast_completed h hs ht
  obtain ⟨hfmt', -⟩ := rastCheck_ok hc
  obtain rfl : f = f' := Option.some.inj (hfmt.symm.trans hfmt')
  obtain rfl : image = image' := Option.some.inj (hi.symm.trans hi')
  rw [pageLines, toNat_lb_rastDone, List.range_eq_range']
  exact readLines_eq_some _ fun x _ hx => memRead_storeLines _ _ _ _ (by simpa using hx)

/-- Settles O28: each fixed pixel by its gray value, the two rows of RGBA8 for every byte. -/
theorem thresholdCornerCases : Obligations.ThresholdCornerCases := by
  refine ⟨by decide, by decide, by decide, by decide, by decide, by decide, by decide, by decide, by decide, by decide,
    fun a => ⟨gray_rgba8_black a, ?black⟩, fun r g b => ⟨gray_rgba8_transparent r g b, ?transparent⟩⟩
  case black =>
    rw [printed_iff, gray_rgba8_black]
    simp only [Option.some.injEq, exists_eq_left']
    omega
  case transparent =>
    rw [← Bool.not_eq_true, printed_iff, gray_rgba8_transparent]
    simp

/-- Settles O29, by the properties of the three functions. -/
theorem grayAndMarginProperties : Obligations.GrayAndMarginProperties :=
  ⟨grayRgb_same, grayRgb_between, fun c _ => composite_opaque c, composite_transparent,
    fun _ _ hc ha => composite_between hc ha, fun _ _ h => rowMargin_centres h⟩

end Sys2Proof.Machine
end

section
/-! # The family of the compressor: the scan, the round trip, and the reader's steps

What a record is at a scan position is said once, for runs by the stretch of equal bytes they begin
(`recordAt_of_repeat`) and for literals by where they stop (`recordAt_of_noRepeat`). Proofs about the whole output go by
induction over the scan (`scan_induction`), proofs about its reading by induction over the records that are read
(`reader_induction`). -/

namespace Sys2Proof.Machine

/-! ## Stretches of equal bytes -/

/-- How many bytes at the start equal `v`. A run is as long as this, up to `RUN_MAX` (`runMore_eq_min`). -/
def stretch (v : Byte) (bytes : List Byte) : Nat := (bytes.takeWhile (· == v)).length

@[simp] theorem stretch_cons_self (v : Byte) (bytes : List Byte) : stretch v (v :: bytes) = stretch v bytes + 1 := by
  simp [stretch]

theorem stretch_cons_ne {v b : Byte} (h : b ≠ v) (bytes : List Byte) : stretch v (b :: bytes) = 0 := by
  simp [stretch, h]

theorem replicate_prefix_iff (v : Byte) (bytes : List Byte) (n : Nat) :
    List.replicate n v <+: bytes ↔ n ≤ stretch v bytes := by
  induction bytes generalizing n with
  | nil => simp [stretch]
  | cons b bytes ih =>
    cases n with
    | zero => simp
    | succ n =>
      rw [List.replicate_succ, List.cons_prefix_cons]
      by_cases hb : b = v
      · subst hb
        simp [ih]
      · simp [stretch_cons_ne hb, Ne.symm hb]

/-- The byte after the stretch is another one. -/
theorem getElem?_stretch_ne (v : Byte) (bytes : List Byte) : bytes[stretch v bytes]? ≠ some v := by
  induction bytes with
  | nil => simp
  | cons b bytes ih =>
    by_cases hb : b = v
    · subst hb
      simpa using ih
    · simpa [stretch_cons_ne hb] using hb

@[simp] theorem stretch_replicate (n : Nat) (v : Byte) : stretch v (List.replicate n v) = n := by
  induction n with
  | zero => rfl
  | succ n ih => rw [List.replicate_succ, stretch_cons_self, ih]

/-- The inner loop of `RUN` counts the stretch, up to its cap (R132). -/
theorem runMore_eq_min (v : Byte) (cap : Nat) (bytes : List Byte) : runMore v cap bytes = min cap (stretch v bytes) := by
  induction cap generalizing bytes with
  | zero => simp [runMore]
  | succ cap ih =>
    cases bytes with
    | nil => simp [runMore, stretch]
    | cons b bytes =>
      rw [runMore]
      by_cases hb : b = v
      · subst hb
        rw [if_pos rfl, ih, stretch_cons_self, Nat.succ_min_succ]
      · rw [if_neg hb, stretch_cons_ne hb, Nat.min_zero]

theorem noStretch_of_infix {n : Nat} {part src : List Byte} (h : noStretch n src) (hpart : part <:+: src) :
    noStretch n part :=
  fun b hb => h b (hb.trans hpart)

theorem stretch_lt_of_noStretch {n : Nat} {src : List Byte} (h : noStretch n src) (v : Byte) : stretch v src < n :=
  Nat.lt_of_not_le fun hle => h v ((replicate_prefix_iff v src n).mpr hle).isInfix

/-- A source shorter than `n` has no `n` equal bytes. -/
theorem noStretch_of_length_lt {n : Nat} {src : List Byte} (h : src.length < n) : noStretch n src := by
  intro b hb
  have hle := hb.length_le
  rw [List.length_replicate] at hle
  omega

/-! ## The record at a scan position -/

theorem repeatAt_cons_iff (b : Byte) (rest : List Byte) : repeatAt (b :: rest) = true ↔ rest.head? = some b := by
  cases rest with
  | nil => simp [repeatAt]
  | cons c rest => rw [repeatAt, beq_iff_eq, List.head?_cons, Option.some_inj, eq_comm]

theorem repeatAt_cons_eq_false_iff (b : Byte) (rest : List Byte) :
    repeatAt (b :: rest) = false ↔ rest.head? ≠ some b := by
  rw [← Bool.not_eq_true, repeatAt_cons_iff]

/-- Where a literal stops: at its cap, at the end of the source, or before a repeat-run, the first there is (R133). -/
theorem litMore_stops (cap : Nat) (bytes : List Byte) :
    litMore cap bytes ≤ cap ∧ litMore cap bytes ≤ bytes.length ∧
      (∀ j, j < litMore cap bytes → repeatAt (bytes.drop j) = false) ∧
      (litMore cap bytes = cap ∨ litMore cap bytes = bytes.length ∨
        repeatAt (bytes.drop (litMore cap bytes)) = true) := by
  induction cap generalizing bytes with
  | zero => simp [litMore]
  | succ cap ih =>
    cases bytes with
    | nil => simp [litMore]
    | cons b bytes =>
      rw [litMore]
      split
      case isTrue hrepeat => simp [hrepeat]
      case isFalse hrepeat =>
        obtain ⟨hcap, hlen, hnone, hstop⟩ := ih bytes
        refine ⟨by omega, by rw [List.length_cons]; omega, fun j hj => ?_, ?_⟩
        · cases j with
          | zero => simpa using hrepeat
          | succ j => exact hnone j (by omega)
        · rw [List.length_cons, List.drop_succ_cons]
          exact hstop.imp (congrArg Nat.succ) (Or.imp_left (congrArg Nat.succ))

section
variable {runMax : Nat} {b : Byte} {rest : List Byte}

/-- At a repeat-run the record is the longest run that the data and `RUN_MAX` allow (R132). -/
theorem recordAt_of_repeat (hmax : 2 ≤ runMax) (h : rest.head? = some b) :
    recordAt runMax b rest = .run (min runMax (stretch b (b :: rest))) b := by
  obtain ⟨rest, rfl⟩ := List.head?_eq_some_iff.mp h
  have hcap : 2 + min (runMax - 2) (stretch b rest) = min runMax (stretch b rest + 1 + 1) := by omega
  rw [recordAt, if_pos ((repeatAt_cons_iff _ _).mpr h), runMore_eq_min, List.drop_succ_cons, List.drop_zero, hcap,
    stretch_cons_self, stretch_cons_self]

/-- A repeat-run is a stretch of at least two. -/
theorem two_le_stretch (h : rest.head? = some b) : 2 ≤ stretch b (b :: rest) := by
  obtain ⟨rest, rfl⟩ := List.head?_eq_some_iff.mp h
  rw [stretch_cons_self, stretch_cons_self]
  omega

/-- Elsewhere it is a literal, which stops where R133 says. -/
theorem recordAt_of_noRepeat (runMax : Nat) (h : rest.head? ≠ some b) :
    ∃ k, 1 ≤ k ∧ k ≤ 127 ∧ k ≤ (b :: rest).length ∧
      (∀ j, 1 ≤ j → j < k → repeatAt ((b :: rest).drop j) = false) ∧
      (k = 127 ∨ k = (b :: rest).length ∨ repeatAt ((b :: rest).drop k) = true) ∧
      recordAt runMax b rest = .lit ((b :: rest).take k) := by
  obtain ⟨hcap, hlen, hnone, hstop⟩ := litMore_stops (Config.litMax - 1) rest
  have hmax : Config.litMax - 1 = 126 := rfl
  refine ⟨litMore (Config.litMax - 1) rest + 1, by omega, by omega, Nat.succ_le_succ hlen, fun j hlo hhi => ?_, ?_, ?_⟩
  · obtain ⟨j, rfl⟩ := Nat.exists_eq_add_of_le' hlo
    exact hnone j (by omega)
  · rw [List.length_cons, List.drop_succ_cons]
    exact hstop.imp (congrArg Nat.succ) (Or.imp_left (congrArg Nat.succ))
  · rw [recordAt, if_neg (mt (repeatAt_cons_iff b rest).mp h), List.take_succ_cons]

end

theorem recordCount_recordAt_pos (runMax : Nat) (b : Byte) (rest : List Byte) :
    1 ≤ recordCount (recordAt runMax b rest) := by
  unfold recordAt
  split
  · rw [recordCount]; omega
  · rw [recordCount, List.length_cons]; omega

/-! ## The scan -/

theorem length_drop_recordAt_le (runMax : Nat) (b : Byte) (rest : List Byte) :
    ((b :: rest).drop (recordCount (recordAt runMax b rest))).length ≤ rest.length := by
  have hpos := recordCount_recordAt_pos runMax b rest
  rw [List.length_drop, List.length_cons]
  omega

/-- The bound on the number of records is never met (R161). -/
theorem scanRecords_eq_compressRecords (runMax : Nat) : ∀ (bound : Nat) (src : List Byte), src.length ≤ bound →
    scanRecords runMax bound src = compressRecords runMax src := by
  intro bound
  induction bound using Nat.strong_induction_on with
  | h bound ih =>
    intro src hsrc
    cases src with
    | nil => cases bound <;> rfl
    | cons b rest =>
      obtain ⟨bound, rfl⟩ := Nat.exists_eq_add_of_le' (Nat.one_le_of_lt hsrc)
      have hrest := length_drop_recordAt_le runMax b rest
      have hbound : rest.length ≤ bound := Nat.le_of_succ_le_succ hsrc
      rw [compressRecords, List.length_cons, scanRecords, scanRecords,
        ih bound (Nat.lt_succ_self bound) _ (hrest.trans hbound),
        ih rest.length (Nat.lt_succ_of_le hbound) _ hrest]

@[simp] theorem compressRecords_nil (runMax : Nat) : compressRecords runMax [] = [] := rfl

/-- The record at the scan position, then the scan goes on after the bytes it stands for (R131). -/
theorem compressRecords_cons (runMax : Nat) (b : Byte) (rest : List Byte) :
    compressRecords runMax (b :: rest) = recordAt runMax b rest ::
      compressRecords runMax ((b :: rest).drop (recordCount (recordAt runMax b rest))) := by
  rw [← scanRecords_eq_compressRecords runMax rest.length _ (length_drop_recordAt_le runMax b rest)]
  rfl

/-- Induction over the scan positions. -/
theorem scan_induction (runMax : Nat) {motive : List Byte → Prop} (nil : motive [])
    (cons : ∀ b rest, motive ((b :: rest).drop (recordCount (recordAt runMax b rest))) → motive (b :: rest))
    (src : List Byte) : motive src := by
  induction hlen : src.length using Nat.strong_induction_on generalizing src with
  | h len ih =>
    subst hlen
    cases src with
    | nil => exact nil
    | cons b rest =>
      exact cons b rest (ih _ (Nat.lt_succ_of_le (length_drop_recordAt_le runMax b rest)) _ rfl)

section
variable {runMax : Nat} {b : Byte} {rest : List Byte}

theorem compressRecords_of_repeat (hmax : 2 ≤ runMax) (h : rest.head? = some b) :
    compressRecords runMax (b :: rest) = .run (min runMax (stretch b (b :: rest))) b ::
      compressRecords runMax ((b :: rest).drop (min runMax (stretch b (b :: rest)))) := by
  rw [compressRecords_cons, recordAt_of_repeat hmax h, recordCount]

theorem compressRecords_of_noRepeat (runMax : Nat) (h : rest.head? ≠ some b) :
    ∃ k, 1 ≤ k ∧ k ≤ 127 ∧ k ≤ (b :: rest).length ∧
      (∀ j, 1 ≤ j → j < k → repeatAt ((b :: rest).drop j) = false) ∧
      (k = 127 ∨ k = (b :: rest).length ∨ repeatAt ((b :: rest).drop k) = true) ∧
      compressRecords runMax (b :: rest) =
        .lit ((b :: rest).take k) :: compressRecords runMax ((b :: rest).drop k) := by
  obtain ⟨k, hlo, hhi, hlen, hnone, hstop, hrecord⟩ := recordAt_of_noRepeat runMax h
  exact ⟨k, hlo, hhi, hlen, hnone, hstop,
    by rw [compressRecords_cons, hrecord, recordCount, List.length_take_of_le hlen]⟩

end

/-- What holds of the record at every scan position holds of every record of a line. -/
theorem forall_mem_compressRecords {runMax : Nat} {p : Record → Prop} (h : ∀ b rest, p (recordAt runMax b rest))
    (src : List Byte) : ∀ r ∈ compressRecords runMax src, p r := by
  induction src using scan_induction runMax with
  | nil => simp
  | cons b rest ih =>
    rw [compressRecords_cons, List.forall_mem_cons]
    exact ⟨h b rest, ih⟩

/-- `n` equal bytes, at least two, begin with a run (R132). -/
theorem compressRecords_replicate {runMax n : Nat} (hmax : 2 ≤ runMax) (hn : 2 ≤ n) (v : Byte) :
    compressRecords runMax (List.replicate n v) =
      .run (min runMax n) v :: compressRecords runMax (List.replicate (n - min runMax n) v) := by
  obtain ⟨n, rfl⟩ := Nat.exists_eq_add_of_le' hn
  rw [List.replicate_succ, compressRecords_of_repeat hmax rfl, ← List.replicate_succ, stretch_replicate,
    List.drop_replicate]

/-- A source without two equal neighbours, of at most 127 bytes, is one literal (R133). -/
theorem compressRecords_literal (runMax : Nat) {src : List Byte} (hne : src ≠ []) (hlen : src.length ≤ 127)
    (h : ∀ j, j < src.length → repeatAt (src.drop j) = false) : compressRecords runMax src = [.lit src] := by
  obtain ⟨b, rest, rfl⟩ := List.exists_cons_of_ne_nil hne
  have hhead : rest.head? ≠ some b := (repeatAt_cons_eq_false_iff b rest).mp (h 0 (by simp))
  obtain ⟨k, -, hhi, hk, -, hstop, hrecords⟩ := compressRecords_of_noRepeat runMax hhead
  have hend : k = (b :: rest).length := by
    rcases hstop with hmax | hend | hrepeat
    · omega
    · exact hend
    · by_contra hk'
      exact Bool.noConfusion (hrepeat.symm.trans (h k (by omega)))
  rw [hrecords, hend, List.take_length, List.drop_length, compressRecords_nil]

/-! ## The records of a line: their lengths, their bytes, their order -/

theorem emittable_run_iff (runMax len : Nat) (v : Byte) :
    (Record.run len v).emittable runMax = true ↔ 2 ≤ len ∧ len ≤ runMax := by
  simp [Record.emittable]

theorem emittable_lit_iff (runMax : Nat) (data : List Byte) :
    (Record.lit data).emittable runMax = true ↔ 1 ≤ data.length ∧ data.length ≤ 127 := by
  rw [Record.emittable, Bool.and_eq_true, decide_eq_true_eq, decide_eq_true_eq]
  rfl

/-- Every record has a length that the compressor emits (R141(d)). -/
theorem emittable_of_mem_compressRecords {runMax : Nat} (hmax : 2 ≤ runMax) {src : List Byte} :
    ∀ r ∈ compressRecords runMax src, r.emittable runMax = true := by
  refine forall_mem_compressRecords (fun b rest => ?_) src
  by_cases h : rest.head? = some b
  · have hstretch := two_le_stretch h
    rw [recordAt_of_repeat hmax h, emittable_run_iff]
    omega
  · obtain ⟨k, hlo, hhi, hlen, -, -, hrecord⟩ := recordAt_of_noRepeat runMax h
    rw [hrecord, emittable_lit_iff, List.length_take_of_le hlen]
    exact ⟨hlo, hhi⟩

/-- The record at a scan position stands for the source bytes up to the next one (R141(e)). -/
theorem recordBytes_recordAt {runMax : Nat} (hmax : 2 ≤ runMax) (b : Byte) (rest : List Byte) :
    recordBytes (recordAt runMax b rest) = (b :: rest).take (recordCount (recordAt runMax b rest)) := by
  by_cases h : rest.head? = some b
  · have hprefix := (replicate_prefix_iff b (b :: rest) _).mpr (Nat.min_le_right runMax _)
    rw [List.prefix_iff_eq_take, List.length_replicate] at hprefix
    rwa [recordAt_of_repeat hmax h, recordBytes, recordCount]
  · obtain ⟨k, -, -, hlen, -, -, hrecord⟩ := recordAt_of_noRepeat runMax h
    rw [hrecord, recordBytes, recordCount, List.length_take_of_le hlen]

/-- The records partition the source (R141(e)). -/
theorem compressRecords_partition {runMax : Nat} (hmax : 2 ≤ runMax) (src : List Byte) :
    (compressRecords runMax src).flatMap recordBytes = src := by
  induction src using scan_induction runMax with
  | nil => rfl
  | cons b rest ih =>
    rw [compressRecords_cons, List.flatMap_cons, ih, recordBytes_recordAt hmax, List.take_append_drop]

/-- A run stands for a stretch of the source. -/
theorem replicate_infix_of_mem_compressRecords {runMax len : Nat} {v : Byte} {src : List Byte} (hmax : 2 ≤ runMax)
    (h : Record.run len v ∈ compressRecords runMax src) : List.replicate len v <:+: src := by
  have hpart := List.infix_of_mem_flatten (List.mem_map_of_mem (f := recordBytes) h)
  rwa [← List.flatMap_def, compressRecords_partition hmax] at hpart

/-- A source without `n` equal bytes in a row has no run of `n` bytes or more. -/
theorem longRun_eq_false_of_noStretch {runMax n : Nat} {src : List Byte} (hmax : 2 ≤ runMax) (h : noStretch n src) :
    ∀ r ∈ compressRecords runMax src, longRun n r = false := by
  intro r hr
  cases r with
  | lit data => rfl
  | run len v =>
    refine decide_eq_false fun hlong => h v ?_
    have hshorter : List.replicate n v <+: List.replicate len v := by
      rwa [replicate_prefix_iff, stretch_replicate]
    exact hshorter.isInfix.trans (replicate_infix_of_mem_compressRecords hmax hr)

/-- Which record may stand after which: after a literal only a run, but for a literal of 127 bytes (R141(b), R141(c)). -/
def mayFollow : Record → Record → Prop
  | .lit data, .lit _ => data.length = 127
  | .lit _, .run _ _ => True
  | .run _ _, _ => True

/-- Every record may stand after the one before it. -/
theorem compressRecords_isChain {runMax : Nat} (hmax : 2 ≤ runMax) (src : List Byte) :
    (compressRecords runMax src).IsChain mayFollow := by
  induction src using scan_induction runMax with
  | nil => exact .nil
  | cons b rest ih =>
    rw [compressRecords_cons, List.isChain_cons]
    refine ⟨fun r hr => ?_, ih⟩
    by_cases h : rest.head? = some b
    · rw [recordAt_of_repeat hmax h]
      trivial
    · obtain ⟨k, -, -, hlen, -, hstop, hrecord⟩ := recordAt_of_noRepeat runMax h
      have hcount : (List.take k (b :: rest)).length = k := List.length_take_of_le hlen
      rw [hrecord, recordCount, hcount] at hr
      rw [hrecord]
      cases r with
      | run len v => trivial
      | lit data =>
        refine hcount.trans ?_
        rcases hstop with hmax' | hend | hrepeat
        · exact hmax'
        · rw [hend, List.drop_length] at hr
          cases hr
        · cases hnext : (b :: rest).drop k with
          | nil => rw [hnext] at hr; cases hr
          | cons c next =>
            rw [hnext, repeatAt_cons_iff] at hrepeat
            rw [hnext, compressRecords_of_repeat hmax hrepeat] at hr
            cases hr

section
variable {runMax j : Nat} {src data : List Byte}

theorem mayFollow_of_getElem? {r r' : Record} (hmax : 2 ≤ runMax) (h : (compressRecords runMax src)[j]? = some r)
    (h' : (compressRecords runMax src)[j + 1]? = some r') : mayFollow r r' := by
  obtain ⟨hj, rfl⟩ := List.getElem?_eq_some_iff.mp h
  obtain ⟨hj', rfl⟩ := List.getElem?_eq_some_iff.mp h'
  exact List.isChain_iff_getElem.mp (compressRecords_isChain hmax src) j hj'

/-- A literal of fewer than 127 bytes that is not the last record is followed by a run (R141(c)). -/
theorem run_after_short_literal (hmax : 2 ≤ runMax) (h : (compressRecords runMax src)[j]? = some (.lit data))
    (hshort : data.length < 127) (hnext : j + 1 < (compressRecords runMax src).length) :
    ∃ len v, (compressRecords runMax src)[j + 1]? = some (.run len v) := by
  have hget := List.getElem?_eq_getElem hnext
  cases hr : (compressRecords runMax src)[j + 1] with
  | run len v => exact ⟨len, v, hget.trans (congrArg some hr)⟩
  | lit data' =>
    have hfollow : data.length = 127 := mayFollow_of_getElem? hmax h (hget.trans (congrArg some hr))
    omega

end

/-! ## The bytes of a line -/

@[simp] theorem compress_nil (runMax : Nat) : compress runMax [] = [] := rfl

theorem compress_cons (runMax : Nat) (b : Byte) (rest : List Byte) :
    compress runMax (b :: rest) = encodeRecord (recordAt runMax b rest) ++
      compress runMax ((b :: rest).drop (recordCount (recordAt runMax b rest))) := by
  rw [compress, compressRecords_cons, List.flatMap_cons]
  rfl

/-- The control byte of a run, as a number (R69, R139). -/
theorem runControl_eq {len : Nat} (hlo : 2 ≤ len) (hhi : len ≤ 255) : runControl len = BitVec.ofNat 8 (257 - len) := by
  apply BitVec.eq_of_toNat_eq
  rw [toNat_runControl hlo hhi, BitVec.toNat_ofNat]

/-- Equal bytes, no more than `RUN_MAX`, give two bytes (R140). -/
theorem compress_replicate {runMax n : Nat} (hlo : 2 ≤ n) (hn : n ≤ runMax) (hhi : runMax ≤ 255) (v : Byte) :
    compress runMax (List.replicate n v) = [BitVec.ofNat 8 (257 - n), v] := by
  rw [compress, compressRecords_replicate (hlo.trans hn) hlo, Nat.min_eq_right hn, Nat.sub_self, List.replicate_zero,
    compressRecords_nil, List.flatMap_singleton, encodeRecord, runControl_eq hlo (hn.trans hhi)]

/-- The size bound (R140). A line that begins with a run, as every line does after a literal of fewer than 127 bytes, needs
no byte for a literal before it, which pays for the control byte of that literal. -/
theorem length_compress_le {runMax : Nat} (hmax : 2 ≤ runMax) (src : List Byte) :
    (compress runMax src).length ≤ src.length + (src.length + 2) / 3 ∧
      (repeatAt src = true → (compress runMax src).length ≤ src.length + src.length / 3) := by
  induction src using scan_induction runMax with
  | nil => simp
  | cons b rest ih =>
    obtain ⟨hbound, hrun⟩ := ih
    rw [compress_cons, List.length_append]
    by_cases h : rest.head? = some b
    · have hstretch := two_le_stretch h
      have hlen := ((replicate_prefix_iff b (b :: rest) _).mpr (Nat.le_refl _)).length_le
      rw [List.length_replicate] at hlen
      rw [recordAt_of_repeat hmax h, recordCount, List.length_drop] at hbound
      rw [recordAt_of_repeat hmax h, recordCount, encodeRecord, List.length_cons, List.length_singleton]
      omega
    · obtain ⟨k, hlo, hhi, hlen, -, hstop, hrecord⟩ := recordAt_of_noRepeat runMax h
      have hcount : (List.take k (b :: rest)).length = k := List.length_take_of_le hlen
      rw [hrecord, recordCount, hcount, List.length_drop] at hbound hrun
      rw [hrecord, recordCount, encodeRecord, List.length_cons, hcount]
      refine ⟨?_, fun hrepeat => absurd ((repeatAt_cons_iff b rest).mp hrepeat) h⟩
      rcases hstop with hlong | hend | hrepeat
      · omega
      · rw [hend, List.drop_length, compress_nil, List.length_nil]
        omega
      · have := hrun hrepeat
        omega

/-- Only a stretch longer than `RUN_MAX` makes a run stop at it (R143). -/
theorem recordAt_congr_of_noStretch {limit runMax runMax' : Nat} {b : Byte} {rest : List Byte} (hmax : 2 ≤ runMax)
    (hmax' : 2 ≤ runMax') (hlim : limit ≤ runMax) (hlim' : limit ≤ runMax') (h : noStretch (limit + 1) (b :: rest)) :
    recordAt runMax b rest = recordAt runMax' b rest := by
  by_cases hhead : rest.head? = some b
  · have hstretch := stretch_lt_of_noStretch h b
    rw [recordAt_of_repeat hmax hhead, recordAt_of_repeat hmax' hhead, Nat.min_eq_right (by omega),
      Nat.min_eq_right (by omega)]
  · have hrepeat := mt (repeatAt_cons_iff b rest).mp hhead
    rw [recordAt, recordAt, if_neg hrepeat, if_neg hrepeat]

theorem compress_congr_of_noStretch {limit runMax runMax' : Nat} {src : List Byte} (hmax : 2 ≤ runMax)
    (hmax' : 2 ≤ runMax') (hlim : limit ≤ runMax) (hlim' : limit ≤ runMax') (h : noStretch (limit + 1) src) :
    compress runMax src = compress runMax' src := by
  induction src using scan_induction runMax with
  | nil => rfl
  | cons b rest ih =>
    have hrest := ih (noStretch_of_infix h (List.drop_suffix _ _).isInfix)
    rw [compress_cons, compress_cons runMax', ← recordAt_congr_of_noStretch hmax hmax' hlim hlim' h, hrest]

/-! ## Expanding -/

/-- A record that the reader takes is at least one byte. -/
theorem length_lt_of_readRecord {bytes rest : List Byte} {r : Record} (h : readRecord bytes = .ok (r, rest)) :
    rest.length < bytes.length := by
  obtain ⟨-, rfl⟩ := readRecord_ok h
  have hpos : 0 < (encodeRecord r).length := by cases r <;> exact Nat.succ_pos _
  rw [List.length_append]
  omega

/-- Bytes that are no record are a record cut short (R72). -/
theorem readRecord_error {bytes : List Byte} {e : DecodeError} (hne : bytes ≠ []) (h : readRecord bytes = .error e) :
    e = .truncated := by
  obtain ⟨c, bytes, rfl⟩ := List.exists_cons_of_ne_nil hne
  unfold readRecord at h
  dsimp only at h
  split_ifs at h
  · cases bytes with
    | nil => cases h; rfl
    | cons v bytes => cases h
  · cases h; rfl

/-- Induction over the records that a reader takes from a line. -/
theorem reader_induction {motive : List Byte → Prop} (nil : motive [])
    (cut : ∀ line, readRecord line = .error .truncated → motive line)
    (record : ∀ r line more, readRecord line = .ok (r, more) → motive more → motive line) (line : List Byte) :
    motive line := by
  induction hlen : line.length using Nat.strong_induction_on generalizing line with
  | h len ih =>
    subst hlen
    by_cases hne : line = []
    · subst hne
      exact nil
    · cases hread : readRecord line with
      | error e => exact cut line (readRecord_error hne hread ▸ hread)
      | ok taken => exact record taken.1 line taken.2 hread (ih _ (length_lt_of_readRecord hread) _ rfl)

theorem expandUpTo_of_readRecord {bytes rest : List Byte} {r : Record} (h : readRecord bytes = .ok (r, rest))
    (bound : Nat) : expandUpTo (bound + 1) bytes = (expandUpTo bound rest).map (recordBytes r ++ ·) := by
  cases bytes with
  | nil => cases h
  | cons c bytes =>
    rw [expandUpTo, h]
    dsimp only
    cases expandUpTo bound rest <;> rfl

theorem expandUpTo_of_truncated {bytes : List Byte} (h : readRecord bytes = .error .truncated) (bound : Nat) :
    expandUpTo bound bytes = none := by
  cases bytes with
  | nil => cases h
  | cons c bytes =>
    cases bound with
    | zero => rfl
    | succ bound => rw [expandUpTo, h]

/-- The bound on the number of records is never met. -/
theorem expandUpTo_eq_expand {bytes : List Byte} : ∀ {bound : Nat}, bytes.length ≤ bound →
    expandUpTo bound bytes = expand bytes := by
  induction bytes using reader_induction with
  | nil => intro bound _; cases bound <;> rfl
  | cut bytes h => intro bound _; rw [expand, expandUpTo_of_truncated h, expandUpTo_of_truncated h]
  | record r bytes more h ih =>
    have hless := length_lt_of_readRecord h
    intro bound hbound
    obtain ⟨bound, rfl⟩ := Nat.exists_eq_add_of_le' (Nat.one_le_of_lt (hless.trans_le hbound))
    obtain ⟨len, hlen⟩ := Nat.exists_eq_add_of_le' (Nat.one_le_of_lt hless)
    rw [expand, hlen, expandUpTo_of_readRecord h, expandUpTo_of_readRecord h, ih (by omega), ih (by omega)]

@[simp] theorem expand_nil : expand [] = some [] := rfl

/-- The first record's bytes, then the expansion of what follows it (R137). -/
theorem expand_of_readRecord {bytes rest : List Byte} {r : Record} (h : readRecord bytes = .ok (r, rest)) :
    expand bytes = (expand rest).map (recordBytes r ++ ·) := by
  have hless := length_lt_of_readRecord h
  rw [← expandUpTo_eq_expand (Nat.le_succ bytes.length), expandUpTo_of_readRecord h, expandUpTo_eq_expand hless.le]

/-- A line that is cut short has no value (R137). -/
theorem expand_of_truncated {bytes : List Byte} (h : readRecord bytes = .error .truncated) : expand bytes = none :=
  expandUpTo_of_truncated h _

theorem expand_encodeRecord_append {r : Record} (hw : (instrOfRecord r).wf = true) (more : List Byte) :
    expand (encodeRecord r ++ more) = (expand more).map (recordBytes r ++ ·) :=
  expand_of_readRecord (readRecord_encodeRecord hw more)

/-- Records that a reader can read expand to the bytes they stand for. -/
theorem expand_flatMap_encodeRecord {records : List Record} (hw : ∀ r ∈ records, (instrOfRecord r).wf = true) :
    expand (records.flatMap encodeRecord) = some (records.flatMap recordBytes) := by
  induction records with
  | nil => rfl
  | cons r records ih =>
    rw [List.forall_mem_cons] at hw
    obtain ⟨hr, hrecords⟩ := hw
    rw [List.flatMap_cons, List.flatMap_cons, expand_encodeRecord_append hr, ih hrecords, Option.map_some]

/-- What the compressor emits a reader can read, but for runs of 130 bytes or more (R139). -/
theorem wf_of_emittable {runMax : Nat} {r : Record} (h : r.emittable runMax = true) (hshort : longRun 130 r = false) :
    (instrOfRecord r).wf = true := by
  cases r with
  | run len v =>
    obtain ⟨hlo, -⟩ := (emittable_run_iff runMax len v).mp h
    have hhi : ¬ 130 ≤ len := of_decide_eq_false hshort
    exact (wf_run_iff len v).mpr (by omega)
  | lit data =>
    obtain ⟨hlo, hhi⟩ := (emittable_lit_iff runMax data).mp h
    exact (wf_lit_iff data).mpr (by omega)

/-- The round trip, when no run has 130 bytes or more (R138). -/
theorem expand_compress {runMax : Nat} {src : List Byte} (hmax : 2 ≤ runMax)
    (hshort : ∀ r ∈ compressRecords runMax src, longRun 130 r = false) : expand (compress runMax src) = some src := by
  have hwf : ∀ r ∈ compressRecords runMax src, (instrOfRecord r).wf = true := fun r hr =>
    wf_of_emittable (emittable_of_mem_compressRecords hmax r hr) (hshort r hr)
  rw [compress, expand_flatMap_encodeRecord hwf, compressRecords_partition hmax]

/-- A `RUN_MAX` of at most 129 emits no run of 130 bytes (R138). -/
theorem longRun_eq_false_of_runMax {runMax : Nat} {src : List Byte} (hmax : 2 ≤ runMax) (h : runMax ≤ 129) :
    ∀ r ∈ compressRecords runMax src, longRun 130 r = false := by
  intro r hr
  cases r with
  | lit data => rfl
  | run len v =>
    obtain ⟨-, hhi⟩ := (emittable_run_iff runMax len v).mp (emittable_of_mem_compressRecords hmax _ hr)
    exact decide_eq_false (by omega)

/-- A literal of more bytes than there are is cut short (R72). -/
theorem readRecord_lit_truncated {c : Byte} {bytes : List Byte} (h : c.toNat < 0x80)
    (hfew : bytes.length < c.toNat + 1) : readRecord (c :: bytes) = .error .truncated :=
  (if_neg (Nat.not_le.mpr h)).trans (if_neg (Nat.not_le.mpr hfew))

/-! ## The steps of the reader -/

theorem exec_instrOfRecord {r : Record} (hw : (instrOfRecord r).wf = true) (s : State) :
    exec (instrOfRecord r) s = .next (appendExpanded s (recordBytes r)) := by
  cases r with
  | run len v => exact readerTakes_wf hw s _
  | lit data => exact readerTakes_wf hw s _

section
variable {s t : State} {bytes more : List Byte} {rest : List HostAction}

/-- One step of the reader on a line that begins with a record (R137). -/
theorem step_expand_record {r : Record} (hs : s.host = .expand bytes :: rest)
    (h : readRecord bytes = .ok (r, more)) :
    step s = .next { s with expOut := s.expOut ++ recordBytes r,
                            host := if more = [] then rest else .expand more :: rest, response := .nothing } := by
  obtain ⟨hw, -⟩ := readRecord_ok h
  have hdecode : decodeStream bytes = .ok (instrOfRecord r, more) := by rw [decodeStream, h]
  rw [step_cons hs, runAction_expand hdecode, requeue_takeAction, exec_instrOfRecord hw]
  rfl

/-- One step of the reader on a line that is cut short (R137). -/
theorem step_expand_truncated (hs : s.host = .expand bytes :: rest) (h : readRecord bytes = .error .truncated) :
    step s = .refused (.malformedLine .truncated) := by
  have hne : bytes ≠ [] := by rintro rfl; cases h
  rw [step_cons hs, runAction, if_neg hne, readerStep, decodeStream, h]

theorem step_expand_nil (hs : s.host = .expand [] :: rest) :
    step s = .next { s with host := rest, response := .nothing } :=
  step_cons hs

theorem stepsFrom_succ (h : step s = .next t) (n : Nat) : stepsFrom (n + 1) s = stepsFrom n t := by
  rw [stepsFrom, h]

theorem stepsFrom_one (h : step s = .next t) : stepsFrom 1 s = .next t := by
  rw [stepsFrom_succ h, stepsFrom]

end

/-- A well-formed line is expanded by as many steps as it has records (R137). -/
theorem stepsFrom_expand {bytes : List Byte} : ∀ {s : State} {rest : List HostAction} {out : List Byte},
    s.host = .expand bytes :: rest → expand bytes = some out →
      ∃ n, stepsFrom n s = .next { s with expOut := s.expOut ++ out, host := rest, response := .nothing } := by
  induction bytes using reader_induction with
  | nil =>
    intro s rest out hs h
    cases h
    refine ⟨1, (stepsFrom_one (step_expand_nil hs)).trans ?_⟩
    rw [List.append_nil]
  | cut bytes hcut =>
    intro s rest out _ h
    rw [expand_of_truncated hcut] at h
    cases h
  | record r bytes more hread ih =>
    intro s rest out hs h
    rw [expand_of_readRecord hread, Option.map_eq_some_iff] at h
    obtain ⟨out, hout, rfl⟩ := h
    have hstep := step_expand_record hs hread
    by_cases hmore : more = []
    · subst hmore
      cases hout
      refine ⟨1, (stepsFrom_one hstep).trans ?_⟩
      rw [if_pos rfl, List.append_nil]
    · rw [if_neg hmore] at hstep
      obtain ⟨n, hn⟩ := ih (s := { s with expOut := s.expOut ++ recordBytes r, host := .expand more :: rest,
                                          response := .nothing }) rfl hout
      refine ⟨n + 1, (stepsFrom_succ hstep n).trans (hn.trans ?_)⟩
      rw [List.append_assoc]

/-- A malformed line is expanded up to the record that is cut short (R137). -/
theorem stepsFrom_malformed {bytes : List Byte} : ∀ {s : State} {rest : List HostAction},
    s.host = .expand bytes :: rest → expand bytes = none →
      ∃ before cut out n t, bytes = before ++ cut ∧ expand before = some out ∧ readRecord cut = .error .truncated ∧
        stepsFrom n s = .next t ∧
        t = { s with expOut := s.expOut ++ out, host := .expand cut :: rest, response := t.response } := by
  induction bytes using reader_induction with
  | nil => intro s rest _ h; cases h
  | cut bytes hcut =>
    intro s rest hs _
    refine ⟨[], bytes, [], 0, s, rfl, rfl, hcut, rfl, ?_⟩
    rw [List.append_nil, ← hs]
  | record r bytes more hread ih =>
    intro s rest hs h
    rw [expand_of_readRecord hread, Option.map_eq_none_iff] at h
    have hmore : more ≠ [] := by rintro rfl; cases h
    have hstep := step_expand_record hs hread
    rw [if_neg hmore] at hstep
    obtain ⟨before, cut, out, n, t, rfl, hbefore, hcut, hn, ht⟩ := ih (s := { s with
      expOut := s.expOut ++ recordBytes r, host := .expand more :: rest, response := .nothing }) rfl h
    obtain ⟨hw, hbytes⟩ := readRecord_ok hread
    refine ⟨encodeRecord r ++ before, cut, recordBytes r ++ out, n + 1, t, ?_, ?_, hcut,
      (stepsFrom_succ hstep n).trans hn, ?_⟩
    · rw [List.append_assoc, hbytes]
    · rw [expand_encodeRecord_append hw, hbefore, Option.map_some]
    · rw [← List.append_assoc]
      exact ht

/-! ## Two states with the same inputs -/

/-- A read depends on nothing but the bytes it reads. -/
theorem memRead_congr {m m' : Mem} {off n : Nat} (h : ∀ a, off ≤ a → a < off + n → memByte m a = memByte m' a) :
    memRead m off n = memRead m' off n := by
  apply Option.ext
  intro bytes
  rw [memRead_eq_some_iff, memRead_eq_some_iff]
  refine and_congr_right fun _ => forall₂_congr fun k hk => ?_
  rw [h (off + k) (by omega) (by omega)]

/-- Two states run an operation alike: both fault with one code, both are refused for one reason, or both complete with one
result, which `effect` puts into each of them. -/
inductive RunAlike {α : Type} (effect : State → α → State) (i : Instr) (s s' : State) : Prop
  | fault (c : FaultCode) (h : exec i s = .next (raise c s)) (h' : exec i s' = .next (raise c s'))
  | refused (r : Refusal) (h : exec i s = .refused r) (h' : exec i s' = .refused r)
  | done (a : α) (h : exec i s = .next (effect s a)) (h' : exec i s' = .next (effect s' a))

section
variable {α : Type} {effect : State → α → State} {i : Instr} {s s' : State}

theorem RunAlike.refuses (h : RunAlike effect i s s') {r : Refusal} (hr : exec i s = .refused r) :
    exec i s' = .refused r := by
  cases h with
  | refused r' h h' =>
    cases h.symm.trans hr
    exact h'
  | fault c h => cases h.symm.trans hr
  | done a h => cases h.symm.trans hr

/-- Where one answers a next state so does the other, with the same fault or with the same result. -/
theorem RunAlike.completes (h : RunAlike effect i s s') (p : State → State → Prop)
    (hp : ∀ a, p (effect s a) (effect s' a))
    (hready : ∀ a, (effect s a).faulted = false ∧ (effect s' a).faulted = false ∧ (effect s a).fault = s.fault)
    {t : State} (ht : exec i s = .next t) :
    ∃ t', exec i s' = .next t' ∧ t.faulted = t'.faulted ∧ t.fault = (if t.faulted then t'.fault else s.fault) ∧
      (t.faulted = false → p t t') := by
  cases h with
  | refused r h => cases h.symm.trans ht
  | fault c h h' =>
    cases h.symm.trans ht
    exact ⟨_, h', rfl, rfl, fun hf => Bool.noConfusion hf⟩
  | done a h h' =>
    cases h.symm.trans ht
    obtain ⟨hf, hf', hfault⟩ := hready a
    refine ⟨_, h', hf.trans hf'.symm, ?_, fun _ => hp a⟩
    rw [hf, hfault]
    rfl

/-- STDEC reads nothing but STREC (R94). -/
theorem exec_stdec_alike (hf : s.faulted = false) (hf' : s'.faulted = false)
    (hstrec : ∀ a, memByte s.mem.strec a = memByte s'.mem.strec a) :
    RunAlike (fun s record => { s with st := decodeStatus record }) .stdec s s' := by
  have hread := memRead_congr (off := 0) (n := Config.statusLen) fun a _ _ => hstrec a
  cases h : memRead s.mem.strec 0 Config.statusLen with
  | none => exact .refused _ (exec_stdec_unwritten hf h) (exec_stdec_unwritten hf' (hread.symm.trans h))
  | some record => exact .done record (exec_stdec_decodes hf h) (exec_stdec_decodes hf' (hread.symm.trans h))

/-- COMP reads nothing but its window and its registers (R142). -/
theorem exec_comp_alike (hf : s.faulted = false) (hf' : s'.faulted = false) (hparams : s.params = s'.params)
    (hoff : s.srcOff = s'.srcOff) (hlen : s.srcLen = s'.srcLen)
    (hline : ∀ a, s.srcOff.toNat ≤ a → a < s.srcOff.toNat + s.srcLen.toNat →
      memByte s.mem.line a = memByte s'.mem.line a) :
    RunAlike compDone .comp s s' := by
  have hread : memRead s'.mem.line s'.srcOff.toNat s'.srcLen.toNat =
      memRead s.mem.line s.srcOff.toNat s.srcLen.toNat := by
    rw [← hoff, ← hlen]
    exact (memRead_congr hline).symm
  rcases Nat.lt_or_ge s.params.lineSize (s.srcOff.toNat + s.srcLen.toNat) with hout | hin
  · exact .fault _ (exec_comp_beyondLine hf hout) (exec_comp_beyondLine hf' (by rwa [← hparams, ← hoff, ← hlen]))
  · have hin' : s'.srcOff.toNat + s'.srcLen.toNat ≤ s'.params.lineSize := by rwa [← hparams, ← hoff, ← hlen]
    cases h : memRead s.mem.line s.srcOff.toNat s.srcLen.toNat with
    | none => exact .refused _ (exec_comp_unwritten hf hin h) (exec_comp_unwritten hf' hin' (hread.trans h))
    | some src =>
      have hrun := exec_comp_window hf hin h
      have hrun' := exec_comp_window hf' hin' (hread.trans h)
      rw [← hparams] at hrun'
      split_ifs at hrun hrun'
      · exact .fault _ hrun hrun'
      · exact .done _ hrun hrun'

/-- RAST reads nothing but the image, the geometry and the image registers (R165). -/
theorem exec_rast_alike (hf : s.faulted = false) (hf' : s'.faulted = false) (hparams : s.params = s'.params)
    (hgeo : s.geo = s'.geo) (himg : s.img = s'.img) (hpix : ∀ a, memByte s.mem.pix a = memByte s'.mem.pix a) :
    RunAlike (fun s (result : PixelFormat × List Byte) => rastDone s result.1 result.2) .rast s s' := by
  have hcheck : rastCheck s'.params s'.geo s'.img = rastCheck s.params s.geo s.img := by rw [hparams, hgeo, himg]
  cases hc : rastCheck s.params s.geo s.img with
  | error c => exact .fault c (exec_rast_faults hf hc) (exec_rast_faults hf' (hcheck.trans hc))
  | ok f =>
    have hread : memRead s'.mem.pix 0 (imageBytes s'.img f) = memRead s.mem.pix 0 (imageBytes s.img f) := by
      rw [← himg]
      exact (memRead_congr fun a _ _ => hpix a).symm
    cases h : memRead s.mem.pix 0 (imageBytes s.img f) with
    | none =>
      exact .refused _ (exec_rast_unwritten hf hc h) (exec_rast_unwritten hf' (hcheck.trans hc) (hread.trans h))
    | some image =>
      exact .done (f, image) (exec_rast_completes hf hc h)
        (exec_rast_completes hf' (hcheck.trans hc) (hread.trans h))

end

/-- CBUF holds the output wherever COMP completed with it. -/
theorem memByte_compDone_congr (s s' : State) {out : List Byte} {a : Nat} (ha : a < (compDone s out).clen.toNat) :
    memByte (compDone s out).mem.cbuf a = memByte (compDone s' out).mem.cbuf a := by
  have hlt : a < out.length := by
    rw [compDone_clen, BitVec.toNat_ofNat] at ha
    exact ha.trans_le (Nat.mod_le ..)
  rw [compDone_mem, compDone_mem, memByte_memWrite, memByte_memWrite, if_pos (by omega), if_pos (by omega)]

/-- LINE holds the lines wherever RAST completed with them. -/
theorem memByte_rastDone_congr {s s' : State} (hgeo : s.geo = s'.geo) (himg : s.img = s'.img) (f : PixelFormat)
    (image : List Byte) {a : Nat}
    (ha : a < (rastDone s f image).nlines.toNat * (rastDone s f image).lb.toNat) :
    memByte (rastDone s f image).mem.line a = memByte (rastDone s' f image).mem.line a := by
  rw [rastDone_nlines, toNat_lb_rastDone] at ha
  rw [rastDone_mem, rastDone_mem, ← hgeo, ← himg, memByte_storeLines, memByte_storeLines, if_pos ha, if_pos ha]

/-! ## The statements -/

/-- Settles O33: each of the last clauses says that no emitted run has 130 bytes or more. -/
theorem expandOfCompressIsIdentity : Obligations.ExpandOfCompressIsIdentity := by
  intro runMax src hmax _
  have hstretch : noStretch 130 src → expand (compress runMax src) = some src := fun h =>
    expand_compress hmax (longRun_eq_false_of_noStretch hmax h)
  exact ⟨fun h => expand_compress hmax (longRun_eq_false_of_runMax hmax h), expand_compress hmax, hstretch,
    fun h => hstretch (noStretch_of_length_lt (Nat.lt_succ_of_le h))⟩

/-- Settles O30. -/
theorem compStoresTheCompressedWindow : Obligations.CompStoresTheCompressedWindow := by
  intro s src hp hf hw hsrc hout
  have hrun := (exec_comp_window hf hw hsrc).trans (if_neg (Nat.not_lt.mpr hout))
  refine ⟨_, hrun, toNat_clen_compDone hp hout, memRead_memWrite_self .., fun a ha => ?_, rfl⟩
  exact memByte_memWrite_outside _ _ (.inr (by omega))

/-- Settles O32, by the record at a repeat-run and the record elsewhere. -/
theorem scanPrefersTheLongestRun : Obligations.ScanPrefersTheLongestRun := by
  intro runMax b rest hmax
  refine ⟨rfl, fun h => ?run, fun h => compressRecords_of_noRepeat runMax h⟩
  case run =>
    have hstretch := two_le_stretch h
    refine ⟨_, by omega, Nat.min_le_left .., (replicate_prefix_iff ..).mpr (Nat.min_le_right ..), ?_,
      compressRecords_of_repeat hmax h⟩
    rcases Nat.le_total runMax (stretch b (b :: rest)) with hle | hle
    · exact .inl (Nat.min_eq_left hle)
    · rw [Nat.min_eq_right hle]
      exact .inr (getElem?_stretch_ne b (b :: rest))

/-- Settles O34: the control byte asks for a literal of at least three bytes, and there is one. -/
theorem longRunsDoNotExpand : Obligations.LongRunsDoNotExpand := by
  intro runMax len v hlong hlen hmax
  have hcontrol : (BitVec.ofNat 8 (257 - len)).toNat = 257 - len := by rw [BitVec.toNat_ofNat]; omega
  have hcompress := compress_replicate (by omega) hlen hmax v
  refine ⟨hcompress, ?_, ?_⟩
  · rw [BitVec.msb_eq_false_iff_two_mul_lt, hcontrol]
    omega
  · rw [hcompress]
    exact expand_of_truncated (readRecord_lit_truncated (by omega) (by rw [List.length_singleton]; omega))

/-- Settles O35. No stretch of `01 02 02 01` is longer than 2, so it compresses as with `RUN_MAX = 2`; the alternating line
is one literal. -/
theorem compressedSizeBound : Obligations.CompressedSizeBound := by
  intro runMax hmax hhi
  refine ⟨fun src => (length_compress_le hmax src).1, ?reached, ?alternating,
    fun n b hlo hn => compress_replicate hlo hn hhi b⟩
  case reached =>
    have hstretch : noStretch (2 + 1) [0x01, 0x02, 0x02, 0x01] := by
      unfold noStretch
      decide
    rw [compress_congr_of_noStretch hmax (Nat.le_refl 2) hmax (Nat.le_refl 2) hstretch]
    decide
  case alternating =>
    have hone := compressRecords_literal runMax (src := (List.replicate 35 [0x00, 0xFF]).flatten) (by decide)
      (by decide) (by decide)
    rw [compress, hone]
    decide

/-- Settles O36. -/
theorem shapeOfTheCompressedLine : Obligations.ShapeOfTheCompressedLine := by
  intro runMax src hmax hhi
  refine ⟨?runs, fun v => ?same, fun j data data' h h' => mayFollow_of_getElem? hmax h h',
    fun j data h hshort hnext => run_after_short_literal hmax h hshort hnext, emittable_of_mem_compressRecords hmax,
    fun data h => ?control, compressRecords_partition hmax src⟩
  case runs =>
    have hstretch : noStretch (2 + 1) [0x01, 0x01, 0x02, 0x02] := by
      unfold noStretch
      decide
    rw [compress_congr_of_noStretch hmax (Nat.le_refl 2) hmax (Nat.le_refl 2) hstretch]
    decide
  case same =>
    rw [compressRecords_replicate hmax (by omega), Nat.min_eq_left (by omega), Nat.add_sub_cancel_left,
      compressRecords_replicate hmax (Nat.le_refl 2), Nat.min_eq_right hmax, Nat.sub_self, List.replicate_zero,
      compressRecords_nil]
  case control =>
    obtain ⟨-, hlit⟩ := (emittable_lit_iff runMax data).mp (emittable_of_mem_compressRecords hmax _ h)
    intro heq
    have hcontrol := toNat_litControl (k := data.length) (by omega)
    rw [heq] at hcontrol
    have h7F : (0x7F : Byte).toNat = 127 := rfl
    omega

/-- Settles O37: a source of at most 128 bytes has no stretch of 129. -/
theorem runLimitMattersOnlyForLongStretches : Obligations.RunLimitMattersOnlyForLongStretches := by
  intro limit runMax runMax' src hmax hmax'
  exact ⟨fun h hlim hlim' => compress_congr_of_noStretch hmax hmax' hlim hlim' h,
    fun h hlim hlim' => compress_congr_of_noStretch hmax hmax' hlim hlim'
      (noStretch_of_length_lt (Nat.lt_succ_of_le h))⟩

/-- Settles O38: the operations run alike, and the results they put into two states are the same. -/
theorem operationsDependOnlyOnTheirInputs : Obligations.OperationsDependOnlyOnTheirInputs := by
  refine ⟨fun s s' hf hf' hstrec => ?stdec, fun s s' hf hf' hparams hoff hlen hline => ?comp,
    fun s s' hf hf' hparams hgeo himg hpix => ?rast⟩
  case stdec =>
    have halike := exec_stdec_alike hf hf' hstrec
    refine ⟨fun t ht => ?_, fun r hr => halike.refuses hr⟩
    obtain ⟨t', ht', heq, -, hst⟩ := halike.completes (fun t t' => t.st = t'.st) (fun _ => rfl)
      (fun _ => ⟨hf, hf', rfl⟩) ht
    have hready : t'.faulted = false := by
      rcases execStdec_next ht' with ⟨-, rfl⟩ | ⟨-, record, -, rfl⟩ <;> exact hf'
    exact ⟨t', ht', hst (heq.trans hready), hready⟩
  case comp =>
    have halike := exec_comp_alike hf hf' hparams hoff hlen hline
    refine ⟨fun t ht => halike.completes
      (fun t t' => t.clen = t'.clen ∧ ∀ a, a < t.clen.toNat → memByte t.mem.cbuf a = memByte t'.mem.cbuf a)
      (fun out => ⟨rfl, fun a ha => memByte_compDone_congr s s' ha⟩) (fun _ => ⟨hf, hf', rfl⟩) ht,
      fun r hr => halike.refuses hr⟩
  case rast =>
    have halike := exec_rast_alike hf hf' hparams hgeo himg hpix
    refine ⟨fun t ht => halike.completes
      (fun t t' => t.nlines = t'.nlines ∧ t.lb = t'.lb ∧
        ∀ a, a < t.nlines.toNat * t.lb.toNat → memByte t.mem.line a = memByte t'.mem.line a)
      (fun result => ⟨?nlines, ?lb, fun a ha => memByte_rastDone_congr hgeo himg _ _ ha⟩)
      (fun _ => ⟨hf, hf', rfl⟩) ht,
      fun r hr => halike.refuses hr⟩
    case nlines => rw [rastDone_nlines, rastDone_nlines, himg]
    case lb => rw [rastDone_lb, rastDone_lb, hgeo]

/-- Settles O42, by the reader's steps on a well-formed and on a malformed line. -/
theorem readerStepsComputeExpand : Obligations.ReaderStepsComputeExpand := by
  intro s bytes rest hs
  refine ⟨fun out h => stepsFrom_expand hs h, fun h => ?malformed⟩
  case malformed =>
    obtain ⟨before, cut, out, n, t, hbytes, hbefore, hcut, hn, ht⟩ := stepsFrom_malformed hs h
    have hhost : t.host = .expand cut :: rest := congrArg State.host ht
    exact ⟨before, cut, out, n, t, hbytes, hbefore, hcut, hn, ht, step_expand_truncated hhost hcut⟩

end Sys2Proof.Machine
end

section
/-! # The family of command dispatch: a write to CMD, the faulted block, and the job of a page

A command of a job appends its bytes to the open stream, and the decoder takes the same command off them again; both facts
go from one command to a list of commands. A job is then a list whose commands are known one by one. -/

namespace Sys2Proof.Machine

/-! ## Writes to CMD and the faulted block -/

/-- A faulted block ignores what is written to CMD (R160). -/
theorem runCommand_faulted {s : State} (hf : s.faulted = true) (v : Word) : runCommand s v = .next s :=
  unlessFaulted_faulted hf _

/-- CMD is register 0x00: a host write to it is a command (R61). -/
theorem step_writeCmd {s : State} {v : Word} {rest : List HostAction} (hs : s.host = .writeReg 0x00 v :: rest) :
    step s = runCommand (takeAction s rest) v :=
  step_cons hs

/-- A faulted block ignores its three instructions (R160, R216). -/
theorem exec_operation_faulted {s : State} {i : Instr} (hf : s.faulted = true) (hi : i ∈ [Instr.stdec, .rast, .comp]) :
    exec i s = .next s := by
  simp only [List.mem_cons, List.not_mem_nil, or_false] at hi
  rcases hi with rfl | rfl | rfl <;> exact unlessFaulted_faulted hf _

/-! ## One command of a job -/

/-- A command that the encoder takes as part of a job: of the job's items (R176 to R189), well formed (R187), and no margin
of 0 (R185). -/
structure JobCommand (i : Instr) : Prop where
  item : jobItem i ≠ none
  wf : i.wf = true
  margin : i ≠ .margin 0

/-- The words of a command of a job are protocol bytes (R176 to R189). -/
theorem encode_of_jobItem {i : Instr} (h : jobItem i ≠ none) : encode i = .protocol (encodeBytes i) := by
  cases i with
  | stdec | rast | comp | run | lit | statusRequest => exact absurd rfl h
  | invalidate | initPrinter | modeSwitch | printInfo | variousMode | pageNumber | advancedMode | margin
  | compressionSelect | rasterTransfer | print | printFeed => rfl

/-- A decoder that answers has been given at least one byte. -/
theorem encodeBytes_ne_nil {i : Instr} (h : jobItem i ≠ none) (hw : i.wf = true) : encodeBytes i ≠ [] := by
  intro hnil
  have hdecode := decodeProtocol_encode hw (encode_of_jobItem h) []
  rw [hnil] at hdecode
  cases hdecode

/-- The encoder after a command of a job: its bytes are appended, and a select byte is in force from here on (R175, R186). -/
def Encoder.after (enc : Encoder) (i : Instr) : Encoder :=
  { enc with stream := enc.stream ++ encodeBytes i, lastSelect := selectAfter enc.lastSelect i }

/-- A command of a job completes while the stream is open, and changes the encoder only. -/
theorem exec_jobCommand {s : State} {i : Instr} (hi : JobCommand i) (h : s.enc.frozen = false) :
    exec i s = .next { s with enc := s.enc.after i } := by
  obtain ⟨hitem, hw, hmargin⟩ := hi
  cases i with
  | stdec | rast | comp | run | lit | statusRequest => exact absurd rfl hitem
  | margin dots => exact exec_margin_open h fun hd => hmargin (congrArg Instr.margin hd)
  | rasterTransfer payload => exact exec_rasterTransfer_open h ((wf_rasterTransfer_iff payload).mp hw)
  | compressionSelect mode =>
    exact encodeInto_open (s := { s with enc := { s.enc with lastSelect := some mode } }) h _
  | invalidate | initPrinter | modeSwitch | printInfo | variousMode | pageNumber | advancedMode | print | printFeed =>
    exact encodeInto_open h _

/-! ## A list of commands of a job -/

/-- Commands of a job complete one after another; the open stream grows by their bytes, and the last select byte stays in
force. -/
theorem execAll_jobCommands {commands : List Instr} : ∀ {s : State}, (∀ i ∈ commands, JobCommand i) →
    s.enc.frozen = false →
      execAll commands s = .next { s with enc := { s.enc with
        stream := s.enc.stream ++ commands.flatMap encodeBytes
        lastSelect := commands.foldl selectAfter s.enc.lastSelect } } := by
  induction commands with
  | nil => intro s _ _; simp [execAll]
  | cons i more ih =>
    intro s hcommands hopen
    rw [List.forall_mem_cons] at hcommands
    obtain ⟨hi, hmore⟩ := hcommands
    have hrest := ih (s := { s with enc := s.enc.after i }) hmore hopen
    rw [execAll, exec_jobCommand hi hopen]
    simpa [Encoder.after] using hrest

/-- The decoder takes the commands of a job off their bytes, one by one. -/
theorem commandsUpTo_flatMap_encodeBytes {commands : List Instr} : ∀ {bound : Nat}, (∀ i ∈ commands, JobCommand i) →
    commands.length ≤ bound → commandsUpTo bound (commands.flatMap encodeBytes) = some commands := by
  induction commands with
  | nil => intro bound _ _; cases bound <;> rfl
  | cons i more ih =>
    intro bound hcommands hbound
    rw [List.forall_mem_cons] at hcommands
    obtain ⟨⟨hitem, hw, -⟩, hmore⟩ := hcommands
    obtain ⟨bound, rfl⟩ := Nat.exists_eq_add_of_le' (Nat.one_le_of_lt hbound)
    have hdecode := decodeProtocol_encode hw (encode_of_jobItem hitem) (more.flatMap encodeBytes)
    have hrest := ih hmore (Nat.le_of_succ_le_succ hbound)
    obtain ⟨c, bytes, hbytes⟩ := List.exists_cons_of_ne_nil (encodeBytes_ne_nil hitem hw)
    rw [hbytes, List.cons_append] at hdecode
    rw [List.flatMap_cons, hbytes, List.cons_append, commandsUpTo, hdecode]
    simp only [hrest]

/-- Each command of a job has at least one byte, so a stream has bytes enough for its commands. -/
theorem length_le_flatMap_encodeBytes {commands : List Instr} (h : ∀ i ∈ commands, JobCommand i) :
    commands.length ≤ (commands.flatMap encodeBytes).length := by
  induction commands with
  | nil => exact Nat.le_refl 0
  | cons i more ih =>
    rw [List.forall_mem_cons] at h
    obtain ⟨⟨hitem, hw, -⟩, hmore⟩ := h
    have hpos := List.length_pos_of_ne_nil (encodeBytes_ne_nil hitem hw)
    have hrest := ih hmore
    rw [List.flatMap_cons, List.length_append, List.length_cons]
    omega

/-- The commands of the stream that a list of commands of a job leaves are that list. -/
theorem commandsUpTo_stream {commands : List Instr} (h : ∀ i ∈ commands, JobCommand i) :
    commandsUpTo (commands.flatMap encodeBytes).length (commands.flatMap encodeBytes) = some commands :=
  commandsUpTo_flatMap_encodeBytes h (length_le_flatMap_encodeBytes h)

/-! ## The commands of one job -/

theorem rasterTransfer_mem_jobCommands {p : JobParams} {payloads : List (List Byte)} {payload : List Byte}
    (continuous : Bool) (h : payload ∈ payloads) :
    Instr.rasterTransfer payload ∈ jobCommands p payloads continuous :=
  List.mem_append_left _ (List.mem_append_right _ (List.mem_map_of_mem h))

theorem jobCommand_terminalCommand (continuous : Bool) : JobCommand (terminalCommand continuous) := by
  cases continuous <;> exact ⟨nofun, rfl, nofun⟩

/-- The encoder takes every command of a job whose margin is not 0 and whose payloads fit their length field (R185, R187). -/
theorem jobCommand_of_mem_jobCommands {p : JobParams} {payloads : List (List Byte)} {continuous : Bool}
    (hm : p.marginDots ≠ 0) (hp : ∀ payload ∈ payloads, payload.length ≤ 65535) :
    ∀ i ∈ jobCommands p payloads continuous, JobCommand i := by
  rw [jobCommands, List.forall_mem_append, List.forall_mem_append, List.forall_mem_map, List.forall_mem_singleton]
  refine ⟨⟨?fixed, fun payload h => ⟨nofun, (wf_rasterTransfer_iff payload).mpr (hp payload h), nofun⟩⟩,
    jobCommand_terminalCommand continuous⟩
  case fixed =>
    have hdots : JobCommand (.margin p.marginDots) := ⟨nofun, rfl, fun hzero => hm (Instr.margin.inj hzero)⟩
    simp only [List.forall_mem_cons, hdots, true_and]
    refine ⟨?_, ?_, ?_, ?_, ?_, ?_, ?_, ?_, List.forall_mem_nil _⟩ <;> exact ⟨nofun, rfl, nofun⟩

theorem jobItem_terminalCommand (continuous : Bool) : jobItem (terminalCommand continuous) = some 11 := by
  cases continuous <;> rfl

theorem transferPayload_terminalCommand (continuous : Bool) : transferPayload (terminalCommand continuous) = none := by
  cases continuous <;> rfl

theorem all_fieldsExact_terminalCommand (lines : Nat) (continuous : Bool) :
    [terminalCommand continuous].all (fieldsExact lines) = true := by
  cases continuous <;> rfl

/-- A job transfers its payloads, one after another (R187). -/
theorem filterMap_transferPayload_jobCommands (p : JobParams) (payloads : List (List Byte)) (continuous : Bool) :
    (jobCommands p payloads continuous).filterMap transferPayload = payloads := by
  have htransfers : (payloads.map Instr.rasterTransfer).filterMap transferPayload = payloads := by
    rw [List.filterMap_map]
    exact List.filterMap_some
  have hterminal : [terminalCommand continuous].filterMap transferPayload = [] :=
    List.filterMap_cons_none (transferPayload_terminalCommand continuous)
  rw [jobCommands, List.filterMap_append, List.filterMap_append, htransfers, hterminal, List.append_nil]
  rfl

/-- A job is in the exact order (R190). -/
theorem jobInOrder_jobCommands (p : JobParams) (payloads : List (List Byte)) (continuous : Bool) :
    jobInOrder (jobCommands p payloads continuous) = true := by
  have htransfers : (payloads.map Instr.rasterTransfer).map jobItem = List.replicate payloads.length (some 10) := by
    rw [List.map_map]
    exact List.map_const'
  have hlength : (jobCommands p payloads continuous).length - 10 = payloads.length := by simp [jobCommands]
  rw [jobInOrder, hlength, beq_iff_eq, jobItems, jobCommands, List.map_append, List.map_append, htransfers,
    List.map_singleton, jobItem_terminalCommand]
  rfl

/-- A job selects raster mode (R179), counts its lines (R181) and has a margin (R185). -/
theorem jobExact_jobCommands {p : JobParams} {payloads : List (List Byte)} (hm : p.marginDots ≠ 0)
    (hcount : payloads.length < 2 ^ 32) (continuous : Bool) : jobExact (jobCommands p payloads continuous) = true := by
  have hlines : (BitVec.ofNat 32 payloads.length).toNat = payloads.length := by
    rw [BitVec.toNat_ofNat, Nat.mod_eq_of_lt hcount]
  have htransfers : (payloads.map Instr.rasterTransfer).all (fieldsExact payloads.length) = true := by
    simp [fieldsExact]
  have hdots : (p.marginDots != 0) = true := bne_iff_ne.mpr hm
  rw [jobExact, jobInOrder_jobCommands, transferCount, filterMap_transferPayload_jobCommands, jobCommands,
    List.all_append, List.all_append, htransfers, all_fieldsExact_terminalCommand]
  simp only [List.all_cons, List.all_nil, fieldsExact, hlines, hdots, beq_self_eq_true, Bool.and_self]

/-! ## The lines that a job prints -/

/-- There are as many payloads as lines. -/
theorem length_of_payloadsFor {runMax lb : Nat} {select : Option Byte} {lines payloads : List (List Byte)}
    (h : payloadsFor runMax lb select lines = some payloads) : payloads.length = lines.length := by
  simpa using (congrArg List.length (payloadsFor_some h)).symm

/-- Transfers of the payloads of lines match those lines, as no transfer changes the select byte in force (R186, R187). -/
theorem transfersMatch_transfers {runMax lb : Nat} {select : Option Byte} (continuous : Bool) :
    ∀ {lines payloads : List (List Byte)}, lines.map (payloadFor runMax lb select) = payloads.map some →
      transfersMatch runMax lb select (payloads.map Instr.rasterTransfer ++ [terminalCommand continuous]) lines = true
  | [], [], _ => by simp [transfersMatch, transferPayload_terminalCommand]
  | [], _ :: _, h => by cases h
  | _ :: _, [], h => by cases h
  | line :: lines, payload :: payloads, h => by
    rw [List.map_cons, List.map_cons, List.cons.injEq] at h
    obtain ⟨hpayload, hmore⟩ := h
    simp [transfersMatch, transferPayload, selectAfter, hpayload, transfersMatch_transfers continuous hmore]

/-- A job prints the lines whose payloads it is given: its select command is the last before its transfers (R186, R190). -/
theorem transfersMatch_jobCommands {runMax lb : Nat} {p : JobParams} {lines payloads : List (List Byte)}
    (h : payloadsFor runMax lb (some p.select) lines = some payloads) (continuous : Bool) :
    transfersMatch runMax lb none (jobCommands p payloads continuous) lines = true :=
  transfersMatch_transfers continuous (payloadsFor_some h)

/-- The job of a page is that of the payloads of its lines (R164). -/
theorem jobOfPage_some {s : State} {p : JobParams} {continuous : Bool} {commands : List Instr}
    (h : jobOfPage s p continuous = some commands) :
    ∃ lines payloads, pageLines s = some lines ∧
      payloadsFor s.params.runMax s.lb.toNat (some p.select) lines = some payloads ∧
      commands = jobCommands p payloads continuous := by
  unfold jobOfPage at h
  split at h
  · cases h
  · next lines hlines =>
    split at h
    · cases h
    · next payloads hpayloads =>
      cases h
      exact ⟨lines, payloads, hlines, hpayloads, rfl⟩

/-! ## The statements -/

/-- Settles O54: the encoder leaves the bytes of the page's job, from which the decoder takes that job's commands. -/
theorem pageJobPrintsThePage : Obligations.PageJobPrintsThePage := by
  intro s p continuous commands hfresh hmargin hjob hfit
  obtain ⟨lines, payloads, hlines, hpayloads, rfl⟩ := jobOfPage_some hjob
  obtain ⟨hcount, -, hwidth⟩ := readLines_some hlines
  have htaken : ∀ i ∈ jobCommands p payloads continuous, JobCommand i :=
    jobCommand_of_mem_jobCommands hmargin fun payload hmem => hfit payload (rasterTransfer_mem_jobCommands continuous hmem)
  have hfew : payloads.length < 2 ^ 32 := by
    rw [length_of_payloadsFor hpayloads, hcount]
    exact s.nlines.isLt
  have hopen : s.enc.frozen = false := by rw [hfresh]; rfl
  refine ⟨_, lines, hlines, hcount, hwidth, execAll_jobCommands htaken hopen, rfl, ?prints⟩
  have hstream : s.enc.stream = [] := by rw [hfresh]; rfl
  simp only [streamPrintsLines, hstream, List.nil_append, commandsUpTo_stream htaken,
    jobExact_jobCommands hmargin hfew, transfersMatch_jobCommands hpayloads, Bool.and_self]

/-- Settles O13: the values that are commands run as what they decode to (O1, O12). -/
theorem commandWriteDispatches : Obligations.CommandWriteDispatches := by
  intro s v rest hs
  obtain ⟨runs, -, -⟩ := stepRunsDecodedInstruction
  obtain ⟨stdec, rast, comp, -⟩ := commandCodesDecode v
  refine ⟨fun hf => ?faulted, fun hf hv => runs s v rest _ hs hf (stdec hv),
    fun hf hv => runs s v rest _ hs hf (rast hv), fun hf hv => runs s v rest _ hs hf (comp hv),
    fun hf h1 h2 h3 => ?illegal⟩
  case faulted => exact (step_writeCmd hs).trans (runCommand_faulted (s := takeAction s rest) hf v)
  case illegal => exact (step_writeCmd hs).trans (runCommand_illegal hf (decodeCommand_illegal h1 h2 h3))

/-- Settles O15. -/
theorem faultedBlockIgnoresCommands : Obligations.FaultedBlockIgnoresCommands := by
  intro s hf
  exact ⟨exec_operation_faulted hf (by decide), exec_operation_faulted hf (by decide),
    exec_operation_faulted hf (by decide)⟩

end Sys2Proof.Machine
end

section
/-! # The family of the surroundings: the encoder, the transport and the status record

Of a step, the encoder sees one of three things: nothing, bytes appended to an open stream, or the build of it. The
commands, the transfers of the page and the transport have an equation per case, and the statements put them together. -/

namespace Sys2Proof.Machine

/-! ## The stream only grows -/

/-- The encoder `enc` can become `enc'` in a step of one job: bytes are appended, and to a built stream nothing happens
(R175). -/
structure Encoder.GrowsTo (enc enc' : Encoder) : Prop where
  grown : enc.stream <+: enc'.stream
  kept : enc.frozen = true → enc' = enc

theorem Encoder.GrowsTo.refl (enc : Encoder) : enc.GrowsTo enc :=
  ⟨List.prefix_rfl, fun _ => rfl⟩

theorem Encoder.GrowsTo.of_open {enc enc' : Encoder} (hopen : enc.frozen = false) (h : enc.stream <+: enc'.stream) :
    enc.GrowsTo enc' :=
  ⟨h, fun hbuilt => by rw [hopen] at hbuilt; cases hbuilt⟩

section
variable {s t : State}

/-- The encoder appends to an open stream only, whatever selection is recorded with it (R175, R186). -/
theorem encodeInto_growsTo {i : Instr} (select : Option Byte)
    (h : encodeInto { s with enc := { s.enc with lastSelect := select } } i = .next t) : s.enc.GrowsTo t.enc := by
  obtain ⟨hopen, rfl⟩ := encodeInto_next h
  exact .of_open hopen (List.prefix_append ..)

theorem execMargin_growsTo {dots : BitVec 16} (h : execMargin dots s = .next t) : s.enc.GrowsTo t.enc := by
  unfold execMargin unlessFrozen at h
  split at h
  · split at h <;> cases h
    exact .refl _
  · exact encodeInto_growsTo s.enc.lastSelect h

theorem execRasterTransfer_growsTo {payload : List Byte} (h : execRasterTransfer payload s = .next t) :
    s.enc.GrowsTo t.enc := by
  unfold execRasterTransfer at h
  split at h
  · exact encodeInto_growsTo s.enc.lastSelect h
  · cases h

/-- An instruction appends to the stream, or leaves the encoder alone (R25, R175). -/
theorem exec_growsTo {i : Instr} (h : exec i s = .next t) : s.enc.GrowsTo t.enc := by
  cases i with
  | stdec | rast | comp =>
    have henc : t.enc = s.enc := (congrArg State.enc (exec_operation_outside (by decide) h) :)
    rw [henc]
    exact .refl _
  | run _ _ | lit _ =>
    obtain ⟨-, rfl⟩ := readerTakes_next h
    exact .refl _
  | statusRequest => cases h; exact .refl _
  | margin _ => exact execMargin_growsTo h
  | rasterTransfer _ => exact execRasterTransfer_growsTo h
  | compressionSelect mode => exact encodeInto_growsTo (some mode) h
  | invalidate | initPrinter | modeSwitch _ | printInfo _ | variousMode _ | pageNumber _ | advancedMode _ | print
  | printFeed => exact encodeInto_growsTo s.enc.lastSelect h

@[simp] theorem requeue_enc (s : State) (again : List Byte → HostAction) (rest : List Byte) :
    (requeue s again rest).enc = s.enc := by
  unfold requeue
  split <;> rfl

@[simp] theorem writeReg_enc (s : State) (r : Reg) (v : Word) : (writeReg s r v).enc = s.enc := by
  rw [writeReg_eq]

theorem runCommand_growsTo {v : Word} (h : runCommand s v = .next t) : s.enc.GrowsTo t.enc := by
  unfold runCommand unlessFaulted at h
  split at h
  · cases h; exact .refl _
  · split at h
    · exact exec_growsTo h
    · cases h; exact .refl _

theorem hostWriteReg_growsTo {number : Nat} {v : Word} (h : hostWriteReg s number v = .next t) :
    s.enc.GrowsTo t.enc := by
  unfold hostWriteReg at h
  split at h
  · cases h
  · exact runCommand_growsTo h
  · cases h
    rw [writeReg_enc]
    exact .refl _

/-- Every action of the host but the taking of a fresh encoder lets the stream grow at most (R175). -/
theorem runAction_growsTo {a : HostAction} (ha : a ≠ .newEncoder) (h : runAction s a = .next t) :
    s.enc.GrowsTo t.enc := by
  cases a with
  | newEncoder => exact absurd rfl ha
  | writeReg number v => exact hostWriteReg_growsTo h
  | readReg number =>
    simp only [runAction, hostReadReg] at h
    split at h <;> cases h
    exact .refl _
  | writeMem space off bytes =>
    simp only [runAction, hostWriteMem] at h
    split at h <;> cases h
    exact .refl _
  | readMem space off n =>
    simp only [runAction, hostReadMem] at h
    split at h
    · cases h
    · split at h <;> cases h
      exact .refl _
  | expand bytes =>
    simp only [runAction, readerStep] at h
    split at h
    · cases h; exact .refl _
    · split at h
      · simpa using exec_growsTo h
      · cases h
  | emit bytes =>
    simp only [runAction, encoderStep] at h
    split at h
    · cases h; exact .refl _
    · split at h
      · simpa using exec_growsTo h
      · cases h
  | emitLine =>
    simp only [runAction, emitLine] at h
    split at h
    · cases h
    · exact exec_growsTo h
  | emitRawLine x =>
    simp only [runAction, emitRawLine] at h
    split at h
    · cases h
    · exact exec_growsTo h
  | emitPageInfo info => exact exec_growsTo (i := .printInfo (pageInfo s info)) h
  | reset | startLine => cases h; exact .refl _
  | build =>
    simp only [runAction, unlessFrozen] at h
    split at h <;> cases h
    next hopen => exact .of_open ((Bool.not_eq_true _).mp hopen) List.prefix_rfl
  | send outcome =>
    obtain ⟨-, rfl⟩ := sendStream_next h
    exact .refl _
  | fetchStatus outcome =>
    obtain ⟨r, rfl⟩ := fetchStatus_next h
    exact .refl _
  | loadStatus outcome =>
    rcases loadStatus_next h with ⟨record, -, rfl⟩ | ⟨e, -, rfl⟩ <;> exact .refl _
  | loadGeometry widthClass dpi =>
    simp only [runAction, loadGeometry] at h
    split at h <;> cases h <;> exact .refl _

end

/-! ## The stream of one job -/

/-- A job begins with three commands whose bytes are the same in every job, and ends with its terminal command (R190). -/
theorem jobCommands_eq_fixed_terminal (p : JobParams) (payloads : List (List Byte)) (continuous : Bool) :
    ∃ more, jobCommands p payloads continuous =
      [.invalidate, .initPrinter, .modeSwitch Config.rasterMode] ++ more ++ [terminalCommand continuous] :=
  ⟨_, rfl⟩

/-- A job's stream begins with the bytes of its fixed commands (R176, R177, R179). -/
theorem fixedBytes_prefix_jobStream (p : JobParams) (payloads : List (List Byte)) (continuous : Bool) :
    List.replicate 200 0x00 ++ [0x1B, 0x40, 0x1B, 0x69, 0x61, 0x01] <+:
      (jobCommands p payloads continuous).flatMap encodeBytes := by
  obtain ⟨more, hjob⟩ := jobCommands_eq_fixed_terminal p payloads continuous
  have hfixed : [Instr.invalidate, .initPrinter, .modeSwitch Config.rasterMode].flatMap encodeBytes =
      List.replicate 200 0x00 ++ [0x1B, 0x40, 0x1B, 0x69, 0x61, 0x01] := rfl
  rw [hjob, List.append_assoc, List.flatMap_append, hfixed]
  exact List.prefix_append ..

theorem encodeBytes_terminalCommand (continuous : Bool) :
    encodeBytes (terminalCommand continuous) = [if continuous then 0x0C else 0x1A] := by
  cases continuous <;> rfl

/-- A job's stream ends with the byte of its terminal command (R188, R189). -/
theorem getLast?_jobStream (p : JobParams) (payloads : List (List Byte)) (continuous : Bool) :
    ((jobCommands p payloads continuous).flatMap encodeBytes).getLast? =
      some (if continuous then 0x0C else 0x1A) := by
  obtain ⟨more, hjob⟩ := jobCommands_eq_fixed_terminal p payloads continuous
  rw [hjob, List.flatMap_append, List.flatMap_singleton, encodeBytes_terminalCommand, List.getLast?_concat]

/-- Raster transfers leave the selection in force alone (R186). -/
theorem foldl_selectAfter_transfers (payloads : List (List Byte)) (select : Option Byte) :
    (payloads.map Instr.rasterTransfer).foldl selectAfter select = select := by
  induction payloads with
  | nil => rfl
  | cons payload more ih => exact ih

theorem selectAfter_terminalCommand (select : Option Byte) (continuous : Bool) :
    selectAfter select (terminalCommand continuous) = select := by
  cases continuous <;> rfl

/-- After a job its own select byte is in force (R186, R190). -/
theorem foldl_selectAfter_jobCommands (p : JobParams) (payloads : List (List Byte)) (continuous : Bool)
    (select : Option Byte) : (jobCommands p payloads continuous).foldl selectAfter select = some p.select := by
  rw [jobCommands, List.foldl_append, List.foldl_append, List.foldl_cons, List.foldl_nil,
    selectAfter_terminalCommand, foldl_selectAfter_transfers]
  rfl

/-- The bytes of a job are one whole job in the exact order (R190). -/
theorem streamInOrder_jobStream {p : JobParams} {payloads : List (List Byte)} (continuous : Bool)
    (hm : p.marginDots ≠ 0) (hcount : payloads.length < 2 ^ 32)
    (hp : ∀ payload ∈ payloads, payload.length ≤ 65535) :
    streamInOrder ((jobCommands p payloads continuous).flatMap encodeBytes) = true := by
  rw [streamInOrder, commandsUpTo_stream (jobCommand_of_mem_jobCommands hm hp)]
  exact jobExact_jobCommands hm hcount continuous

/-! ## The encoder at its limits -/

section
variable {s : State}

theorem exec_margin_zero_open (h : s.enc.frozen = false) : exec (.margin 0) s = .next (respond s .rejected) := by
  change execMargin 0 s = _
  rw [execMargin, if_pos rfl, unlessFrozen_open h]

theorem exec_rasterTransfer_tooLong {payload : List Byte} (hl : 65535 < payload.length) :
    exec (.rasterTransfer payload) s = .fault .payloadTooLong :=
  if_neg fun hw => Nat.not_le_of_lt hl ((wf_rasterTransfer_iff payload).mp hw)

theorem encodeInto_frozen (h : s.enc.frozen = true) (i : Instr) : encodeInto s i = .fault .streamFrozen :=
  unlessFrozen_frozen h _

theorem execMargin_frozen (h : s.enc.frozen = true) (dots : BitVec 16) : execMargin dots s = .fault .streamFrozen := by
  unfold execMargin
  split
  · exact unlessFrozen_frozen h _
  · exact encodeInto_frozen h _

/-- A built encoder takes none of the commands that can stand in a job (R175). -/
theorem exec_frozen {i : Instr} (h : s.enc.frozen = true) (hi : jobItem i ≠ none) (hw : i.wf = true) :
    exec i s = .fault .streamFrozen := by
  cases i with
  | stdec | rast | comp | run | lit | statusRequest => exact absurd rfl hi
  | margin dots => exact execMargin_frozen h dots
  | rasterTransfer payload => exact (if_pos hw).trans (encodeInto_frozen h _)
  | compressionSelect mode =>
    exact encodeInto_frozen (s := { s with enc := { s.enc with lastSelect := some mode } }) h _
  | invalidate | initPrinter | modeSwitch | printInfo | variousMode | pageNumber | advancedMode | print | printFeed =>
    exact encodeInto_frozen h _

/-! ## Lines that are transferred -/

/-- Bytes read from a buffer, transferred: the length field is the number of bytes asked for (R187). -/
theorem exec_rasterTransfer_read (h : s.enc.frozen = false) {m : Mem} {off n : Nat} {payload : List Byte}
    (hread : memRead m off n = some payload) (hn : n ≤ 65535) :
    exec (.rasterTransfer payload) s = .next { s with enc := { s.enc with stream :=
      s.enc.stream ++ ([0x47, BitVec.ofNat 8 (n % 256), BitVec.ofNat 8 (n / 256)] ++ payload) } } := by
  obtain ⟨-, -, transfer⟩ := encoderWritesLittleEndianFields s h
  have hl : payload.length = n := length_of_memRead hread
  subst hl
  exact transfer payload hn

variable {rest : List HostAction}

theorem step_emitLine {payload : List Byte} (hs : s.host = .emitLine :: rest)
    (hread : memRead s.mem.cbuf 0 s.clen.toNat = some payload) :
    step s = exec (.rasterTransfer payload) (takeAction s rest) := by
  rw [step_cons hs, runAction, emitLine, takeAction_mem, takeAction_clen, hread]

theorem step_emitRawLine {x : Nat} {payload : List Byte} (hs : s.host = .emitRawLine x :: rest)
    (hread : memRead s.mem.line (x * s.lb.toNat) s.lb.toNat = some payload) :
    step s = exec (.rasterTransfer payload) (takeAction s rest) := by
  rw [step_cons hs, runAction, emitRawLine, takeAction_mem, takeAction_lb, hread]

/-! ## Build and send -/

theorem step_build (hs : s.host = .build :: rest) (h : s.enc.frozen = false) :
    step s = .next { takeAction s rest with enc := { s.enc with frozen := true } } :=
  (step_cons hs).trans (unlessFrozen_open (s := takeAction s rest) h _)

/-- A built stream goes out in one write, as much of it as the outcome lets (R192, R200). -/
theorem step_send_built {outcome : SendOutcome} (hs : s.host = .send outcome :: rest) (h : s.enc.frozen = true) :
    step s = .next (respond (appendWire (takeAction s rest) (outcome.written s.enc.stream))
      (transmit (takeAction s rest) s.enc.stream outcome).2) :=
  (step_cons hs).trans (if_pos h)

theorem step_send_open {outcome : SendOutcome} (hs : s.host = .send outcome :: rest) (h : s.enc.frozen = false) :
    step s = .refused .streamNotBuilt :=
  (step_cons hs).trans (if_neg ((Bool.not_eq_true _).mpr h))

/-! ## Fetching a status -/

theorem appendWire_nil (s : State) : appendWire s [] = s := by
  rw [appendWire, List.append_nil]

/-- A status fetch that succeeds answers the record, and by USB the request went out before (R193, R197). -/
theorem step_fetchStatus_ok {outcome : FetchOutcome} {record : List Byte} (hs : s.host = .fetchStatus outcome :: rest)
    (h : statusOf outcome = .ok record) :
    step s = .next (respond (appendWire (takeAction s rest) (fetchRequest outcome)) (.bytes record)) := by
  rw [step_cons hs, runAction, fetchStatus, h]

/-- A fetch that fails answers its error, and STREC is not written (R192, R203). -/
theorem step_fetch_error {outcome : FetchOutcome} {e : TransportFailure}
    (hs : s.host = .fetchStatus outcome :: rest ∨ s.host = .loadStatus outcome :: rest)
    (h : statusOf outcome = .error e) :
    step s = .next (respond (appendWire (takeAction s rest) (fetchRequest outcome)) (.failed e)) := by
  rcases hs with hs | hs
  · rw [step_cons hs, runAction, fetchStatus, h]
  · rw [step_cons hs, runAction, loadStatus, h]

/-- What `loadStatus` leaves of a record that was fetched: its bytes stand in STREC, the request on the wire (R192). -/
def statusLoaded (s : State) (rest : List HostAction) (outcome : FetchOutcome) (record : List Byte) : State :=
  { appendWire (takeAction s rest) (fetchRequest outcome) with
      mem := { s.mem with strec := memWrite s.mem.strec 0 record } }

theorem step_loadStatus_ok {outcome : FetchOutcome} {record : List Byte} (hs : s.host = .loadStatus outcome :: rest)
    (h : statusOf outcome = .ok record) : step s = .next (statusLoaded s rest outcome record) := by
  have hfits : 0 + record.length ≤ bufSize s.params .strec := by rw [Nat.zero_add, statusOf_ok h]; exact Nat.le_refl _
  rw [step_cons hs, runAction, loadStatus, h]
  exact hostWriteMem_inside hfits

/-- STREC then holds the record and, above it, what it held before (R44). -/
theorem statusLoaded_strec {outcome : FetchOutcome} {record : List Byte} (hl : record.length = 32) :
    memRead (statusLoaded s rest outcome record).mem.strec 0 32 = some record ∧
      ∀ a, 32 ≤ a → memByte (statusLoaded s rest outcome record).mem.strec a = memByte s.mem.strec a := by
  refine ⟨?_, fun a ha => memByte_memWrite_outside _ _ (.inr (by omega))⟩
  rw [← hl]
  exact memRead_memWrite_self ..

theorem statusOf_network_record {record : List Byte} (hl : record.length = 32) :
    statusOf (.network (some record)) = .ok record :=
  if_pos hl

theorem statusOf_usb_record {record : List Byte} (hl : record.length = 32) :
    statusOf (.usb .ok (some record)) = .ok record :=
  if_pos hl

end

/-! ## The statements -/

/-- Settles O48: of the actions of the host, only the taking of a fresh encoder ends a stream. -/
theorem streamOnlyGrowsUntilBuilt : Obligations.StreamOnlyGrowsUntilBuilt := by
  intro s t h hfresh
  have hgrows : s.enc.GrowsTo t.enc := by
    cases hs : s.host with
    | nil =>
      rw [step_idle hs] at h
      cases h
      exact .refl _
    | cons a rest =>
      rw [step_cons hs] at h
      have ha : a ≠ .newEncoder := fun hnew => hfresh rest (hnew ▸ hs)
      exact runAction_growsTo (s := takeAction s rest) ha h
  exact ⟨hgrows.grown, hgrows.kept⟩

/-- Settles O53: the encoder takes the whole job, and what it leaves is the job's bytes and select byte. -/
theorem jobStreamIsInExactOrder : Obligations.JobStreamIsInExactOrder := by
  intro s p payloads continuous hfresh hmargin hcount hfit
  have htaken := jobCommand_of_mem_jobCommands (continuous := continuous) hmargin hfit
  have hopen : s.enc.frozen = false := by rw [hfresh]; rfl
  have hstream : s.enc.stream = [] := by rw [hfresh]; rfl
  refine ⟨_, execAll_jobCommands htaken hopen, rfl, ?order, ?first, ?last,
    foldl_selectAfter_jobCommands p payloads continuous _⟩ <;> simp only [hstream, List.nil_append]
  case order => exact streamInOrder_jobStream continuous hmargin hcount hfit
  case first => exact fixedBytes_prefix_jobStream p payloads continuous
  case last => exact getLast?_jobStream p payloads continuous

/-- Settles O43: while the stream is open the encoder appends the bytes of the command. -/
theorem encoderAppendsByteRecords : Obligations.EncoderAppendsByteRecords := by
  intro s h
  exact ⟨encodeInto_open h _, encodeInto_open h _, fun _ => encodeInto_open h _, fun _ => encodeInto_open h _,
    fun _ => encodeInto_open h _, fun _ => encodeInto_open h _,
    fun mode => encodeInto_open (s := { s with enc := { s.enc with lastSelect := some mode } }) h _,
    encodeInto_open h _, encodeInto_open h _⟩

/-- Settles O45. -/
theorem marginOfZeroIsRejected : Obligations.MarginOfZeroIsRejected :=
  fun _ h => exec_margin_zero_open h

/-- Settles O46: the meaning of a status request is the transport's. -/
theorem statusRequestBypassesTheStream : Obligations.StatusRequestBypassesTheStream :=
  fun _ => rfl

/-- Settles O47. -/
theorem builtEncoderIsUsedUp : Obligations.BuiltEncoderIsUsedUp := by
  refine ⟨fun s i h hi hw => exec_frozen h hi hw, fun s rest h hs => ?build, fun s payload hl => ?long⟩
  case build => exact (step_cons hs).trans (unlessFrozen_frozen (s := takeAction s rest) h _)
  case long => exact exec_rasterTransfer_tooLong hl

/-- Settles O49: the bytes of CBUF up to CLEN, or of one raw line, are read and transferred. -/
theorem lineOfCbufIsTransferred : Obligations.LineOfCbufIsTransferred := by
  refine ⟨fun s rest payload hs hopen hfits hread => ?cbuf, fun s rest x payload hs hopen hfits hread => ?raw⟩
  case cbuf => exact (step_emitLine hs hread).trans (exec_rasterTransfer_read (s := takeAction s rest) hopen hread hfits)
  case raw => exact (step_emitRawLine hs hread).trans (exec_rasterTransfer_read (s := takeAction s rest) hopen hread hfits)

/-- Settles O50: the print information of the page (O44) has NLINES as its count. -/
theorem pageInfoCountsTheLines : Obligations.PageInfoCountsTheLines := by
  intro s rest info hs hopen
  obtain ⟨printInfo, -, -⟩ := encoderWritesLittleEndianFields (takeAction s rest) hopen
  exact (step_cons hs).trans (printInfo (pageInfo s info))

/-- Settles O51: each outcome of a fetch is a record or an error, with the bytes that it sent. -/
theorem statusFetchAnswersOrFails : Obligations.StatusFetchAnswersOrFails := by
  refine ⟨fun s rest record hl => ⟨fun hs => ?fetchNetwork, fun hs => ?fetchUsb, fun hs => ?loadNetwork,
    fun hs => ?loadUsb⟩, fun s rest outcome answer n hs => ⟨?noResponse, ?badResponse, ?noReply, ?badReply, ?notSent⟩⟩
  case fetchNetwork =>
    rw [step_fetchStatus_ok hs (statusOf_network_record hl), fetchRequest, appendWire_nil]
    rfl
  case fetchUsb => exact step_fetchStatus_ok hs (statusOf_usb_record hl)
  case loadNetwork =>
    obtain ⟨hread, hframe⟩ := statusLoaded_strec (s := s) (rest := rest) (outcome := .network (some record)) hl
    refine ⟨_, step_loadStatus_ok hs (statusOf_network_record hl), hread, List.append_nil _, rfl, hframe, ?_⟩
    rw [statusLoaded, fetchRequest, appendWire_nil]
    rfl
  case loadUsb =>
    obtain ⟨hread, hframe⟩ := statusLoaded_strec (s := s) (rest := rest) (outcome := .usb .ok (some record)) hl
    exact ⟨_, step_loadStatus_ok hs (statusOf_usb_record hl), hread, rfl, rfl, hframe, rfl⟩
  case noResponse =>
    rintro rfl
    rw [step_fetch_error hs rfl, fetchRequest, appendWire_nil]
    rfl
  case badResponse =>
    rintro rfl hl
    rw [step_fetch_error hs (if_neg hl), fetchRequest, appendWire_nil]
    rfl
  case noReply =>
    rintro rfl
    exact step_fetch_error hs rfl
  case badReply =>
    rintro rfl hl
    exact step_fetch_error hs (if_neg hl)
  case notSent => rintro (rfl | rfl) <;> exact step_fetch_error hs rfl

/-- Settles O52. -/
theorem buildThenSendHandsOverTheStream : Obligations.BuildThenSendHandsOverTheStream := by
  intro s rest
  refine ⟨fun hs hopen => step_build hs hopen, fun hs hbuilt => step_send_built hs hbuilt,
    fun n hs hbuilt => step_send_built hs hbuilt, fun outcome hs hopen => step_send_open hs hopen,
    fun hs hopen => ?both⟩
  case both =>
    have hsend := step_send_built (s := { takeAction s (.send .ok :: rest) with enc := { s.enc with frozen := true } })
      (outcome := .ok) (rest := rest) rfl rfl
    simp only [stepsFrom, step_build hs hopen, hsend]
    rfl

end Sys2Proof.Machine
end

section
/-! # The family of exceptions: the entry to the FAULTED state and the way out of it

A step enters the FAULTED state only through a command that raises one fault, and of what a step can do to the block only a
reset leaves that state. -/

namespace Sys2Proof.Machine

/-- A command that enters the FAULTED state, by an operation's fault or by a value that is no command (R63), has raised one
fault and done nothing else (R213). -/
theorem runCommand_faulting {s t : State} {v : Word} (h : runCommand s v = .next t) (hs : s.faulted = false)
    (ht : t.faulted = true) : ∃ c, c ≠ .noFault ∧ t = raise c s := by
  cases hv : decodeCommand v with
  | ok i =>
    rw [runCommand_runs hs hv] at h
    exact exec_faulting h hs ht
  | error e =>
    rw [runCommand_illegal hs hv] at h
    cases h
    exact ⟨.illegalCmd, by decide, rfl⟩

/-- No effect on a faulted block changes its fault: the one that sets FAULT needs a block that is not faulted (R215). -/
theorem BlockEffect.keeps_fault {s t : State} (e : BlockEffect s t) (hs : s.faulted = true) :
    t.faulted = true ∧ t.fault = s.fault := by
  cases e with
  | fault c ready => exact absurd hs (by simp [ready])
  | unchanged | inputs | store | stdec | rast | comp => exact ⟨hs, rfl⟩

/-! ## The statements -/

/-- Settles O16: the step of a write to CMD is the command, once the action has been taken. -/
theorem faultingCommandChangesNothingElse : Obligations.FaultingCommandChangesNothingElse := by
  intro s t v rest hs hf h ht
  rw [step_writeCmd hs] at h
  exact runCommand_faulting (s := takeAction s rest) h hf ht

/-- Settles O17: a step does an effect on the block, which keeps the fault, or it is a reset. -/
theorem faultStaysUntilReset : Obligations.FaultStaysUntilReset := by
  intro s t h hs hreset
  rcases step_next h with ⟨rest, hr, -⟩ | e
  · exact absurd hr (hreset rest)
  · exact e.keeps_fault hs

/-- Settles O14. -/
theorem idleStepChangesNothing : Obligations.IdleStepChangesNothing :=
  fun _ => step_idle

end Sys2Proof.Machine
end

section
/-! # The family of reset: the host's reset action -/

namespace Sys2Proof.Machine

/-- The reset action resets the block of the state in which it has been taken (R230, R231). -/
theorem step_reset {s : State} {rest : List HostAction} (hs : s.host = .reset :: rest) :
    step s = .next (resetBlock (takeAction s rest)) := by
  rw [step_cons hs]
  rfl

/-- Settles O7: the block is one that has been reset, and neither taking the action nor the reset touches the parameters or
the surroundings. -/
theorem hostResetRestoresBlock : Obligations.HostResetRestoresBlock := by
  intro s rest hs
  refine ⟨resetBlock (takeAction s rest), step_reset hs, readReg_resetBlock _, memByte_resetBlock _, ?_⟩
  simp only [resetBlock_params, resetBlock_expOut, resetBlock_enc, resetBlock_wire, resetBlock_host, takeAction_params,
    takeAction_expOut, takeAction_enc, takeAction_wire, takeAction_host, and_self]

end Sys2Proof.Machine
end
